-- ==== Sys2Proof/Word.lean ====
section
/-! DEFINITION. The words of GALOIS-CORE (spec/00_scope.md R6, spec/30_encoding.md R55 and R57). -/

namespace Sys2Proof

/-- A polynomial over GF(2): bit `i` is the coefficient of `x^i` (R6). The same 64 wires carry unsigned integers where a
rule says so (R42). -/
abbrev Poly := BitVec 64

/-- A command word, presented whole on `cmd_word` (R55). -/
abbrev CmdWord := BitVec 32

/-- An index into the P file: an unsigned 3-bit field, all eight values legal (R57). -/
abbrev PReg := BitVec 3

/-- An index into the E file (R57). -/
abbrev EReg := BitVec 3

end Sys2Proof
end

