-- ==== Sys2Proof/Syntax.lean ====
section
/-! DEFINITION. The 36 commands of GC-1, one constructor per row of the opcode map (spec/30_encoding.md R60). The operands
stand in the order destinations, sources, immediate. -/

namespace Sys2Proof

/-- A command. `rd`, `ra`, `rb`, `rc` are the register fields of R55 (P or E file as R57 says), `k`, `mask` and `wc` the
immediates of R58. The 64-bit operand of `LDI` is no part of the word (R59): it comes from the port. -/
inductive Instr where
  | nop
  | ldi (rd : PReg)
  | mov (rd ra : PReg)
  | rdp (ra : PReg)
  | ldc (rd : PReg) (k : BitVec 6)
  | rdst
  | clrf
  | padd (rd ra rb : PReg)
  | pmul (rd ra rb : PReg)
  | pdiv (rd rc ra rb : PReg)
  | pmod (rd ra rb : PReg)
  | pexp (rd ra rb rc : PReg)
  | pdeg (rd ra : PReg)
  | pford (rd ra : PReg)
  | fcfg (ra : PReg) (wc : BitVec 2)
  | ford (rd : PReg)
  | fgen (rd ra : PReg)
  | fadd (rd ra rb : PReg)
  | fmul (rd ra rb : PReg)
  | finv (rd ra : PReg)
  | fdiv (rd ra rb : PReg)
  | fexp (rd ra rb : PReg)
  | faddv (rd : PReg) (mask : BitVec 8)
  | fmulv (rd : PReg) (mask : BitVec 8)
  | fgetm (rd : PReg)
  | emk (rd : EReg) (ra rb : PReg)
  | egen (rd : EReg) (ra rb : PReg)
  | eget (rd : PReg) (ra : EReg)
  | egetm (rd : PReg) (ra : EReg)
  | emul (rd ra rb : EReg)
  | ediv (rd ra rb : EReg)
  | einv (rd ra : EReg)
  | eexp (rd ra : EReg) (rb : PReg)
  | eeq (ra rb : EReg)
  | eisz (ra : EReg)
  | eis1 (ra : EReg)
deriving DecidableEq, Repr

end Sys2Proof
end

