-- ==== Sys2Proof/WellFormed.lean ====
section
/-! DEFINITION. The extra conditions of the opcode map (spec/30_encoding.md R60, R62): which operands make a command no
command. -/

namespace Sys2Proof

/-- Why the operands of a command are illegal (the extra conditions of R60). -/
inductive Defect where
  /-- `LDC` with `k` outside 2..32 (R62). -/
  | catalogueDegree
  /-- `PDIV` with `rd = rc` (R62). -/
  | sameDestination
deriving DecidableEq, Repr

/-- The extra condition of the command's row, failed or not (R60). -/
def Instr.defect : Instr → Option Defect
  | .ldc _ k => if 2 ≤ k.toNat ∧ k.toNat ≤ 32 then none else some .catalogueDegree
  | .pdiv rd rc _ _ => if rd = rc then some .sameDestination else none
  | _ => none

/-- A command some legal word stands for: no extra condition fails (R61). -/
def Instr.wf (i : Instr) : Bool := i.defect.isNone

end Sys2Proof
end

