-- ==== Sys2Proof/Decode.lean ====
section
/-! DEFINITION. Decoding and encoding of command words (spec/30_encoding.md R55, R56, R60, R61, R62). Decoding reads no state
and is total: a word is a command or is rejected by name. -/

namespace Sys2Proof

/-- The formats of R56. -/
inductive Format where
  | z | d | a | da | ab | dab | dabc | dk | dm | aw
deriving DecidableEq, Repr

/-- The bits a format fixes: the opcode and the must-be-zero bits (R56). -/
def Format.mask : Format → CmdWord
  | .z => 0xFFFFFFFF#32
  | .d => 0xFF1FFFFF#32
  | .a => 0xFFE3FFFF#32
  | .da => 0xFF03FFFF#32
  | .ab => 0xFFE07FFF#32
  | .dab => 0xFF007FFF#32
  | .dabc => 0xFF000FFF#32
  | .dk => 0xFF1FFFC0#32
  | .dm => 0xFF1FFF00#32
  | .aw => 0xFFE3FFFC#32

/-- Why a word is illegal (R62). -/
inductive Illegal where
  /-- The opcode byte is no `op` of R60. -/
  | unassignedOpcode (op : BitVec 8)
  /-- A nonzero bit among the must-be-zero bits of the opcode's format. -/
  | mustBeZero (op : BitVec 8)
  /-- The row's extra condition fails. -/
  | operands (d : Defect)
deriving DecidableEq, Repr

/-- `op`, bits 31:24 (R55). -/
def opField (w : CmdWord) : BitVec 8 := w.extractLsb' 24 8

/-- `rd`, bits 23:21 (R55). -/
def rdField (w : CmdWord) : BitVec 3 := w.extractLsb' 21 3

/-- `ra`, bits 20:18 (R55). -/
def raField (w : CmdWord) : BitVec 3 := w.extractLsb' 18 3

/-- `rb`, bits 17:15 (R55). -/
def rbField (w : CmdWord) : BitVec 3 := w.extractLsb' 15 3

/-- `rc`, bits 14:12 (R55). -/
def rcField (w : CmdWord) : BitVec 3 := w.extractLsb' 12 3

/-- `k = imm[5:0]` (R58). -/
def kField (w : CmdWord) : BitVec 6 := w.extractLsb' 0 6

/-- `mask8 = imm[7:0]` (R58). -/
def maskField (w : CmdWord) : BitVec 8 := w.extractLsb' 0 8

/-- `wc = imm[1:0]` (R58). -/
def wcField (w : CmdWord) : BitVec 2 := w.extractLsb' 0 2

/-- The opcode map of R60: the format and the command of the row with this `op`, its operands taken from the word. -/
def commandOf (op : BitVec 8) (w : CmdWord) : Option (Format × Instr) :=
  let rd := rdField w
  let ra := raField w
  let rb := rbField w
  let rc := rcField w
  match op.toNat with
  | 0x00 => some (.z, .nop)
  | 0x01 => some (.d, .ldi rd)
  | 0x02 => some (.da, .mov rd ra)
  | 0x03 => some (.a, .rdp ra)
  | 0x04 => some (.dk, .ldc rd (kField w))
  | 0x05 => some (.z, .rdst)
  | 0x06 => some (.z, .clrf)
  | 0x10 => some (.dab, .padd rd ra rb)
  | 0x11 => some (.dab, .pmul rd ra rb)
  | 0x12 => some (.dabc, .pdiv rd rc ra rb)
  | 0x13 => some (.dab, .pmod rd ra rb)
  | 0x14 => some (.dabc, .pexp rd ra rb rc)
  | 0x15 => some (.da, .pdeg rd ra)
  | 0x16 => some (.da, .pford rd ra)
  | 0x20 => some (.aw, .fcfg ra (wcField w))
  | 0x21 => some (.d, .ford rd)
  | 0x22 => some (.da, .fgen rd ra)
  | 0x23 => some (.dab, .fadd rd ra rb)
  | 0x24 => some (.dab, .fmul rd ra rb)
  | 0x25 => some (.da, .finv rd ra)
  | 0x26 => some (.dab, .fdiv rd ra rb)
  | 0x27 => some (.dab, .fexp rd ra rb)
  | 0x28 => some (.dm, .faddv rd (maskField w))
  | 0x29 => some (.dm, .fmulv rd (maskField w))
  | 0x2A => some (.d, .fgetm rd)
  | 0x30 => some (.dab, .emk rd ra rb)
  | 0x31 => some (.dab, .egen rd ra rb)
  | 0x32 => some (.da, .eget rd ra)
  | 0x33 => some (.da, .egetm rd ra)
  | 0x34 => some (.dab, .emul rd ra rb)
  | 0x35 => some (.dab, .ediv rd ra rb)
  | 0x36 => some (.da, .einv rd ra)
  | 0x37 => some (.dab, .eexp rd ra rb)
  | 0x38 => some (.ab, .eeq ra rb)
  | 0x39 => some (.a, .eisz ra)
  | 0x3A => some (.a, .eis1 ra)
  | _ => none

/-- The command a word stands for, or why it is illegal: the opcode, then the must-be-zero bits, then the row's extra
condition (R61). -/
def decode (w : CmdWord) : Except Illegal Instr :=
  match commandOf (opField w) w with
  | none => .error (.unassignedOpcode (opField w))
  | some (fmt, i) =>
    if w &&& fmt.mask = (opField w).setWidth 32 <<< 24 then
      match i.defect with
      | none => .ok i
      | some d => .error (.operands d)
    else .error (.mustBeZero (opField w))

/-- The `op` of the command's row (R60). -/
def Instr.opcode : Instr → BitVec 8
  | .nop => 0x00#8
  | .ldi .. => 0x01#8
  | .mov .. => 0x02#8
  | .rdp .. => 0x03#8
  | .ldc .. => 0x04#8
  | .rdst => 0x05#8
  | .clrf => 0x06#8
  | .padd .. => 0x10#8
  | .pmul .. => 0x11#8
  | .pdiv .. => 0x12#8
  | .pmod .. => 0x13#8
  | .pexp .. => 0x14#8
  | .pdeg .. => 0x15#8
  | .pford .. => 0x16#8
  | .fcfg .. => 0x20#8
  | .ford .. => 0x21#8
  | .fgen .. => 0x22#8
  | .fadd .. => 0x23#8
  | .fmul .. => 0x24#8
  | .finv .. => 0x25#8
  | .fdiv .. => 0x26#8
  | .fexp .. => 0x27#8
  | .faddv .. => 0x28#8
  | .fmulv .. => 0x29#8
  | .fgetm .. => 0x2A#8
  | .emk .. => 0x30#8
  | .egen .. => 0x31#8
  | .eget .. => 0x32#8
  | .egetm .. => 0x33#8
  | .emul .. => 0x34#8
  | .ediv .. => 0x35#8
  | .einv .. => 0x36#8
  | .eexp .. => 0x37#8
  | .eeq .. => 0x38#8
  | .eisz .. => 0x39#8
  | .eis1 .. => 0x3A#8

/-- The format of the command's row (R60). -/
def Instr.format : Instr → Format
  | .nop | .rdst | .clrf => .z
  | .ldi .. | .ford .. | .fgetm .. => .d
  | .rdp .. | .eisz .. | .eis1 .. => .a
  | .mov .. | .pdeg .. | .pford .. | .fgen .. | .finv .. | .eget .. | .egetm .. | .einv .. => .da
  | .eeq .. => .ab
  | .padd .. | .pmul .. | .pmod .. | .fadd .. | .fmul .. | .fdiv .. | .fexp .. => .dab
  | .emk .. | .egen .. | .emul .. | .ediv .. | .eexp .. => .dab
  | .pdiv .. | .pexp .. => .dabc
  | .ldc .. => .dk
  | .faddv .. | .fmulv .. => .dm
  | .fcfg .. => .aw

/-- The layout of R55: `op`, `rd`, `ra`, `rb`, `rc`, `imm` from the most significant bit down. -/
def packWord (op : BitVec 8) (rd ra rb rc : BitVec 3) (imm : BitVec 12) : CmdWord :=
  op ++ rd ++ ra ++ rb ++ rc ++ imm

/-- The register fields and the immediate of a command, each field it does not use zero (R55, R60). -/
def Instr.fields : Instr → BitVec 3 × BitVec 3 × BitVec 3 × BitVec 3 × BitVec 12
  | .nop | .rdst | .clrf => (0#3, 0#3, 0#3, 0#3, 0#12)
  | .ldi rd | .ford rd | .fgetm rd => (rd, 0#3, 0#3, 0#3, 0#12)
  | .rdp ra | .eisz ra | .eis1 ra => (0#3, ra, 0#3, 0#3, 0#12)
  | .mov rd ra | .pdeg rd ra | .pford rd ra | .fgen rd ra | .finv rd ra => (rd, ra, 0#3, 0#3, 0#12)
  | .eget rd ra | .egetm rd ra | .einv rd ra => (rd, ra, 0#3, 0#3, 0#12)
  | .eeq ra rb => (0#3, ra, rb, 0#3, 0#12)
  | .padd rd ra rb | .pmul rd ra rb | .pmod rd ra rb => (rd, ra, rb, 0#3, 0#12)
  | .fadd rd ra rb | .fmul rd ra rb | .fdiv rd ra rb | .fexp rd ra rb => (rd, ra, rb, 0#3, 0#12)
  | .emk rd ra rb | .egen rd ra rb | .emul rd ra rb | .ediv rd ra rb | .eexp rd ra rb => (rd, ra, rb, 0#3, 0#12)
  | .pdiv rd rc ra rb => (rd, ra, rb, rc, 0#12)
  | .pexp rd ra rb rc => (rd, ra, rb, rc, 0#12)
  | .ldc rd k => (rd, 0#3, 0#3, 0#3, k.setWidth 12)
  | .faddv rd mask | .fmulv rd mask => (rd, 0#3, 0#3, 0#3, mask.setWidth 12)
  | .fcfg ra wc => (0#3, ra, 0#3, 0#3, wc.setWidth 12)

/-- The word of a command (R55, R60). -/
def encode (i : Instr) : CmdWord :=
  match i.fields with
  | (rd, ra, rb, rc, imm) => packWord i.opcode rd ra rb rc imm

/-- The command the decoder reads from a row's bits, numbered as spec/opcode_table.json numbers them. A command is one word,
presented whole on the port (R55), so it is laid out as it stands; bits the row has none of are 0. -/
def decodeTableWord (nbits w : Nat) : Option Instr :=
  match decode (BitVec.ofNat 32 (w % 2 ^ nbits)) with
  | .ok i => some i
  | .error _ => none

end Sys2Proof
end

