-- ==== Sys2Proof/Machine/State.lean ====
section
/-! DEFINITION. The state of GALOIS-CORE as plain data (spec/10_state.md R20 to R37), its result codes and failures
(spec/60_exceptions.md R200), and the state after reset (R36). -/

namespace Sys2Proof.Machine

/-- Why a command fails: the failing codes of R200. -/
inductive Failure where
  | construction
  | domain
  | xdomain
  | overflow
  | invariant
  | illegal
  | noField
deriving DecidableEq, Repr

/-- The result codes of R200; codes 9 to 15 are never produced. -/
inductive ResultCode where
  | ok
  | construction
  | domain
  | xdomain
  | overflow
  | invariant
  | illegal
  | noField
  | halted
deriving DecidableEq, Repr

/-- An element register: a value and "the modulus it belongs to" (R22). -/
structure Element where
  val : Poly
  mod : Poly
deriving DecidableEq, Repr

/-- The response presented while `rsp_valid` is 1: `rsp_status` and `rsp_data` (R33, R34). -/
structure Response where
  status : ResultCode
  data : BitVec 64
deriving DecidableEq, Repr

/-- The levels of the input wires at one step (R33). -/
structure PortInputs where
  rst : Bool
  cmdValid : Bool
  cmdWord : CmdWord
  cmdData : BitVec 64
deriving DecidableEq, Repr

/-- The machine. The fields up to `halt` are the architectural state of spec/10_state.md; `rsp` is the response port;
`inputs` and `upcoming` are the input port at the next step and what the host drives on it after that (DESIGN CHOICE, log 1:
`step` takes the state alone, so the host's stimulus stands in it). -/
structure State where
  /-- `P[0]` .. `P[7]` (R20). -/
  p : Vector Poly 8
  /-- `E[0]` .. `E[7]` (R22). -/
  e : Vector Element 8
  /-- `MOD`, the Field's modulus (R24). -/
  mod : Poly
  /-- `WID`, the width code (R24, R25). -/
  wid : BitVec 2
  /-- `CFGV`, a Field has been constructed since reset (R24). -/
  cfgv : Bool
  /-- `FC`, sticky `CONSTRUCTION` (R27, R28). -/
  fc : Bool
  /-- `FD`, sticky `DOMAIN` (R27, R28). -/
  fd : Bool
  /-- `FX`, sticky `XDOMAIN` (R27, R28). -/
  fx : Bool
  /-- `FO`, sticky `OVERFLOW` (R27, R28). -/
  fo : Bool
  /-- `FL`, sticky `ILLEGAL` (R27, R28). -/
  fl : Bool
  /-- `FN`, sticky `NOFIELD` (R27, R28). -/
  fn : Bool
  /-- `T`, the result of the last predicate command (R29). -/
  t : Bool
  /-- `HALT`, also the output `halted` (R30). -/
  halt : Bool
  /-- The response port; `none` is `rsp_valid = 0` (R33, log 5). -/
  rsp : Option Response
  /-- The input wires at the next step (R33, log 3). -/
  inputs : PortInputs
  /-- The levels the host drives at the steps after the next one, in order (R31, log 1). -/
  upcoming : List PortInputs
deriving DecidableEq, Repr

/-- No fault: the step function is total, every command ends with a result code and a next state (R201), and the halt state
is a state in which commands are answered `HALTED` (R207). Nothing raises a fault (safe). -/
inductive Fault where
deriving DecidableEq, Repr

/-- Why an instruction is given no meaning. -/
inductive Refusal where
  /-- Raised by an arm of `exec` that has no meaning yet, and by nothing else; no arm raises it now (safe). -/
  | notModelled (mnemonic : String)
deriving DecidableEq, Repr

/-- What a step or a meaning answers. -/
abbrev Outcome := Host.Outcome State Fault Refusal

/-- Input wires of a host that presents nothing (DESIGN CHOICE, log 3: the block does not reset its inputs). -/
def PortInputs.idle : PortInputs :=
  { rst := false, cmdValid := false, cmdWord := 0#32, cmdData := 0#64 }

/-- The state after reset: "every bit of state is 0", `rsp_valid = 0` (R36). The host is idle and has nothing more to drive
(DESIGN CHOICE, log 3). -/
def State.reset : State where
  p := Vector.replicate 8 0#64
  e := Vector.replicate 8 { val := 0#64, mod := 0#64 }
  mod := 0#64
  wid := 0#2
  cfgv := false
  fc := false
  fd := false
  fx := false
  fo := false
  fl := false
  fn := false
  t := false
  halt := false
  rsp := none
  inputs := PortInputs.idle
  upcoming := []

end Sys2Proof.Machine
end

