-- ==== Sys2Proof/Machine/Flags.lean ====
section
/-! DEFINITION. Result codes, sticky flags and the `STATUS` view (spec/10_state.md R27 to R30, spec/60_exceptions.md R200). -/

namespace Sys2Proof.Machine

/-- The number of a result code on `rsp_status` (R200). -/
def ResultCode.number : ResultCode → BitVec 4
  | .ok => 0#4
  | .construction => 1#4
  | .domain => 2#4
  | .xdomain => 3#4
  | .overflow => 4#4
  | .invariant => 5#4
  | .illegal => 6#4
  | .noField => 7#4
  | .halted => 8#4

/-- The result code a failure ends the command with (R200). -/
def Failure.code : Failure → ResultCode
  | .construction => .construction
  | .domain => .domain
  | .xdomain => .xdomain
  | .overflow => .overflow
  | .invariant => .invariant
  | .illegal => .illegal
  | .noField => .noField

/-- The one bit a failure sets: its sticky flag (R205), or `HALT` for `INVARIANT` (R206). -/
def State.recordFailure (s : State) : Failure → State
  | .construction => { s with fc := true }
  | .domain => { s with fd := true }
  | .xdomain => { s with fx := true }
  | .overflow => { s with fo := true }
  | .invariant => { s with halt := true }
  | .illegal => { s with fl := true }
  | .noField => { s with fn := true }

/-- All six sticky flags cleared, nothing else changed (R81). -/
def State.clearSticky (s : State) : State :=
  { s with fc := false, fd := false, fx := false, fo := false, fl := false, fn := false }

/-- A flag at bit `n` of a word. -/
def flagBit (b : Bool) (n : Nat) : BitVec 32 := (BitVec.ofBool b).setWidth 32 <<< n

/-- `STATUS`, the 32-bit read-only view of R27 (the formula of R80). -/
def State.statusWord (s : State) : BitVec 32 :=
  flagBit s.fc 0 ||| flagBit s.fd 1 ||| flagBit s.fx 2 ||| flagBit s.fo 3 ||| flagBit s.fl 4 ||| flagBit s.fn 5 |||
    flagBit s.t 8 ||| flagBit s.cfgv 9 ||| s.wid.setWidth 32 <<< 10

/-- The output `halted` (R33). -/
def State.halted (s : State) : Bool := s.halt

/-- The output `cmd_ready`: 1 whenever no command is in the block, which is so between any two steps (R33, log 2). -/
def State.cmdReady (_ : State) : Bool := true

/-- The output `rsp_valid` (R33). -/
def State.rspValid (s : State) : Bool := s.rsp.isSome

end Sys2Proof.Machine
end

