-- ==== Sys2Proof/Config.lean ====
section
/-! DEFINITION. What an instance of the hardware fixes: the open parameter `IRRED` (spec/10_state.md R32 and R37,
spec/42_modulus_table_and_order.md R122 to R124). -/

namespace Sys2Proof.Config

/-- The open parameter `IRRED` of R122: the contents of the read-only catalogue. It has no body, so no proof knows an entry;
`Machine.catalogueEntry` holds it to what R123 asks of every instance (log 6). -/
opaque catalogue : Nat → Poly

/-- The default instance of R124, entries `k = 2 .. 32` in order. PRESUMED: entry 16 is the document's, every other entry is
general knowledge (R124, G1; log 7). It stands in where the open value is no catalogue entry at all (`Machine.catalogueEntry`),
so that no claim can rest on its values. -/
def defaultCatalogue : List Poly :=
  [0x7, 0xB, 0x13, 0x25, 0x43, 0x89, 0x11D, 0x211] ++
  [0x409, 0x805, 0x1053, 0x201B, 0x4443, 0x8003, 0x1100B, 0x20009] ++
  [0x40081, 0x80027, 0x100009, 0x200005, 0x400003, 0x800021, 0x1000087, 0x2000009] ++
  [0x4000047, 0x8000027, 0x10000009, 0x20000005, 0x40800007, 0x80000009, 0x100400007]

end Sys2Proof.Config
end

