-- ==== Sys2Proof/Machine/Engine.lean ====
section
/-! DEFINITION. The polynomial engine (spec/41_polynomial_engine.md R90 to R96), the order functions and the catalogue
(spec/42_modulus_table_and_order.md R120 to R123): pure functions of 64-bit operands. -/

namespace Sys2Proof.Machine

/-- The "index of highest set bit; 0 for the zero polynomial" (R90). -/
def degree (v : Poly) : Nat := v.toNat.log2

/-- 0 for 0, else 1 + the index of the highest set bit (R7). -/
def bitlen (v : BitVec 64) : Nat := if v = 0#64 then 0 else degree v + 1

/-- Addition: xor on all 64 bits (R91). -/
def polyAdd (a b : Poly) : Poly := a ^^^ b

/-- The convolution loop of R92 over the bits `0 .. n - 1` of `a`. -/
def convolve (a b : Poly) : Nat → Poly
  | 0 => 0#64
  | n + 1 => if a.getLsbD n then convolve a b n ^^^ b <<< n else convolve a b n

/-- The exact carry-less product, or `OVERFLOW` (R92). The overflow test comes first; the fast paths give the same value as
the loop, so the loop alone is used, as R92 allows (log 9). -/
def polyMul (a b : Poly) : Except Failure Poly :=
  if degree a + degree b > 63 then .error .overflow else .ok (convolve a b 64)

/-- The long-division loop of R93 on (quotient, remainder); 64 iterations always suffice (R236, log 10). -/
def divLoop (d : Poly) : Nat → Poly × Poly → Poly × Poly
  | 0, qr => qr
  | fuel + 1, (q, r) =>
    if degree d ≤ degree r ∧ r ≠ 0#64 then
      divLoop d fuel (q ||| 1#64 <<< (degree r - degree d), r ^^^ d <<< (degree r - degree d))
    else (q, r)

/-- Quotient and remainder, or `DOMAIN` for a zero divisor (R93). -/
def polyDiv (n d : Poly) : Except Failure (Poly × Poly) :=
  if d = 0#64 then .error .domain else .ok (divLoop d 64 (0#64, n))

/-- The remainder component of the division (R94). -/
def polyMod (a b : Poly) : Except Failure Poly :=
  (polyDiv a b).map Prod.snd

/-- A multiplication of R96, reduced "whenever modulus is nonzero". -/
def mulReduce (a b m : Poly) : Except Failure Poly :=
  match polyMul a b with
  | .error f => .error f
  | .ok c => if m = 0#64 then .ok c else polyMod c m

/-- One iteration of R96: the square, then for a set exponent bit the product with the base. -/
def expStep (base m : Poly) (bit : Bool) (res : Poly) : Except Failure Poly :=
  match mulReduce res res m with
  | .error f => .error f
  | .ok sq => if bit then mulReduce sq base m else .ok sq

/-- The loop of R96 over the exponent bits `n - 1` down to 0. -/
def expLoop (base : Poly) (e : BitVec 64) (m : Poly) : Nat → Poly → Except Failure Poly
  | 0, res => .ok res
  | n + 1, res =>
    match expStep base m (e.getLsbD n) res with
    | .error f => .error f
    | .ok next => expLoop base e m n next

/-- Square-and-multiply, most significant exponent bit first, the base not reduced before use (R96). -/
def polyExp (base : Poly) (e : BitVec 64) (m : Poly) : Except Failure Poly :=
  expLoop base e m (bitlen e) 1#64

/-- `FieldOrder`: the multiplicative group order `2^Degree(m) - 1` (R120). -/
def fieldOrder (m : Poly) : Nat := 2 ^ degree m - 1

/-- `Order`: the number of elements `2^Degree(m)` (R121). -/
def order (m : Poly) : Nat := 2 ^ degree m

/-- Clause b of R123, "irreducible over GF(2)" (R10), by trial division. -/
def noFactor (m : Poly) : Bool :=
  decide (1 ≤ degree m ∧
    ∀ n, n < 2 ^ degree m → 1 ≤ degree (BitVec.ofNat 64 n) → polyMod m (BitVec.ofNat 64 n) ≠ .ok 0#64)

/-- Clause c of R123: the least `j > 0` with `Exp(2, j, m) = 1` is `2^Degree(m) - 1`. -/
def generatorPrimitive (m : Poly) : Bool :=
  decide (polyExp 2#64 (BitVec.ofNat 64 (fieldOrder m)) m = .ok 1#64 ∧
    ∀ j, j < fieldOrder m → 0 < j → polyExp 2#64 (BitVec.ofNat 64 j) m ≠ .ok 1#64)

/-- What R123 a, b and c ask of a value that is to be entry `k`. -/
def admissibleEntry (k : Nat) (v : Poly) : Bool :=
  degree v == k && generatorPrimitive v && noFactor v

/-- Entry `k` of the default instance of R124 (log 7). -/
def defaultEntry (k : Nat) : Poly := Config.defaultCatalogue.getD (k - 2) 0#64

/-- `IRRED[k]` for `k` in 2..32 (R122): entry 16 is `0x1100B` (R123 d); every other entry is the open value where that meets
R123 a, b and c, and the default instance's entry where it does not, so that every table R123 allows, and no other, is a
catalogue of the model (log 6). No proof knows which. -/
def catalogueEntry (k : Nat) : Poly :=
  if k = 16 then 0x1100B#64
  else if admissibleEntry k (Config.catalogue k) then Config.catalogue k
  else defaultEntry k

end Sys2Proof.Machine
end

