-- ==== Sys2Proof/Machine/FieldUnit.lean ====
section
/-! DEFINITION. The unit functions of the Field (spec/43_field.md R130, R135, R137) and the inverse unit
(spec/44_inverse.md R160, R161). -/

namespace Sys2Proof.Machine

/-- `narrow_W`: the low `W` bits, zeros above (R130). -/
def narrow (W : Nat) (v : Poly) : Poly := (v.setWidth W).setWidth 64

/-- The divisor of the exponent reduction: `2^d - 1` by the resolution of C2 (R135, U3; log 11). -/
def expDivisor (m : Poly) : Nat := fieldOrder m

/-- `ReduceExp`: the whole 64-bit exponent modulo the group order; `DOMAIN` when that order is 0 (R135). -/
def reduceExp (e : BitVec 64) (m : Poly) : Except Failure (BitVec 64) :=
  if expDivisor m = 0 then .error .domain else .ok (BitVec.ofNat 64 (e.toNat % expDivisor m))

/-- A generator power: the exponent reduced, then 2 raised to it (R138, R172). -/
def generate (e : BitVec 64) (m : Poly) : Except Failure Poly :=
  match reduceExp e m with
  | .error f => .error f
  | .ok k => polyExp 2#64 k m

/-- A power with the exponent reduced first (R149, R182). -/
def reducedPower (base : Poly) (e : BitVec 64) (m : Poly) : Except Failure Poly :=
  match reduceExp e m with
  | .error f => .error f
  | .ok k => polyExp base k m

/-- One multiply-then-reduce of the fold: `OVERFLOW` from the product, then `DOMAIN` from the reduction (R137, R203). -/
def mulMod (a b m : Poly) : Except Failure Poly :=
  match polyMul a b with
  | .error f => .error f
  | .ok c => polyMod c m

/-- The fold of R137 from an accumulator, in sequence order. -/
def foldFrom (m : Poly) : Poly → List Poly → Except Failure Poly
  | acc, [] => .ok acc
  | acc, v :: vs =>
    match mulMod acc v m with
    | .error f => .error f
    | .ok acc' => foldFrom m acc' vs

/-- `MulFold`: 0 for no operand, 0 when any operand is 0 (scanned before any product), else the fold that starts as the first
operand (R137). -/
def mulFold (ops : List Poly) (m : Poly) : Except Failure Poly :=
  match ops with
  | [] => .ok 0#64
  | v :: vs => if (v :: vs).any (· == 0#64) then .ok 0#64 else foldFrom m v vs

/-- The working pairs `(r, newr)` and `(t, newt)` of the extended Euclidean algorithm (R160). -/
structure Euclid where
  r : Poly
  newr : Poly
  t : Poly
  newt : Poly
deriving DecidableEq, Repr

/-- One iteration of R160; both pair assignments are simultaneous. -/
def euclidStep (x : Euclid) : Except Failure Euclid :=
  match polyDiv x.r x.newr with
  | .error f => .error f
  | .ok (quotient, rem) =>
    match polyMul quotient x.newt with
    | .error f => .error f
    | .ok c => .ok { r := x.newr, newr := rem, t := x.newt, newt := polyAdd x.t c }

/-- The loop of R160, `while newr != 0`. -/
def euclidLoop : Nat → Euclid → Except Failure Euclid
  | 0, x => .ok x
  | fuel + 1, x =>
    if x.newr = 0#64 then .ok x
    else
      match euclidStep x with
      | .error f => .error f
      | .ok x' => euclidLoop fuel x'

/-- Where the loop of R160 starts. -/
def euclidStart (y m : Poly) : Euclid := { r := m, newr := y, t := 0#64, newt := 1#64 }

/-- `Inverse(y, m)`: `DOMAIN` for `y = 0`; `INVARIANT` when the last nonzero remainder is not 1 (R160, R161). 65 is the loop's
bound for all inputs (R163, log 10). -/
def inverse (y m : Poly) : Except Failure Poly :=
  if y = 0#64 then .error .domain
  else
    match euclidLoop 65 (euclidStart y m) with
    | .error f => .error f
    | .ok x => if x.r = 1#64 then .ok x.t else .error .invariant

/-- `Div`: the inverse of the denominator first, then the product (R147, R180, D39). -/
def divide (a b m : Poly) : Except Failure Poly :=
  match inverse b m with
  | .error f => .error f
  | .ok i => mulFold [a, i] m

end Sys2Proof.Machine
end

