-- ==== Sys2Proof/Machine/Operands.lean ====
section
/-! DEFINITION. The operand forms of the commands: P and E registers, the Field's narrowed operands, the operand sequence of a
mask, the data word of the port (spec/20_memory.md R40, spec/30_encoding.md R57 to R59, spec/43_field.md R130, R141). -/

namespace Sys2Proof.Machine

/-- `P[i]` (R7). -/
def State.readP (s : State) (i : PReg) : Poly := s.p[i.toNat]'i.isLt

/-- `P[i] <- v` (R7). -/
def State.writeP (s : State) (i : PReg) (v : Poly) : State := { s with p := s.p.set i.toNat v i.isLt }

/-- `E[i]`, both halves (R7). -/
def State.readE (s : State) (i : EReg) : Element := s.e[i.toNat]'i.isLt

/-- `E[i] <- (v, m)`: an E register is written only as a whole pair (R22). -/
def State.writeE (s : State) (i : EReg) (x : Element) : State := { s with e := s.e.set i.toNat x i.isLt }

/-- `W = 8 << WID` (R25). -/
def State.width (s : State) : Nat := 8 <<< s.wid.toNat

/-- A value operand of a Field command: `narrow_W(P[i])` (R130 a). -/
def State.readField (s : State) (i : PReg) : Poly := narrow s.width (s.readP i)

/-- The registers a mask selects, in ascending index (R58, R141). -/
def maskedRegisters (mask : BitVec 8) : List PReg :=
  [0#3, 1#3, 2#3, 3#3, 4#3, 5#3, 6#3, 7#3].filter fun i => mask.getLsbD i.toNat

/-- The operand sequence of `FADDV` and `FMULV` (R141, R143). -/
def State.maskedOperands (s : State) (mask : BitVec 8) : List Poly :=
  (maskedRegisters mask).map s.readField

/-- The word on `cmd_data`, the operand of `LDI` (R59). -/
def State.dataOperand (s : State) : Poly := s.inputs.cmdData

end Sys2Proof.Machine
end

