-- ==== Sys2Proof/Machine/Ops.lean ====
section
/-! DEFINITION. The operations every command is written over: responding, failing (the "trap entry" of this block,
spec/60_exceptions.md R205 and R206), the halt state (R207), the common prologue (R201), and the port (spec/10_state.md R33). -/

namespace Sys2Proof.Machine

/-- The command ends with a code and data on the response port (R33). -/
def State.respond (s : State) (c : ResultCode) (data : BitVec 64) : State :=
  { s with rsp := some { status := c, data := data } }

/-- TAKING A FAILURE: the one bit of the failure is set, no destination is written, the response is its code with
`rsp_data = 0` (R205, R206). There is no return from it (R208). -/
def takeFailure (f : Failure) (s : State) : State := (s.recordFailure f).respond f.code 0#64

/-- A command accepted while `HALT = 1`: answered `HALTED`, no state changed (R207). -/
def answerHalted (s : State) : State := s.respond .halted 0#64

/-- The common prologue and epilogue of R201. `body` is the command's pseudocode on the state before it: the writes applied
and the response data, or the first failure. The halt test is made here and not before decoding: the outcome is the same
(log 8). -/
def runCommand (s : State) (body : Except Failure (State × BitVec 64)) : Outcome :=
  if s.halt then .next (answerHalted s)
  else
    match body with
    | .ok (s', data) => .next (s'.respond .ok data)
    | .error f => .next (takeFailure f s)

/-- A Field command other than `FCFG`: the `NOFIELD` test before any operand is looked at (R131, R132). -/
def runFieldCommand (s : State) (body : Except Failure (State × BitVec 64)) : Outcome :=
  runCommand s (if s.cfgv then body else .error .noField)

/-- A command with no `respond` line: `rsp_data = 0` (R7, R34). -/
def silent (s : State) : Except Failure (State × BitVec 64) := .ok (s, 0#64)

/-- `P[rd] <- v` for a unit function's result, or its failure (R8). -/
def resultP (s : State) (rd : PReg) (r : Except Failure Poly) : Except Failure (State × BitVec 64) :=
  match r with
  | .error f => .error f
  | .ok v => silent (s.writeP rd v)

/-- `P[rd] <- narrow_W(v)`: a Field command that computes a field value (R130 b). -/
def resultField (s : State) (rd : PReg) (r : Except Failure Poly) : Except Failure (State × BitVec 64) :=
  resultP s rd (r.map (narrow s.width))

/-- `E[rd] <- (v, m)` for a unit function's result, or its failure (R8, R22). -/
def resultE (s : State) (rd : EReg) (m : Poly) (r : Except Failure Poly) : Except Failure (State × BitVec 64) :=
  match r with
  | .error f => .error f
  | .ok v => silent (s.writeE rd { val := v, mod := m })

/-- The same-modulus check of a binary element operation, before anything else (R175). -/
def sameModulus (a b : Element) (body : Except Failure (State × BitVec 64)) : Except Failure (State × BitVec 64) :=
  if a.mod = b.mod then body else .error .xdomain

/-- `T <- b; respond(zext_64(T))` (R29, R184). -/
def predicate (s : State) (b : Bool) : Except Failure (State × BitVec 64) :=
  .ok ({ s with t := b }, (BitVec.ofBool b).setWidth 64)

/-- An accepted word that is no command: `ILLEGAL`, or `HALTED` in the halt state (R62, R207). -/
def illegalCommand (s : State) : Outcome := runCommand s (.error .illegal)

/-- The command on the port: there is no fetch, the word is the one on `cmd_word` (R49). -/
def State.fetch (s : State) : Except Illegal Instr := decode s.inputs.cmdWord

/-- `rst` asserted: every bit of state is 0, no response; the input side is the host's and goes on (R36, R230, R232). -/
def State.applyReset (s : State) : State := { State.reset with inputs := s.inputs, upcoming := s.upcoming }

/-- No command presented: the response of the step before is no longer valid, nothing else changes (R33, R211). -/
def State.idleStep (s : State) : State := { s with rsp := none }

/-- The host drives the next levels of the input wires; with none left it presents nothing more (log 4). -/
def State.nextInputs (s : State) : State :=
  match s.upcoming with
  | [] => { s with inputs := { s.inputs with rst := false, cmdValid := false } }
  | w :: ws => { s with inputs := w, upcoming := ws }

/-- The end of a step: the host drives the next levels (log 1). -/
def advance (o : Outcome) : Outcome :=
  match o with
  | .next s => .next s.nextInputs
  | .fault r => .fault r
  | .refused r => .refused r

end Sys2Proof.Machine
end

