-- ==== Sys2Proof/Machine/Field.lean ====
section
/-! DEFINITION. The Field commands (spec/43_field.md R133 to R149): fixed modulus `MOD`, width `W`. -/

namespace Sys2Proof.Machine

/-- `FCFG Pa, W`: a new Field, or `CONSTRUCTION` when `Degree(m) > W`; the width tested is the new one (R133). -/
def execFcfg (ra : PReg) (wc : BitVec 2) (s : State) : Outcome :=
  runCommand s <|
    if degree (s.readP ra) > 8 <<< wc.toNat then .error .construction
    else silent { s with mod := s.readP ra, wid := wc, cfgv := true }

/-- `FORD Pd`: `Order(MOD)`, not narrowed (R134). -/
def execFord (rd : PReg) (s : State) : Outcome :=
  runFieldCommand s (silent (s.writeP rd (BitVec.ofNat 64 (order s.mod))))

/-- `FGETM Pd`: `MOD`, not narrowed (R136). -/
def execFgetm (rd : PReg) (s : State) : Outcome :=
  runFieldCommand s (silent (s.writeP rd s.mod))

/-- `FGEN Pd, Pa`: the exponent is the whole of `P[ra]` (R138). -/
def execFgen (rd ra : PReg) (s : State) : Outcome :=
  runFieldCommand s (resultField s rd (generate (s.readP ra) s.mod))

/-- `FADD Pd, Pa, Pb`: xor, not reduced modulo `MOD` (R140). -/
def execFadd (rd ra rb : PReg) (s : State) : Outcome :=
  runFieldCommand s (resultField s rd (.ok (polyAdd (s.readField ra) (s.readField rb))))

/-- `FADDV Pd, {mask8}` (R141). -/
def execFaddv (rd : PReg) (mask : BitVec 8) (s : State) : Outcome :=
  runFieldCommand s (resultField s rd (.ok ((s.maskedOperands mask).foldl polyAdd 0#64)))

/-- `FMUL Pd, Pa, Pb` (R142). -/
def execFmul (rd ra rb : PReg) (s : State) : Outcome :=
  runFieldCommand s (resultField s rd (mulFold [s.readField ra, s.readField rb] s.mod))

/-- `FMULV Pd, {mask8}` (R143). -/
def execFmulv (rd : PReg) (mask : BitVec 8) (s : State) : Outcome :=
  runFieldCommand s (resultField s rd (mulFold (s.maskedOperands mask) s.mod))

/-- `FINV Pd, Pa` (R145). -/
def execFinv (rd ra : PReg) (s : State) : Outcome :=
  runFieldCommand s (resultField s rd (inverse (s.readField ra) s.mod))

/-- `FDIV Pd, Pa, Pb` (R147). -/
def execFdiv (rd ra rb : PReg) (s : State) : Outcome :=
  runFieldCommand s (resultField s rd (divide (s.readField ra) (s.readField rb) s.mod))

/-- `FEXP Pd, Pa, Pb`: the base narrowed, the exponent the whole of `P[rb]` (R149). -/
def execFexp (rd ra rb : PReg) (s : State) : Outcome :=
  runFieldCommand s (resultField s rd (reducedPower (s.readField ra) (s.readP rb) s.mod))

end Sys2Proof.Machine
end

