-- ==== Sys2Proof/Machine/FieldElement.lean ====
section
/-! DEFINITION. The FieldElement commands (spec/45_field_element.md R171 to R186): each element carries its modulus; nothing is
narrowed, `MOD` is not used. -/

namespace Sys2Proof.Machine

/-- `EMK Ed, Pa, Pb`: the value reduced modulo the modulus `P[rb]` (R171). -/
def execEmk (rd : EReg) (ra rb : PReg) (s : State) : Outcome :=
  runCommand s (resultE s rd (s.readP rb) (polyMod (s.readP ra) (s.readP rb)))

/-- `EGEN Ed, Pa, Pb`: a generator power modulo `P[rb]` (R172). -/
def execEgen (rd : EReg) (ra rb : PReg) (s : State) : Outcome :=
  runCommand s (resultE s rd (s.readP rb) (generate (s.readP ra) (s.readP rb)))

/-- `EGET Pd, Ea` (R173). -/
def execEget (rd : PReg) (ra : EReg) (s : State) : Outcome :=
  runCommand s (silent (s.writeP rd (s.readE ra).val))

/-- `EGETM Pd, Ea` (R174). -/
def execEgetm (rd : PReg) (ra : EReg) (s : State) : Outcome :=
  runCommand s (silent (s.writeP rd (s.readE ra).mod))

/-- `EMUL Ed, Ea, Eb` (R176). -/
def execEmul (rd ra rb : EReg) (s : State) : Outcome :=
  let a := s.readE ra
  let b := s.readE rb
  runCommand s (sameModulus a b (resultE s rd a.mod (mulFold [a.val, b.val] a.mod)))

/-- `EDIV Ed, Ea, Eb`: the modulus check, then the inverse, then the product (R180). -/
def execEdiv (rd ra rb : EReg) (s : State) : Outcome :=
  let a := s.readE ra
  let b := s.readE rb
  runCommand s (sameModulus a b (resultE s rd a.mod (divide a.val b.val a.mod)))

/-- `EINV Ed, Ea` (R178). -/
def execEinv (rd ra : EReg) (s : State) : Outcome :=
  let a := s.readE ra
  runCommand s (resultE s rd a.mod (inverse a.val a.mod))

/-- `EEXP Ed, Ea, Pb`: the exponent is the whole of `P[rb]` (R182). -/
def execEexp (rd ra : EReg) (rb : PReg) (s : State) : Outcome :=
  let a := s.readE ra
  runCommand s (resultE s rd a.mod (reducedPower a.val (s.readP rb) a.mod))

/-- `EEQ Ea, Eb`: both halves equal; elements of different moduli are unequal, not an error (R184). -/
def execEeq (ra rb : EReg) (s : State) : Outcome :=
  runCommand s (predicate s (decide (s.readE ra = s.readE rb)))

/-- `EISZ Ea` (R185). -/
def execEisz (ra : EReg) (s : State) : Outcome :=
  runCommand s (predicate s (decide ((s.readE ra).val = 0#64)))

/-- `EIS1 Ea` (R186). -/
def execEis1 (ra : EReg) (s : State) : Outcome :=
  runCommand s (predicate s (decide ((s.readE ra).val = 1#64)))

end Sys2Proof.Machine
end

