-- ==== Sys2Proof/Machine/Polynomial.lean ====
section
/-! DEFINITION. The raw polynomial commands (spec/41_polynomial_engine.md R100 to R105, spec/42_modulus_table_and_order.md
R125): full 64-bit operands, no field configured. -/

namespace Sys2Proof.Machine

/-- `PADD Pd, Pa, Pb` (R100). -/
def execPadd (rd ra rb : PReg) (s : State) : Outcome :=
  runCommand s (silent (s.writeP rd (polyAdd (s.readP ra) (s.readP rb))))

/-- `PMUL Pd, Pa, Pb` (R101). -/
def execPmul (rd ra rb : PReg) (s : State) : Outcome :=
  runCommand s (resultP s rd (polyMul (s.readP ra) (s.readP rb)))

/-- `PDIV Pq, Pr, Pn, Pd`: quotient to `P[rd]`, remainder to `P[rc]`, written together (R102). The decoder passes only
`rd != rc`; `rd = rc` is illegal (R62, log 13). -/
def execPdiv (rd rc ra rb : PReg) (s : State) : Outcome :=
  runCommand s <|
    if rd = rc then .error .illegal
    else
      match polyDiv (s.readP ra) (s.readP rb) with
      | .error f => .error f
      | .ok (q, r) => silent ((s.writeP rd q).writeP rc r)

/-- `PMOD Pd, Pa, Pb` (R103). -/
def execPmod (rd ra rb : PReg) (s : State) : Outcome :=
  runCommand s (resultP s rd (polyMod (s.readP ra) (s.readP rb)))

/-- `PEXP Pd, Pa, Pb, Pc`: base `P[ra]`, exponent `P[rb]`, modulus `P[rc]`; the exponent is not reduced (R104). -/
def execPexp (rd ra rb rc : PReg) (s : State) : Outcome :=
  runCommand s (resultP s rd (polyExp (s.readP ra) (s.readP rb) (s.readP rc)))

/-- `PDEG Pd, Pa` (R105). -/
def execPdeg (rd ra : PReg) (s : State) : Outcome :=
  runCommand s (silent (s.writeP rd (BitVec.ofNat 64 (degree (s.readP ra)))))

/-- `PFORD Pd, Pa` (R125). -/
def execPford (rd ra : PReg) (s : State) : Outcome :=
  runCommand s (silent (s.writeP rd (BitVec.ofNat 64 (fieldOrder (s.readP ra)))))

end Sys2Proof.Machine
end

