-- ==== Sys2Proof/Machine/System.lean ====
section
/-! DEFINITION. The system and data-movement commands (spec/40_system_commands.md R75 to R81). -/

namespace Sys2Proof.Machine

/-- `NOP` (R75). -/
def execNop (s : State) : Outcome := runCommand s (silent s)

/-- `LDI Pd, #v`: `P[rd] <- cmd_data` (R76). -/
def execLdi (rd : PReg) (s : State) : Outcome := runCommand s (silent (s.writeP rd s.dataOperand))

/-- `MOV Pd, Pa`: `P[rd] <- P[ra]` (R77). -/
def execMov (rd ra : PReg) (s : State) : Outcome := runCommand s (silent (s.writeP rd (s.readP ra)))

/-- `RD Pa`: `respond(P[ra])` (R78). -/
def execRd (ra : PReg) (s : State) : Outcome := runCommand s (.ok (s, s.readP ra))

/-- `LDC Pd, #k`: `P[rd] <- IRRED[k]` (R79). The decoder passes only `k` in 2..32; any other `k` is illegal (R62, log 13). -/
def execLdc (rd : PReg) (k : BitVec 6) (s : State) : Outcome :=
  runCommand s (if 2 ≤ k.toNat ∧ k.toNat ≤ 32 then silent (s.writeP rd (catalogueEntry k.toNat)) else .error .illegal)

/-- `RDST`: `respond(zext_64(STATUS))` (R80). -/
def execRdst (s : State) : Outcome := runCommand s (.ok (s, s.statusWord.setWidth 64))

/-- `CLRF`: the six sticky flags to 0 (R81). -/
def execClrf (s : State) : Outcome := runCommand s (silent s.clearSticky)

end Sys2Proof.Machine
end

