-- ==== Sys2Proof/Machine/Dispatch.lean ====
section
/-! DEFINITION. One arm per command of the opcode map (spec/30_encoding.md R60, spec/60_exceptions.md R201). -/

namespace Sys2Proof.Machine

def exec (i : Instr) (s : State) : Host.Outcome State Fault Refusal :=
  match i with
  | .nop => Sys2Proof.Machine.execNop s
  | .ldi rd => Sys2Proof.Machine.execLdi rd s
  | .mov rd ra => Sys2Proof.Machine.execMov rd ra s
  | .rdp ra => Sys2Proof.Machine.execRd ra s
  | .ldc rd k => Sys2Proof.Machine.execLdc rd k s
  | .rdst => Sys2Proof.Machine.execRdst s
  | .clrf => Sys2Proof.Machine.execClrf s
  | .padd rd ra rb => Sys2Proof.Machine.execPadd rd ra rb s
  | .pmul rd ra rb => Sys2Proof.Machine.execPmul rd ra rb s
  | .pdiv rd rc ra rb => Sys2Proof.Machine.execPdiv rd rc ra rb s
  | .pmod rd ra rb => Sys2Proof.Machine.execPmod rd ra rb s
  | .pexp rd ra rb rc => Sys2Proof.Machine.execPexp rd ra rb rc s
  | .pdeg rd ra => Sys2Proof.Machine.execPdeg rd ra s
  | .pford rd ra => Sys2Proof.Machine.execPford rd ra s
  | .fcfg ra wc => Sys2Proof.Machine.execFcfg ra wc s
  | .ford rd => Sys2Proof.Machine.execFord rd s
  | .fgen rd ra => Sys2Proof.Machine.execFgen rd ra s
  | .fadd rd ra rb => Sys2Proof.Machine.execFadd rd ra rb s
  | .fmul rd ra rb => Sys2Proof.Machine.execFmul rd ra rb s
  | .finv rd ra => Sys2Proof.Machine.execFinv rd ra s
  | .fdiv rd ra rb => Sys2Proof.Machine.execFdiv rd ra rb s
  | .fexp rd ra rb => Sys2Proof.Machine.execFexp rd ra rb s
  | .faddv rd mask => Sys2Proof.Machine.execFaddv rd mask s
  | .fmulv rd mask => Sys2Proof.Machine.execFmulv rd mask s
  | .fgetm rd => Sys2Proof.Machine.execFgetm rd s
  | .emk rd ra rb => Sys2Proof.Machine.execEmk rd ra rb s
  | .egen rd ra rb => Sys2Proof.Machine.execEgen rd ra rb s
  | .eget rd ra => Sys2Proof.Machine.execEget rd ra s
  | .egetm rd ra => Sys2Proof.Machine.execEgetm rd ra s
  | .emul rd ra rb => Sys2Proof.Machine.execEmul rd ra rb s
  | .ediv rd ra rb => Sys2Proof.Machine.execEdiv rd ra rb s
  | .einv rd ra => Sys2Proof.Machine.execEinv rd ra s
  | .eexp rd ra rb => Sys2Proof.Machine.execEexp rd ra rb s
  | .eeq ra rb => Sys2Proof.Machine.execEeq ra rb s
  | .eisz ra => Sys2Proof.Machine.execEisz ra s
  | .eis1 ra => Sys2Proof.Machine.execEis1 ra s

end Sys2Proof.Machine
end

