-- ==== Sys2Proof/Machine/Step.lean ====
section
/-! DEFINITION. One step of the block: the input wires as the host drives them, at most one command, its response
(spec/60_exceptions.md R201, spec/10_state.md R33). A step is untimed: `LATENCY` is no part of it (R237, log 2). -/

namespace Sys2Proof.Machine

/-- One accepted command (R201): the word decoded and executed, or illegal. -/
def acceptCommand (s : State) : Outcome :=
  match s.fetch with
  | .ok i => exec i s
  | .error _ => illegalCommand s

/-- One step: `rst`, else the presented command, else nothing; then the host drives the next levels. -/
def step (s : State) : Host.Outcome State Fault Refusal :=
  if s.inputs.rst then advance (.next s.applyReset)
  else if s.inputs.cmdValid then advance (acceptCommand s)
  else advance (.next s.idleStep)

/-- `s` with the row's bits presented on the command port, where the next step takes its command from (R49, R55); the data word
stays what the host drives (log 1). -/
def State.withFetchWord (s : State) (nbits w : Nat) : State :=
  { s with inputs := { s.inputs with rst := false, cmdValid := true, cmdWord := BitVec.ofNat 32 (w % 2 ^ nbits) } }

end Sys2Proof.Machine
end

