-- ==== Sys2Proof/Safety.lean ====
section
/-! DEFINITION. The terms claims are stated in: what a safe run is, the invariants of reachable states, the contract of the
document (irreducible moduli, reduced operands), the tables of destinations and causes, and polynomials as Mathlib has them. -/

namespace Sys2Proof.Safety

open Sys2Proof.Machine

/-- A state in which commands execute: "a halted state [is] a faulted state that is never a legal final state of a program"
(R207). -/
def Running (s : State) : Prop := s.halt = false

/-- Every state of the first `n` steps from `s` is running (R207). -/
def RunsSafely (n : Nat) (s : State) : Prop :=
  ∀ k, k ≤ n → ∃ t, Sys2Proof.core.run k s = .next t ∧ Running t

/-- `val` is reduced: 0 or of degree below the modulus's (R23). -/
def ElementReduced (x : Element) : Prop := x.val = 0#64 ∨ degree x.val < degree x.mod

/-- Every E register is reduced (R23); it holds at reset and in every element of modulus 1, whose value is 0. -/
def ElementsReduced (s : State) : Prop := ∀ i : EReg, ElementReduced (s.readE i)

/-- The field configuration is as construction leaves it: `Degree(MOD) <= W` (R133), and `MOD` and `WID` still 0 while no Field
has been constructed (R24, R36). -/
def FieldCoherent (s : State) : Prop :=
  degree s.mod ≤ s.width ∧ (s.cfgv = false → s.mod = 0#64 ∧ s.wid = 0#2)

/-- "has no nontrivial polynomial factors over GF(2)" (R10), by trial division. -/
def IrreduciblePoly (m : Poly) : Prop :=
  1 ≤ degree m ∧ ∀ a : Poly, 1 ≤ degree a → degree a < degree m → polyMod m a ≠ .ok 0#64

/-- The generator 2 is primitive modulo `m`: the least `j > 0` with `Exp(2, j, m) = 1` is `2^Degree(m) - 1` (R123 c). -/
def PrimitiveTwo (m : Poly) : Prop :=
  polyExp 2#64 (BitVec.ofNat 64 (fieldOrder m)) m = .ok 1#64 ∧
    ∀ j, 0 < j → j < fieldOrder m → polyExp 2#64 (BitVec.ofNat 64 j) m ≠ .ok 1#64

/-- What R123 asks of every instance of the catalogue, clauses a to d; `Machine.catalogueEntry` is built to have it (log 6). -/
def CatalogueAdmissible : Prop :=
  (∀ k, 2 ≤ k → k ≤ 32 →
    degree (catalogueEntry k) = k ∧ IrreduciblePoly (catalogueEntry k) ∧ PrimitiveTwo (catalogueEntry k)) ∧
  catalogueEntry 16 = 0x1100B#64

/-- The hypothesis under which a claim may use the default table of R124 (log 7). -/
def UsesDefaultCatalogue : Prop :=
  ∀ k, 2 ≤ k → k ≤ 32 → Config.defaultCatalogue[k - 2]? = some (catalogueEntry k)

/-- A running block whose Field is `(m, W)`, `W = 8 << wc` (R24, R25, R132). -/
def InField (m : Poly) (wc : BitVec 2) (s : State) : Prop :=
  s.halt = false ∧ s.cfgv = true ∧ s.mod = m ∧ s.wid = wc

/-- `F(a) = v` in the notation of R150 for a Field command with one source: in the Field `(m, W)`, with `a` in its source
register, it answers OK, writes `v` to its destination and changes nothing else. -/
def Gives1 (m : Poly) (wc : BitVec 2) (op : PReg → PReg → Instr) (a v : Poly) : Prop :=
  ∀ (s : State) (rd ra : PReg), InField m wc s → s.readP ra = a →
    Machine.exec (op rd ra) s = .next ((s.writeP rd v).respond .ok 0#64)

/-- `F(a, b) = v` in the notation of R150 for a Field command with two sources. -/
def Gives2 (m : Poly) (wc : BitVec 2) (op : PReg → PReg → PReg → Instr) (a b v : Poly) : Prop :=
  ∀ (s : State) (rd ra rb : PReg), InField m wc s → s.readP ra = a → s.readP rb = b →
    Machine.exec (op rd ra rb) s = .next ((s.writeP rd v).respond .ok 0#64)

/-- R150 (a), (c), (e) and (f), with the associative and commutative laws of the product (R98): the Field commands on values
below `2^d`, `d = Degree(m)`. That the exponent `2^d - 1` counts as 0 is R135 (log 11). -/
def RingProperties (m : Poly) (wc : BitVec 2) : Prop :=
  (∀ a : Poly, a.toNat < 2 ^ degree m →
    Gives2 m wc .fadd a 0#64 a ∧ Gives2 m wc .fadd a a 0#64 ∧
    Gives2 m wc .fmul a 1#64 a ∧ Gives2 m wc .fmul a 0#64 0#64 ∧ Gives2 m wc .fexp a 0#64 1#64 ∧
    ∀ e : BitVec 64, ∃ v, v.toNat < 2 ^ degree m ∧ Gives2 m wc .fexp a e v) ∧
  (∀ a b c : Poly, a.toNat < 2 ^ degree m → b.toNat < 2 ^ degree m → c.toNat < 2 ^ degree m →
    ∃ sum ab ac bc asum abc : Poly,
      sum.toNat < 2 ^ degree m ∧ ab.toNat < 2 ^ degree m ∧ asum.toNat < 2 ^ degree m ∧ abc.toNat < 2 ^ degree m ∧
      Gives2 m wc .fadd b c sum ∧ Gives2 m wc .fmul a b ab ∧ Gives2 m wc .fmul a c ac ∧ Gives2 m wc .fmul b c bc ∧
      Gives2 m wc .fmul a sum asum ∧ Gives2 m wc .fadd ab ac asum ∧
      Gives2 m wc .fmul b a ab ∧ Gives2 m wc .fmul ab c abc ∧ Gives2 m wc .fmul a bc abc) ∧
  Gives2 m wc .fexp 2#64 (BitVec.ofNat 64 (2 ^ degree m - 1)) 1#64 ∧
  Gives1 m wc .fgen 0#64 1#64 ∧ Gives1 m wc .fgen (BitVec.ofNat 64 (2 ^ degree m - 1)) 1#64 ∧
  (∀ e : BitVec 64, ∃ v, v.toNat < 2 ^ degree m ∧ Gives1 m wc .fgen e v)

/-- R150 (b) and (d), with (f) for their results: inverse and division on values below `2^d`. -/
def DivisionProperties (m : Poly) (wc : BitVec 2) : Prop :=
  ∀ a b : Poly, a.toNat < 2 ^ degree m → b.toNat < 2 ^ degree m → b ≠ 0#64 →
    (∃ i, i.toNat < 2 ^ degree m ∧ Gives1 m wc .finv b i ∧ Gives2 m wc .fmul b i 1#64) ∧
    (∃ x, x.toNat < 2 ^ degree m ∧ Gives2 m wc .fmul a b x ∧ Gives2 m wc .fdiv x b a) ∧
    (∃ q, q.toNat < 2 ^ degree m ∧ Gives2 m wc .fdiv a b q ∧ Gives2 m wc .fmul q b a)

/-- R150 (g), that is R139 on `FGEN`: the exponents `0 .. 2^d - 2` give every nonzero value below `2^d` exactly once. -/
def GeneratorProperties (m : Poly) (wc : BitVec 2) : Prop :=
  ∃ f : Nat → Poly,
    (∀ e, e < 2 ^ degree m - 1 →
      Gives1 m wc .fgen (BitVec.ofNat 64 e) (f e) ∧ f e ≠ 0#64 ∧ (f e).toNat < 2 ^ degree m) ∧
    (∀ e e', e < 2 ^ degree m - 1 → e' < 2 ^ degree m - 1 → f e = f e' → e = e') ∧
    (∀ v : Poly, v ≠ 0#64 → v.toNat < 2 ^ degree m → ∃ e, e < 2 ^ degree m - 1 ∧ f e = v)

/-- `g` is a nontrivial common factor of `a` and `b`: their greatest common divisor is not 1 (R161). -/
def CommonFactor (g a b : Poly) : Prop :=
  1 ≤ degree g ∧ polyMod a g = .ok 0#64 ∧ polyMod b g = .ok 0#64

/-- The polynomial over GF(2) that the 64 bits stand for (R6). -/
noncomputable def asPolynomial (v : Poly) : Polynomial (ZMod 2) :=
  ∑ i ∈ Finset.range 64, if v.getLsbD i then (Polynomial.X : Polynomial (ZMod 2)) ^ i else 0

/-- A register field at its place in the word, as the Encoding clauses of the command rules write it: `r << n`. -/
def regAt (r : BitVec 3) (n : Nat) : CmdWord := r.setWidth 32 <<< n

/-- The 36 rows of R60: `op` and the mask of the row's format (R56). -/
def opcodeMap : List (BitVec 8 × CmdWord) :=
  [(0x00#8, 0xFFFFFFFF#32), (0x01#8, 0xFF1FFFFF#32), (0x02#8, 0xFF03FFFF#32), (0x03#8, 0xFFE3FFFF#32)] ++
  [(0x04#8, 0xFF1FFFC0#32), (0x05#8, 0xFFFFFFFF#32), (0x06#8, 0xFFFFFFFF#32)] ++
  [(0x10#8, 0xFF007FFF#32), (0x11#8, 0xFF007FFF#32), (0x12#8, 0xFF000FFF#32), (0x13#8, 0xFF007FFF#32)] ++
  [(0x14#8, 0xFF000FFF#32), (0x15#8, 0xFF03FFFF#32), (0x16#8, 0xFF03FFFF#32)] ++
  [(0x20#8, 0xFFE3FFFC#32), (0x21#8, 0xFF1FFFFF#32), (0x22#8, 0xFF03FFFF#32), (0x23#8, 0xFF007FFF#32)] ++
  [(0x24#8, 0xFF007FFF#32), (0x25#8, 0xFF03FFFF#32), (0x26#8, 0xFF007FFF#32), (0x27#8, 0xFF007FFF#32)] ++
  [(0x28#8, 0xFF1FFF00#32), (0x29#8, 0xFF1FFF00#32), (0x2A#8, 0xFF1FFFFF#32)] ++
  [(0x30#8, 0xFF007FFF#32), (0x31#8, 0xFF007FFF#32), (0x32#8, 0xFF03FFFF#32), (0x33#8, 0xFF03FFFF#32)] ++
  [(0x34#8, 0xFF007FFF#32), (0x35#8, 0xFF007FFF#32), (0x36#8, 0xFF03FFFF#32), (0x37#8, 0xFF007FFF#32)] ++
  [(0x38#8, 0xFFE07FFF#32), (0x39#8, 0xFFE3FFFF#32), (0x3A#8, 0xFFE3FFFF#32)]

/-- The P registers a command may write (the destinations of R60). -/
def destP : Instr → List PReg
  | .ldi rd | .mov rd _ | .ldc rd _ => [rd]
  | .padd rd _ _ | .pmul rd _ _ | .pmod rd _ _ | .pexp rd _ _ _ | .pdeg rd _ | .pford rd _ => [rd]
  | .pdiv rd rc _ _ => [rd, rc]
  | .ford rd | .fgen rd _ | .fadd rd _ _ | .fmul rd _ _ | .finv rd _ | .fdiv rd _ _ | .fexp rd _ _ => [rd]
  | .faddv rd _ | .fmulv rd _ | .fgetm rd => [rd]
  | .eget rd _ | .egetm rd _ => [rd]
  | .nop | .rdp _ | .rdst | .clrf | .fcfg _ _ => []
  | .emk .. | .egen .. | .emul .. | .ediv .. | .einv .. | .eexp .. | .eeq .. | .eisz _ | .eis1 _ => []

/-- The E registers a command may write: only `EMK`, `EGEN`, `EMUL`, `EDIV`, `EINV`, `EEXP` write one (R22). -/
def destE : Instr → List EReg
  | .emk rd _ _ | .egen rd _ _ | .emul rd _ _ | .ediv rd _ _ | .einv rd _ | .eexp rd _ _ => [rd]
  | _ => []

/-- The commands that write `T` (R29). -/
def writesT : Instr → Bool
  | .eeq .. | .eisz _ | .eis1 _ => true
  | _ => false

/-- The commands that invert, the only ones that can answer `INVARIANT` (R206). -/
def inverts : Instr → Bool
  | .finv .. | .fdiv .. | .einv .. | .ediv .. => true
  | _ => false

/-- The Field commands that need a constructed Field (R132). -/
def needsField : Instr → Bool
  | .ford _ | .fgetm _ | .fgen .. | .fadd .. | .faddv .. | .fmul .. | .fmulv .. | .finv .. | .fdiv .. | .fexp .. => true
  | _ => false

/-- The failing codes of the command's row in the table of R202. -/
def causes : Instr → List ResultCode
  | .nop | .ldi _ | .mov .. | .rdp _ | .ldc .. | .rdst | .clrf => []
  | .padd .. | .pdeg .. | .pford .. => []
  | .pmul .. => [.overflow]
  | .pdiv .. | .pmod .. => [.domain]
  | .pexp .. => [.overflow]
  | .fcfg .. => [.construction]
  | .ford _ | .fgetm _ | .fadd .. | .faddv .. => [.noField]
  | .fmul .. | .fmulv .. | .fgen .. | .fexp .. => [.noField, .domain, .overflow]
  | .finv .. | .fdiv .. => [.noField, .domain, .overflow, .invariant]
  | .emk .. => [.domain]
  | .egen .. | .eexp .. => [.domain, .overflow]
  | .eget .. | .egetm .. | .eeq .. | .eisz _ | .eis1 _ => []
  | .emul .. => [.xdomain, .domain, .overflow]
  | .einv .. => [.domain, .overflow, .invariant]
  | .ediv .. => [.xdomain, .domain, .overflow, .invariant]

/-- What the host drives at the step after this one: the next levels it has, or nothing presented (log 4). -/
def nextLevels (s : State) : PortInputs := s.upcoming.headD { s.inputs with rst := false, cmdValid := false }

end Sys2Proof.Safety
end

