-- ==== Sys2Proof/Certificates/Slice0/Obligations.lean ====
section
/-! DEFINITION. The statements for the provers: encoding, the step, failures and frames, invariants, then every family of the
opcode map. Each docstring names the rules of spec/ the statement formalises. -/

open Sys2Proof Sys2Proof.Machine Sys2Proof.Safety

/-- Words of section 2 of spec/95_test_vectors.md, one or two of each family. -/
def Obligations.DecodesTheWordsOfEveryFamily : Prop :=
  decode 0x02540000#32 = .ok (.mov 2#3 5#3) ∧
  decode 0x04E00020#32 = .ok (.ldc 7#3 32#6) ∧
  decode 0x1240B000#32 = .ok (.pdiv 2#3 3#3 0#3 1#3) ∧
  decode 0x1460A000#32 = .ok (.pexp 3#3 0#3 1#3 2#3) ∧
  decode 0x201C0003#32 = .ok (.fcfg 7#3 3#2) ∧
  decode 0x26680000#32 = .ok (.fdiv 3#3 2#3 0#3) ∧
  decode 0x29800024#32 = .ok (.fmulv 4#3 0x24#8) ∧
  decode 0x37A20000#32 = .ok (.eexp 5#3 0#3 4#3) ∧
  decode 0x380C8000#32 = .ok (.eeq 3#3 1#3) ∧
  decode 0x3B000000#32 = .error (.unassignedOpcode 0x3B#8) ∧
  decode 0x10408001#32 = .error (.mustBeZero 0x10#8) ∧
  decode 0x04E00021#32 = .error (.operands .catalogueDegree) ∧
  decode 0x1240A000#32 = .error (.operands .sameDestination)

/-- No bit of an encoding is dropped (R55, R60, R61). -/
def Obligations.DecodeOfEncodeIsTheCommand : Prop :=
  ∀ i : Instr, i.wf = true → decode (encode i) = .ok i

/-- The other direction: a legal word is the one word of its command (R61, R64). -/
def Obligations.EncodeOfDecodeIsTheWord : Prop :=
  ∀ (w : CmdWord) (i : Instr), decode w = .ok i → i.wf = true ∧ encode i = w

/-- The test of R61 against the table of R60, written out in `opcodeMap` apart from the decoder. -/
def Obligations.LegalWordsAreExactlyTheOpcodeMap : Prop :=
  ∀ w : CmdWord, (∃ i, decode w = .ok i) ↔
    ∃ row ∈ opcodeMap, w &&& row.2 = row.1.setWidth 32 <<< 24 ∧
      (row.1 = 0x04#8 → 2 ≤ (w &&& 0x3F#32).toNat ∧ (w &&& 0x3F#32).toNat ≤ 32) ∧
      (row.1 = 0x12#8 → (w >>> 21) &&& 7#32 ≠ (w >>> 12) &&& 7#32)

/-- One command executed per accepted word (R201). What `step` adds around `exec`, the input side moving on to `nextLevels s`, is the
model's choice (log 1, log 4). -/
def Obligations.StepRunsTheDecodedCommand : Prop :=
  ∀ (s : State) (i : Instr), s.inputs.rst = false → s.inputs.cmdValid = true → decode s.inputs.cmdWord = .ok i →
    ∃ t, Sys2Proof.Machine.exec i s = .next t ∧
      Sys2Proof.Machine.step s = .next { t with inputs := nextLevels s, upcoming := s.upcoming.tail }

/-- The behaviour of an illegal word (R62, R207). The model's choices: the input side moving on to `nextLevels s` (log 1, log 4), and
what `exec` answers on an ill-formed term (log 13). -/
def Obligations.IllegalWordSetsOnlyFL : Prop :=
  (∀ (s : State) (x : Illegal), s.inputs.rst = false → s.inputs.cmdValid = true → decode s.inputs.cmdWord = .error x →
    (s.halt = false → Sys2Proof.Machine.step s = .next
      { s with fl := true, rsp := some { status := .illegal, data := 0#64 }, inputs := nextLevels s,
               upcoming := s.upcoming.tail }) ∧
    (s.halt = true → Sys2Proof.Machine.step s = .next
      { s with rsp := some { status := .halted, data := 0#64 }, inputs := nextLevels s, upcoming := s.upcoming.tail })) ∧
  (∀ (i : Instr) (s : State), i.wf = false → s.halt = false →
    Sys2Proof.Machine.exec i s = .next { s with fl := true, rsp := some { status := .illegal, data := 0#64 } })

/-- The halt state (R207). The response and input ports are the only fields a step may change. -/
def Obligations.HaltStateAnswersHaltedToEverything : Prop :=
  ∀ s : State, s.halt = true →
    (∀ i : Instr, Sys2Proof.Machine.exec i s = .next { s with rsp := some { status := .halted, data := 0#64 } }) ∧
    (s.inputs.rst = false → s.inputs.cmdValid = true → ∃ t, Sys2Proof.Machine.step s = .next t ∧
      t = { s with rsp := some { status := .halted, data := 0#64 }, inputs := t.inputs, upcoming := t.upcoming }) ∧
    (∀ t, s.inputs.rst = false → Sys2Proof.Machine.step s = .next t →
      t = { s with rsp := t.rsp, inputs := t.inputs, upcoming := t.upcoming })

/-- Reset (R36, R230, R232). That a command presented in the same step is not executed is log 12. -/
def Obligations.ResetClearsEveryBit : Prop :=
  (∀ s : State, s.inputs.rst = true → ∃ t, Sys2Proof.Machine.step s = .next t ∧
    (∀ r, t.readP r = 0#64) ∧ (∀ r, t.readE r = { val := 0#64, mod := 0#64 }) ∧
    t.mod = 0#64 ∧ t.wid = 0#2 ∧ t.cfgv = false ∧
    t.fc = false ∧ t.fd = false ∧ t.fx = false ∧ t.fo = false ∧ t.fl = false ∧ t.fn = false ∧
    t.t = false ∧ t.halt = false ∧ t.rsp = none) ∧
  (∀ s t : State, s.inputs.rst = false → Sys2Proof.Machine.step s = .next t →
    (s.halt = true → t.halt = true) ∧ (s.cfgv = true → t.cfgv = true))

/-- The reset values (R36). -/
def Obligations.ResetStateIsAllZero : Prop :=
  (∀ r, State.reset.readP r = 0#64) ∧ (∀ r, State.reset.readE r = { val := 0#64, mod := 0#64 }) ∧
  State.reset.mod = 0#64 ∧ State.reset.wid = 0#2 ∧ State.reset.cfgv = false ∧
  State.reset.fc = false ∧ State.reset.fd = false ∧ State.reset.fx = false ∧ State.reset.fo = false ∧
  State.reset.fl = false ∧ State.reset.fn = false ∧ State.reset.t = false ∧ State.reset.halt = false ∧
  State.reset.statusWord = 0#32 ∧ State.reset.cmdReady = true ∧ State.reset.rspValid = false ∧
  State.reset.halted = false ∧
  (∀ inp up, inp.cmdValid = false → ∃ t, Sys2Proof.Machine.step { State.reset with inputs := inp, upcoming := up } = .next t ∧
    t = { State.reset with inputs := t.inputs, upcoming := t.upcoming })

/-- One response per accepted command (R33). The model's choices: no response to a command presented under `rst` (log 12, after R232),
the response ending at the next step (log 5), the input side moving on to `nextLevels s` (log 1, log 4). -/
def Obligations.ResponseFollowsAcceptance : Prop :=
  ∀ s : State, ∃ t, Sys2Proof.Machine.step s = .next t ∧
    t.rsp.isSome = (!s.inputs.rst && s.inputs.cmdValid) ∧
    t.inputs = nextLevels s ∧ t.upcoming = s.upcoming.tail ∧
    (s.inputs.rst = false → s.inputs.cmdValid = false →
      t = { s with rsp := none, inputs := t.inputs, upcoming := t.upcoming })

/-- The table of R202, in `causes` (its entries marked dead or unreachable are kept as allowed). -/
def Obligations.CommandsEndOnlyWithTheirListedCauses : Prop :=
  ∀ (i : Instr) (s : State), i.wf = true →
    ∃ t c d, Sys2Proof.Machine.exec i s = .next t ∧ t.rsp = some { status := c, data := d } ∧
      (s.halt = true → c = .halted) ∧ (s.halt = false → c = .ok ∨ c ∈ causes i)

/-- What a failure does (R205) and the fatal one (R206); `halt` is 0 before it, since a halted block answers HALTED. -/
def Obligations.FailuresSetOneBitAndNothingElse : Prop :=
  ∀ (i : Instr) (s t : State) (c : ResultCode) (d : BitVec 64), Sys2Proof.Machine.exec i s = .next t →
    t.rsp = some { status := c, data := d } → c ≠ .ok → c ≠ .halted →
    d = 0#64 ∧ (c = .invariant → inverts i = true) ∧
    t = { s with
          fc := s.fc || c == .construction, fd := s.fd || c == .domain, fx := s.fx || c == .xdomain,
          fo := s.fo || c == .overflow, fl := s.fl || c == .illegal, fn := s.fn || c == .noField,
          halt := c == .invariant, rsp := some { status := c, data := 0#64 } }

/-- The frame of every command (R20, R22, R24, R28, R29). When the answer is not OK, FailuresSetOneBitAndNothingElse says more. -/
def Obligations.FrameOfEveryCommand : Prop :=
  ∀ (i : Instr) (s t : State), Sys2Proof.Machine.exec i s = .next t →
    (∀ r, r ∉ destP i → t.readP r = s.readP r) ∧
    (∀ r, r ∉ destE i → t.readE r = s.readE r) ∧
    ((∀ ra wc, i ≠ .fcfg ra wc) → t.mod = s.mod ∧ t.wid = s.wid ∧ t.cfgv = s.cfgv) ∧
    (writesT i = false → t.t = s.t) ∧
    t.inputs = s.inputs ∧ t.upcoming = s.upcoming ∧
    (∀ d, t.rsp = some { status := .ok, data := d } →
      t.halt = s.halt ∧
      (i ≠ .clrf → t.fc = s.fc ∧ t.fd = s.fd ∧ t.fx = s.fx ∧ t.fo = s.fo ∧ t.fl = s.fl ∧ t.fn = s.fn))

/-- "stays 1 until `CLRF` ... or reset clears it" (R28). -/
def Obligations.StickyFlagsStayUntilClrfOrReset : Prop :=
  ∀ s t : State, Sys2Proof.Machine.step s = .next t → s.inputs.rst = false →
    (s.inputs.cmdValid = false ∨ s.inputs.cmdWord ≠ 0x06000000#32) →
    (s.fc = true → t.fc = true) ∧ (s.fd = true → t.fd = true) ∧ (s.fx = true → t.fx = true) ∧
    (s.fo = true → t.fo = true) ∧ (s.fl = true → t.fl = true) ∧ (s.fn = true → t.fn = true)

/-- The only way into the halt state (R30, R206). -/
def Obligations.HaltOnlyAfterInvariant : Prop :=
  ∀ s t : State, Sys2Proof.Machine.step s = .next t → s.halt = false → t.halt = true →
    t.rsp = some { status := .invariant, data := 0#64 } ∧
    ∃ i, decode s.inputs.cmdWord = .ok i ∧ inverts i = true

/-- The response data (R34). -/
def Obligations.ResponseDataRule : Prop :=
  ∀ (i : Instr) (s t : State) (c : ResultCode) (d : BitVec 64), Sys2Proof.Machine.exec i s = .next t →
    t.rsp = some { status := c, data := d } →
    d = if c = .ok then
          match i with
          | .rdp ra => s.readP ra
          | .rdst => s.statusWord.setWidth 64
          | .eeq _ _ | .eisz _ | .eis1 _ => if t.t then 1#64 else 0#64
          | _ => 0#64
        else 0#64

/-- The base of the two invariants (R36). -/
def Obligations.InvariantsHoldAtReset : Prop :=
  ElementsReduced State.reset ∧ FieldCoherent State.reset

/-- The invariant of R23 from any state that has it. -/
def Obligations.StepKeepsElementsReduced : Prop :=
  ∀ s t : State, ElementsReduced s → Sys2Proof.Machine.step s = .next t → ElementsReduced t

/-- The field configuration is only ever what a construction left (R24, R133). -/
def Obligations.StepKeepsFieldCoherent : Prop :=
  ∀ s t : State, FieldCoherent s → Sys2Proof.Machine.step s = .next t → FieldCoherent t

/-- "The flags are not read by any command other than `RDST`" (R28, R29). -/
def Obligations.StickyFlagsInfluenceOnlyRdst : Prop :=
  ∀ (i : Instr) (s u : State) (fc fd fx fo fl fn b : Bool), i ≠ .rdst → Sys2Proof.Machine.exec i s = .next u →
    ∃ v, Sys2Proof.Machine.exec i { s with fc := fc, fd := fd, fx := fx, fo := fo, fl := fl, fn := fn, t := b } = .next v ∧
      v.p = u.p ∧ v.e = u.e ∧ v.mod = u.mod ∧ v.wid = u.wid ∧ v.cfgv = u.cfgv ∧ v.halt = u.halt ∧ v.rsp = u.rsp

/-- The data word (R59). -/
def Obligations.DataWordIsReadByLdiOnly : Prop :=
  (∀ (rd : PReg) (s : State), s.halt = false →
    ∃ t, Sys2Proof.Machine.exec (.ldi rd) s = .next t ∧ t.readP rd = s.inputs.cmdData) ∧
  (∀ (i : Instr) (s u : State) (d : BitVec 64), (∀ rd, i ≠ .ldi rd) → Sys2Proof.Machine.exec i s = .next u →
    Sys2Proof.Machine.exec i { s with inputs := { s.inputs with cmdData := d } } =
      .next { u with inputs := { u.inputs with cmdData := d } }) ∧
  (∀ (s : State) (d : BitVec 64),
    { s with inputs := { s.inputs with cmdData := d } }.fetch = s.fetch)

/-- R132 ("The P commands, the E commands and the system commands never test `CFGV`") and R170 (a). -/
def Obligations.FieldConfigurationIsReadByFieldCommandsOnly : Prop :=
  ∀ (i : Instr) (s u : State) (m : Poly) (w : BitVec 2) (c : Bool),
    (i.opcode.toNat < 0x20 ∨ 0x30 ≤ i.opcode.toNat) → i ≠ .rdst → Sys2Proof.Machine.exec i s = .next u →
    Sys2Proof.Machine.exec i { s with mod := m, wid := w, cfgv := c } = .next { u with mod := m, wid := w, cfgv := c }

/-- R75, R76, R77. -/
def Obligations.NopLdiMovMoveValues : Prop :=
  ∀ (rd ra : PReg) (s : State), s.halt = false →
    (encode .nop = 0x00000000#32 ∧
      Sys2Proof.Machine.exec .nop s = .next { s with rsp := some { status := .ok, data := 0#64 } }) ∧
    (encode (.ldi rd) = 0x01000000#32 ||| regAt rd 21 ∧
      Sys2Proof.Machine.exec (.ldi rd) s = .next ((s.writeP rd s.inputs.cmdData).respond .ok 0#64)) ∧
    (encode (.mov rd ra) = 0x02000000#32 ||| regAt rd 21 ||| regAt ra 18 ∧
      Sys2Proof.Machine.exec (.mov rd ra) s = .next ((s.writeP rd (s.readP ra)).respond .ok 0#64))

/-- R78, R80 with the layout of R27. -/
def Obligations.RdAndRdstAnswerWithoutChange : Prop :=
  ∀ (ra : PReg) (s : State), s.halt = false →
    (encode (.rdp ra) = 0x03000000#32 ||| regAt ra 18 ∧
      Sys2Proof.Machine.exec (.rdp ra) s = .next { s with rsp := some { status := .ok, data := s.readP ra } }) ∧
    (encode .rdst = 0x05000000#32 ∧
      ∃ w : BitVec 64, Sys2Proof.Machine.exec .rdst s = .next { s with rsp := some { status := .ok, data := w } } ∧
        w.getLsbD 0 = s.fc ∧ w.getLsbD 1 = s.fd ∧ w.getLsbD 2 = s.fx ∧ w.getLsbD 3 = s.fo ∧ w.getLsbD 4 = s.fl ∧
        w.getLsbD 5 = s.fn ∧ w.getLsbD 6 = false ∧ w.getLsbD 7 = false ∧ w.getLsbD 8 = s.t ∧ w.getLsbD 9 = s.cfgv ∧
        w.extractLsb' 10 2 = s.wid ∧ w.extractLsb' 12 52 = 0#52)

/-- R79 with clauses a and d of R123; the entries are otherwise open (log 6), CatalogueIsAdmissible says what all have. -/
def Obligations.LdcLoadsTheCatalogueEntry : Prop :=
  catalogueEntry 16 = 0x1100B#64 ∧
    ∀ (rd : PReg) (k : BitVec 6) (s : State), s.halt = false →
      encode (.ldc rd k) = 0x04000000#32 ||| regAt rd 21 ||| k.setWidth 32 ∧
      (2 ≤ k.toNat → k.toNat ≤ 32 → degree (catalogueEntry k.toNat) = k.toNat ∧
        Sys2Proof.Machine.exec (.ldc rd k) s = .next ((s.writeP rd (catalogueEntry k.toNat)).respond .ok 0#64))

/-- R81. -/
def Obligations.ClrfClearsTheStickyFlags : Prop :=
  encode .clrf = 0x06000000#32 ∧
  (∀ s : State, s.halt = false → Sys2Proof.Machine.exec .clrf s = .next
    { s with fc := false, fd := false, fx := false, fo := false, fl := false, fn := false,
             rsp := some { status := .ok, data := 0#64 } }) ∧
  (∀ s : State, s.halt = true → Sys2Proof.Machine.exec .clrf s = .next { s with rsp := some { status := .halted, data := 0#64 } })

/-- R90. -/
def Obligations.DegreeIsTheHighestSetBit : Prop :=
  degree 0#64 = 0 ∧ degree 1#64 = 0 ∧
  ∀ v : Poly, v ≠ 0#64 →
    degree v ≤ 63 ∧ v.getLsbD (degree v) = true ∧ ∀ j, degree v < j → v.getLsbD j = false

/-- R92, with its fast paths as a consequence. -/
def Obligations.MulIsTheCarrylessConvolution : Prop :=
  ∀ a b : Poly,
    (63 < degree a + degree b → polyMul a b = .error .overflow) ∧
    (degree a + degree b ≤ 63 → ∃ c, polyMul a b = .ok c ∧
      (∀ k, k < 64 → (c.getLsbD k = true ↔
        ((List.range (k + 1)).filter fun i => a.getLsbD i && b.getLsbD (k - i)).length % 2 = 1)) ∧
      (a = 1#64 <<< degree a → c = b <<< degree a) ∧
      (b = 1#64 <<< degree b → c = a <<< degree b))

/-- The laws of R91 and R98. -/
def Obligations.EngineArithmeticLaws : Prop :=
  (∀ a b : Poly, polyAdd a b = a ^^^ b ∧ polyAdd a b = polyAdd b a ∧ polyAdd a 0#64 = a ∧ polyAdd a a = 0#64) ∧
  (∀ a b : Poly, polyMul a b = polyMul b a) ∧
  (∀ a b c x y z : Poly, polyMul a b = .ok x → polyMul x c = .ok y → polyMul b c = .ok z → polyMul a z = .ok y) ∧
  (∀ a b c x y z : Poly, polyMul a b = .ok x → polyMul a c = .ok y → polyMul a (polyAdd b c) = .ok z →
    z = polyAdd x y)

/-- R100, R105, R125. -/
def Obligations.PaddPdegPfordResults : Prop :=
  ∀ (rd ra rb : PReg) (s : State), s.halt = false →
    (encode (.padd rd ra rb) = 0x10000000#32 ||| regAt rd 21 ||| regAt ra 18 ||| regAt rb 15 ∧
      Sys2Proof.Machine.exec (.padd rd ra rb) s = .next ((s.writeP rd (s.readP ra ^^^ s.readP rb)).respond .ok 0#64)) ∧
    (encode (.pdeg rd ra) = 0x15000000#32 ||| regAt rd 21 ||| regAt ra 18 ∧
      ∃ v : Poly, v.toNat = degree (s.readP ra) ∧
        Sys2Proof.Machine.exec (.pdeg rd ra) s = .next ((s.writeP rd v).respond .ok 0#64)) ∧
    (encode (.pford rd ra) = 0x16000000#32 ||| regAt rd 21 ||| regAt ra 18 ∧
      ∃ v : Poly, v.toNat = 2 ^ degree (s.readP ra) - 1 ∧
        Sys2Proof.Machine.exec (.pford rd ra) s = .next ((s.writeP rd v).respond .ok 0#64))

/-- R101. -/
def Obligations.PmulMultipliesOrOverflows : Prop :=
  ∀ (rd ra rb : PReg) (s : State), s.halt = false →
    encode (.pmul rd ra rb) = 0x11000000#32 ||| regAt rd 21 ||| regAt ra 18 ||| regAt rb 15 ∧
    (degree (s.readP ra) + degree (s.readP rb) ≤ 63 → ∃ c, polyMul (s.readP ra) (s.readP rb) = .ok c ∧
      (s.readP ra = 0#64 ∨ s.readP rb = 0#64 → c = 0#64) ∧
      Sys2Proof.Machine.exec (.pmul rd ra rb) s = .next ((s.writeP rd c).respond .ok 0#64)) ∧
    (63 < degree (s.readP ra) + degree (s.readP rb) →
      Sys2Proof.Machine.exec (.pmul rd ra rb) s = .next { s with fo := true, rsp := some { status := .overflow, data := 0#64 } })

/-- R95 (a) to (d); with it the loop has ended within its fuel (R236). -/
def Obligations.DivisionIdentity : Prop :=
  (∀ n : Poly, polyDiv n 0#64 = .error .domain) ∧
  (∀ n d : Poly, d ≠ 0#64 → ∃ q r, polyDiv n d = .ok (q, r)) ∧
  ∀ n d q r : Poly, polyDiv n d = .ok (q, r) →
    (∃ c, polyMul q d = .ok c ∧ c ^^^ r = n) ∧
    (r = 0#64 ∨ degree r < degree d) ∧
    (∀ q' r' c', polyMul q' d = .ok c' → c' ^^^ r' = n → (r' = 0#64 ∨ degree r' < degree d) → q' = q ∧ r' = r) ∧
    (n ≠ 0#64 ∧ degree d ≤ degree n → degree q = degree n - degree d) ∧
    (¬ (n ≠ 0#64 ∧ degree d ≤ degree n) → q = 0#64)

/-- R102, R103. -/
def Obligations.PdivPmodDivideOrFail : Prop :=
  ∀ (rd rc ra rb : PReg) (s : State), s.halt = false →
    encode (.pdiv rd rc ra rb) = 0x12000000#32 ||| regAt rd 21 ||| regAt ra 18 ||| regAt rb 15 ||| regAt rc 12 ∧
    encode (.pmod rd ra rb) = 0x13000000#32 ||| regAt rd 21 ||| regAt ra 18 ||| regAt rb 15 ∧
    (s.readP rb ≠ 0#64 → ∃ q r, polyDiv (s.readP ra) (s.readP rb) = .ok (q, r) ∧
      (rd ≠ rc → Sys2Proof.Machine.exec (.pdiv rd rc ra rb) s = .next (((s.writeP rd q).writeP rc r).respond .ok 0#64)) ∧
      Sys2Proof.Machine.exec (.pmod rd ra rb) s = .next ((s.writeP rd r).respond .ok 0#64)) ∧
    (s.readP rb = 0#64 →
      (rd ≠ rc → Sys2Proof.Machine.exec (.pdiv rd rc ra rb) s =
        .next { s with fd := true, rsp := some { status := .domain, data := 0#64 } }) ∧
      Sys2Proof.Machine.exec (.pmod rd ra rb) s = .next { s with fd := true, rsp := some { status := .domain, data := 0#64 } })

/-- R104. -/
def Obligations.PexpPowersOrOverflows : Prop :=
  ∀ (rd ra rb rc : PReg) (s : State), s.halt = false →
    encode (.pexp rd ra rb rc) = 0x14000000#32 ||| regAt rd 21 ||| regAt ra 18 ||| regAt rb 15 ||| regAt rc 12 ∧
    ((∃ v, polyExp (s.readP ra) (s.readP rb) (s.readP rc) = .ok v) ∨
      polyExp (s.readP ra) (s.readP rb) (s.readP rc) = .error .overflow) ∧
    (∀ v, polyExp (s.readP ra) (s.readP rb) (s.readP rc) = .ok v →
      Sys2Proof.Machine.exec (.pexp rd ra rb rc) s = .next ((s.writeP rd v).respond .ok 0#64)) ∧
    (polyExp (s.readP ra) (s.readP rb) (s.readP rc) = .error .overflow →
      Sys2Proof.Machine.exec (.pexp rd ra rb rc) s = .next { s with fo := true, rsp := some { status := .overflow, data := 0#64 } }) ∧
    (s.readP rb = 0#64 → Sys2Proof.Machine.exec (.pexp rd ra rb rc) s = .next ((s.writeP rd 1#64).respond .ok 0#64))

/-- The refinement of the engine (R6, R90 to R94) to Mathlib polynomials. -/
def Obligations.EngineIsThePolynomialRing : Prop :=
  (∀ a b : Poly, asPolynomial a = asPolynomial b → a = b) ∧
  (∀ v : Poly, (asPolynomial v).natDegree = degree v) ∧
  (∀ a b : Poly, asPolynomial (polyAdd a b) = asPolynomial a + asPolynomial b) ∧
  (∀ a b c : Poly, polyMul a b = .ok c → asPolynomial c = asPolynomial a * asPolynomial b) ∧
  (∀ a b : Poly, polyMul a b = .error .overflow ↔ 63 < (asPolynomial a).natDegree + (asPolynomial b).natDegree) ∧
  (∀ n d q r : Poly, polyDiv n d = .ok (q, r) →
    asPolynomial q = asPolynomial n / asPolynomial d ∧ asPolynomial r = asPolynomial n % asPolynomial d)

/-- The conventions of R96 and R97 (a). -/
def Obligations.ExpIsThePower : Prop :=
  (∀ base m : Poly, polyExp base 0#64 m = .ok 1#64) ∧
  (∀ (base : Poly) (e : BitVec 64) (v : Poly), polyExp base e 0#64 = .ok v →
    asPolynomial v = asPolynomial base ^ e.toNat) ∧
  (∀ (base : Poly) (e : BitVec 64) (m v : Poly), m ≠ 0#64 → e ≠ 0#64 → polyExp base e m = .ok v →
    asPolynomial v = asPolynomial base ^ e.toNat % asPolynomial m)

/-- R97 (c). -/
def Obligations.ExpOfReducedBaseNeverOverflows : Prop :=
  ∀ (base : Poly) (e : BitVec 64) (m : Poly), m ≠ 0#64 → degree m ≤ 32 → (base = 0#64 ∨ degree base < degree m) →
    ∃ v, polyExp base e m = .ok v ∧ (e ≠ 0#64 → v = 0#64 ∨ degree v < degree m)

/-- R97 (b). -/
def Obligations.UnreducedExpOverflowsExactly : Prop :=
  ∀ (base : Poly) (e : BitVec 64), polyExp base e 0#64 = .error .overflow ↔
    (base ≠ 0#64 ∧ base ≠ 1#64 ∧ 63 < degree base * e.toNat)

/-- R133. -/
def Obligations.FcfgConstructsOrFails : Prop :=
  ∀ (ra : PReg) (wc : BitVec 2) (s : State), s.halt = false →
    encode (.fcfg ra wc) = 0x20000000#32 ||| regAt ra 18 ||| wc.setWidth 32 ∧
    (degree (s.readP ra) ≤ 8 * 2 ^ wc.toNat → Sys2Proof.Machine.exec (.fcfg ra wc) s = .next
      { s with mod := s.readP ra, wid := wc, cfgv := true, rsp := some { status := .ok, data := 0#64 } }) ∧
    (8 * 2 ^ wc.toNat < degree (s.readP ra) → Sys2Proof.Machine.exec (.fcfg ra wc) s = .next
      { s with fc := true, rsp := some { status := .construction, data := 0#64 } }) ∧
    (wc = 3#2 → degree (s.readP ra) ≤ 8 * 2 ^ wc.toNat)

/-- R132. -/
def Obligations.NoFieldComesBeforeTheOperands : Prop :=
  (∀ (i : Instr) (s : State), needsField i = true → s.halt = false → s.cfgv = false →
    Sys2Proof.Machine.exec i s = .next { s with fn := true, rsp := some { status := .noField, data := 0#64 } }) ∧
  (∀ (i : Instr) (s t : State) (d : BitVec 64), Sys2Proof.Machine.exec i s = .next t →
    t.rsp = some { status := .noField, data := d } → needsField i = true ∧ s.cfgv = false)

/-- R134, R136. -/
def Obligations.FordFgetmReadTheField : Prop :=
  ∀ (rd : PReg) (s : State), s.halt = false →
    encode (.ford rd) = 0x21000000#32 ||| regAt rd 21 ∧
    encode (.fgetm rd) = 0x2A000000#32 ||| regAt rd 21 ∧
    (s.cfgv = true →
      (∃ v : Poly, v.toNat = 2 ^ degree s.mod ∧
        Sys2Proof.Machine.exec (.ford rd) s = .next ((s.writeP rd v).respond .ok 0#64)) ∧
      Sys2Proof.Machine.exec (.fgetm rd) s = .next ((s.writeP rd s.mod).respond .ok 0#64)) ∧
    (s.cfgv = false →
      Sys2Proof.Machine.exec (.ford rd) s = .next { s with fn := true, rsp := some { status := .noField, data := 0#64 } } ∧
      Sys2Proof.Machine.exec (.fgetm rd) s = .next { s with fn := true, rsp := some { status := .noField, data := 0#64 } })

/-- R140, R141; narrowing is written here as the remainder modulo 2^W (R130). -/
def Obligations.FaddFaddvXorNarrowedOperands : Prop :=
  ∀ (rd ra rb : PReg) (mask : BitVec 8) (s : State), s.halt = false →
    let n : PReg → Poly := fun r => BitVec.ofNat 64 ((s.readP r).toNat % 2 ^ (8 * 2 ^ s.wid.toNat))
    let pick : Nat → Poly := fun i => if mask.getLsbD i then n (BitVec.ofNat 3 i) else 0#64
    encode (.fadd rd ra rb) = 0x23000000#32 ||| regAt rd 21 ||| regAt ra 18 ||| regAt rb 15 ∧
    encode (.faddv rd mask) = 0x28000000#32 ||| regAt rd 21 ||| mask.setWidth 32 ∧
    (s.cfgv = true →
      Sys2Proof.Machine.exec (.fadd rd ra rb) s = .next ((s.writeP rd (n ra ^^^ n rb)).respond .ok 0#64) ∧
      Sys2Proof.Machine.exec (.faddv rd mask) s = .next ((s.writeP rd
        (pick 0 ^^^ pick 1 ^^^ pick 2 ^^^ pick 3 ^^^ pick 4 ^^^ pick 5 ^^^ pick 6 ^^^ pick 7)).respond .ok 0#64)) ∧
    (s.cfgv = false →
      Sys2Proof.Machine.exec (.fadd rd ra rb) s = .next { s with fn := true, rsp := some { status := .noField, data := 0#64 } } ∧
      Sys2Proof.Machine.exec (.faddv rd mask) s = .next { s with fn := true, rsp := some { status := .noField, data := 0#64 } })

/-- R137 as equations; a zero intermediate product gives 0 either way. -/
def Obligations.MulFoldFoldsPairwise : Prop :=
  ∀ m : Poly,
    mulFold [] m = .ok 0#64 ∧
    (∀ ops : List Poly, 0#64 ∈ ops → mulFold ops m = .ok 0#64) ∧
    (∀ a : Poly, mulFold [a] m = .ok a) ∧
    (∀ (a b : Poly) (rest : List Poly), 0#64 ∉ a :: b :: rest →
      (polyMul a b = .error .overflow → mulFold (a :: b :: rest) m = .error .overflow) ∧
      (∀ c, polyMul a b = .ok c → m = 0#64 → mulFold (a :: b :: rest) m = .error .domain) ∧
      (∀ c r, polyMul a b = .ok c → polyMod c m = .ok r → mulFold (a :: b :: rest) m = mulFold (r :: rest) m))

/-- R142, R143. -/
def Obligations.FmulFmulvMultiplyOrFail : Prop :=
  ∀ (rd ra rb : PReg) (mask : BitVec 8) (s : State), s.halt = false →
    let n : PReg → Poly := fun r => narrow (8 * 2 ^ s.wid.toNat) (s.readP r)
    let ops : List Poly := ((List.range 8).filter fun i => mask.getLsbD i).map fun i => n (BitVec.ofNat 3 i)
    encode (.fmul rd ra rb) = 0x24000000#32 ||| regAt rd 21 ||| regAt ra 18 ||| regAt rb 15 ∧
    encode (.fmulv rd mask) = 0x29000000#32 ||| regAt rd 21 ||| mask.setWidth 32 ∧
    (∀ x : Instr × List Poly, x = (.fmul rd ra rb, [n ra, n rb]) ∨ x = (.fmulv rd mask, ops) → s.cfgv = true →
      ((∃ v, mulFold x.2 s.mod = .ok v) ∨ mulFold x.2 s.mod = .error .overflow ∨ mulFold x.2 s.mod = .error .domain) ∧
      (∀ v, mulFold x.2 s.mod = .ok v → Sys2Proof.Machine.exec x.1 s =
        .next ((s.writeP rd (narrow (8 * 2 ^ s.wid.toNat) v)).respond .ok 0#64)) ∧
      (mulFold x.2 s.mod = .error .overflow → Sys2Proof.Machine.exec x.1 s =
        .next { s with fo := true, rsp := some { status := .overflow, data := 0#64 } }) ∧
      (mulFold x.2 s.mod = .error .domain → Sys2Proof.Machine.exec x.1 s =
        .next { s with fd := true, rsp := some { status := .domain, data := 0#64 } })) ∧
    (s.cfgv = true →
      (n ra = 0#64 ∨ n rb = 0#64 → Sys2Proof.Machine.exec (.fmul rd ra rb) s = .next ((s.writeP rd 0#64).respond .ok 0#64)) ∧
      (n ra ≠ 0#64 → n rb ≠ 0#64 → 63 < degree (n ra) + degree (n rb) → Sys2Proof.Machine.exec (.fmul rd ra rb) s =
        .next { s with fo := true, rsp := some { status := .overflow, data := 0#64 } }) ∧
      (n ra ≠ 0#64 → n rb ≠ 0#64 → degree (n ra) + degree (n rb) ≤ 63 → s.mod = 0#64 →
        Sys2Proof.Machine.exec (.fmul rd ra rb) s = .next { s with fd := true, rsp := some { status := .domain, data := 0#64 } }) ∧
      (n ra ≠ 0#64 → n rb ≠ 0#64 → degree (n ra) + degree (n rb) ≤ 63 → s.mod ≠ 0#64 →
        ∃ c r, polyMul (n ra) (n rb) = .ok c ∧ polyMod c s.mod = .ok r ∧ Sys2Proof.Machine.exec (.fmul rd ra rb) s =
          .next ((s.writeP rd (narrow (8 * 2 ^ s.wid.toNat) r)).respond .ok 0#64)) ∧
      (mask = 0#8 → Sys2Proof.Machine.exec (.fmulv rd mask) s = .next ((s.writeP rd 0#64).respond .ok 0#64))) ∧
    (s.cfgv = false →
      Sys2Proof.Machine.exec (.fmul rd ra rb) s = .next { s with fn := true, rsp := some { status := .noField, data := 0#64 } } ∧
      Sys2Proof.Machine.exec (.fmulv rd mask) s = .next { s with fn := true, rsp := some { status := .noField, data := 0#64 } })

/-- R138, R149; the divisor 2^d - 1 is the resolution of C2 (log 11). -/
def Obligations.FgenFexpRaiseToTheReducedExponent : Prop :=
  ∀ (rd ra rb : PReg) (s : State), s.halt = false →
    let N : Nat := 2 ^ degree s.mod - 1
    let W : Nat := 8 * 2 ^ s.wid.toNat
    encode (.fgen rd ra) = 0x22000000#32 ||| regAt rd 21 ||| regAt ra 18 ∧
    encode (.fexp rd ra rb) = 0x27000000#32 ||| regAt rd 21 ||| regAt ra 18 ||| regAt rb 15 ∧
    (∀ (i : Instr) (base : Poly) (x : BitVec 64),
      (i = .fgen rd ra ∧ base = 2#64 ∧ x = s.readP ra) ∨
        (i = .fexp rd ra rb ∧ base = narrow W (s.readP ra) ∧ x = s.readP rb) →
      (s.cfgv = false →
        Sys2Proof.Machine.exec i s = .next { s with fn := true, rsp := some { status := .noField, data := 0#64 } }) ∧
      (s.cfgv = true → N = 0 →
        Sys2Proof.Machine.exec i s = .next { s with fd := true, rsp := some { status := .domain, data := 0#64 } }) ∧
      (s.cfgv = true → N ≠ 0 →
        ((∃ v, polyExp base (BitVec.ofNat 64 (x.toNat % N)) s.mod = .ok v) ∨
          polyExp base (BitVec.ofNat 64 (x.toNat % N)) s.mod = .error .overflow) ∧
        (∀ v, polyExp base (BitVec.ofNat 64 (x.toNat % N)) s.mod = .ok v →
          Sys2Proof.Machine.exec i s = .next ((s.writeP rd (narrow W v)).respond .ok 0#64)) ∧
        (polyExp base (BitVec.ofNat 64 (x.toNat % N)) s.mod = .error .overflow →
          Sys2Proof.Machine.exec i s = .next { s with fo := true, rsp := some { status := .overflow, data := 0#64 } }) ∧
        (x.toNat % N = 0 → Sys2Proof.Machine.exec i s = .next ((s.writeP rd 1#64).respond .ok 0#64))))

/-- R145, R147. -/
def Obligations.FinvFdivInvertOrFail : Prop :=
  ∀ (rd ra rb : PReg) (s : State), s.halt = false →
    let W : Nat := 8 * 2 ^ s.wid.toNat
    let a : Poly := narrow W (s.readP ra)
    let b : Poly := narrow W (s.readP rb)
    let failWith : Failure → State := fun f =>
      { s with fd := s.fd || f == .domain, fo := s.fo || f == .overflow, halt := f == .invariant,
               rsp := some { status := f.code, data := 0#64 } }
    encode (.finv rd ra) = 0x25000000#32 ||| regAt rd 21 ||| regAt ra 18 ∧
    encode (.fdiv rd ra rb) = 0x26000000#32 ||| regAt rd 21 ||| regAt ra 18 ||| regAt rb 15 ∧
    (s.cfgv = false →
      Sys2Proof.Machine.exec (.finv rd ra) s = .next { s with fn := true, rsp := some { status := .noField, data := 0#64 } } ∧
      Sys2Proof.Machine.exec (.fdiv rd ra rb) s = .next { s with fn := true, rsp := some { status := .noField, data := 0#64 } }) ∧
    (s.cfgv = true →
      (a = 0#64 → Sys2Proof.Machine.exec (.finv rd ra) s = .next (failWith .domain)) ∧
      (∀ v, inverse a s.mod = .ok v →
        Sys2Proof.Machine.exec (.finv rd ra) s = .next ((s.writeP rd (narrow W v)).respond .ok 0#64)) ∧
      (∀ f, inverse a s.mod = .error f →
        (f = .domain ∨ f = .overflow ∨ f = .invariant) ∧ Sys2Proof.Machine.exec (.finv rd ra) s = .next (failWith f)) ∧
      (b = 0#64 → Sys2Proof.Machine.exec (.fdiv rd ra rb) s = .next (failWith .domain)) ∧
      (∀ f, inverse b s.mod = .error f →
        (f = .domain ∨ f = .overflow ∨ f = .invariant) ∧ Sys2Proof.Machine.exec (.fdiv rd ra rb) s = .next (failWith f)) ∧
      (∀ i, inverse b s.mod = .ok i →
        (∀ v, mulFold [a, i] s.mod = .ok v →
          Sys2Proof.Machine.exec (.fdiv rd ra rb) s = .next ((s.writeP rd (narrow W v)).respond .ok 0#64)) ∧
        (∀ f, mulFold [a, i] s.mod = .error f →
          (f = .domain ∨ f = .overflow) ∧ Sys2Proof.Machine.exec (.fdiv rd ra rb) s = .next (failWith f)) ∧
        (a = 0#64 → Sys2Proof.Machine.exec (.fdiv rd ra rb) s = .next ((s.writeP rd 0#64).respond .ok 0#64))))

/-- R165. -/
def Obligations.InverseIsTheInverse : Prop :=
  ∀ y m : Poly, IrreduciblePoly m → y ≠ 0#64 → degree y < degree m →
    ∃ t, inverse y m = .ok t ∧ t ≠ 0#64 ∧ degree t < degree m ∧
      (asPolynomial y * asPolynomial t) % asPolynomial m = 1 % asPolynomial m ∧
      (degree m ≤ 32 → ∃ c, polyMul y t = .ok c ∧ polyMod c m = .ok 1#64)

/-- R160, R161 and the dead branch of R162. -/
def Obligations.InverseFailsExactlyOnCommonFactors : Prop :=
  ∀ y m : Poly,
    (inverse y m = .error .domain ↔ y = 0#64) ∧
    (y ≠ 0#64 → (inverse y m = .error .invariant ↔ ∃ g, CommonFactor g y m)) ∧
    (∀ f, inverse y m = .error f → f = .domain ∨ f = .invariant)

/-- R163. -/
def Obligations.InverseLoopEndsWithinItsBound : Prop :=
  ∀ y m : Poly, y ≠ 0#64 →
    (∃ x, euclidLoop 65 (euclidStart y m) = .ok x ∧ x.newr = 0#64) ∧
    (degree y < degree m → ∃ x, euclidLoop (degree m) (euclidStart y m) = .ok x ∧ x.newr = 0#64 ∧
      euclidLoop 65 (euclidStart y m) = .ok x)

/-- R150 (a), (c), (e), (f), on the unit functions and on the commands (`RingProperties`). That the exponent 2^d - 1 gives 1 for every
base, 0 included, rests on C2 (log 11). -/
def Obligations.FieldLaws : Prop :=
  ∀ m : Poly, 1 ≤ degree m → degree m ≤ 32 →
    (∀ a b c : Poly, a.toNat < 2 ^ degree m → b.toNat < 2 ^ degree m → c.toNat < 2 ^ degree m →
      (∃ ab ac asum bc abc : Poly,
        mulFold [a, b] m = .ok ab ∧ mulFold [a, c] m = .ok ac ∧ mulFold [a, polyAdd b c] m = .ok asum ∧
        ab.toNat < 2 ^ degree m ∧ asum = polyAdd ab ac ∧ mulFold [b, a] m = .ok ab ∧
        mulFold [b, c] m = .ok bc ∧ mulFold [ab, c] m = .ok abc ∧ mulFold [a, bc] m = .ok abc) ∧
      mulFold [a, 1#64] m = .ok a ∧ mulFold [a, 0#64] m = .ok 0#64 ∧
      (polyAdd b c).toNat < 2 ^ degree m ∧
      reducedPower a 0#64 m = .ok 1#64 ∧
      reducedPower a (BitVec.ofNat 64 (fieldOrder m)) m = .ok 1#64) ∧
    (∀ wc : BitVec 2, degree m ≤ 8 * 2 ^ wc.toNat → RingProperties m wc)

/-- R150 (b) and (d), on the unit functions and on the commands (`DivisionProperties`). -/
def Obligations.DivisionRoundTripInAField : Prop :=
  ∀ m : Poly, IrreduciblePoly m → degree m ≤ 32 →
    (∀ a b : Poly, a.toNat < 2 ^ degree m → b.toNat < 2 ^ degree m → b ≠ 0#64 →
      (∃ i, inverse b m = .ok i ∧ mulFold [b, i] m = .ok 1#64) ∧
      (∃ x, mulFold [a, b] m = .ok x ∧ divide x b m = .ok a) ∧
      (∃ q, divide a b m = .ok q ∧ mulFold [q, b] m = .ok a)) ∧
    (∀ wc : BitVec 2, degree m ≤ 8 * 2 ^ wc.toNat → DivisionProperties m wc)

/-- R139, R150 (g) (`GeneratorProperties`). That the exponent 2^d - 1 gives what 0 gives is the divisor of C2 (log 11). -/
def Obligations.GeneratorEnumeratesTheField : Prop :=
  ∀ m : Poly, 2 ≤ degree m → degree m ≤ 32 → IrreduciblePoly m → PrimitiveTwo m →
    (∀ e, e < 2 ^ degree m - 1 →
      ∃ v, polyExp 2#64 (BitVec.ofNat 64 e) m = .ok v ∧ v ≠ 0#64 ∧ v.toNat < 2 ^ degree m) ∧
    (∀ e e', e < 2 ^ degree m - 1 → e' < 2 ^ degree m - 1 →
      polyExp 2#64 (BitVec.ofNat 64 e) m = polyExp 2#64 (BitVec.ofNat 64 e') m → e = e') ∧
    (∀ v : Poly, v ≠ 0#64 → v.toNat < 2 ^ degree m →
      ∃ e, e < 2 ^ degree m - 1 ∧ polyExp 2#64 (BitVec.ofNat 64 e) m = .ok v) ∧
    generate (BitVec.ofNat 64 (2 ^ degree m - 1)) m = generate 0#64 m ∧
    (∀ wc : BitVec 2, degree m ≤ 8 * 2 ^ wc.toNat → GeneratorProperties m wc)

/-- R150 ("none of the commands named in (a) to (g) fails"), R233. -/
def Obligations.FieldCommandsCompleteUnderTheContract : Prop :=
  ∀ s : State, s.halt = false → s.cfgv = true → IrreduciblePoly s.mod → 2 ≤ degree s.mod → degree s.mod ≤ 32 →
    degree s.mod ≤ s.width → ∀ (rd ra rb : PReg) (mask : BitVec 8),
    let reduced : PReg → Prop := fun r => (s.readField r).toNat < 2 ^ degree s.mod
    let completes : Instr → Prop := fun i =>
      ∃ v : Poly, Sys2Proof.Machine.exec i s = .next ((s.writeP rd v).respond .ok 0#64) ∧ v.toNat < 2 ^ degree s.mod
    (∃ v : Poly, v.toNat = 2 ^ degree s.mod ∧ Sys2Proof.Machine.exec (.ford rd) s = .next ((s.writeP rd v).respond .ok 0#64)) ∧
    Sys2Proof.Machine.exec (.fgetm rd) s = .next ((s.writeP rd s.mod).respond .ok 0#64) ∧
    completes (.fgen rd ra) ∧
    (reduced ra → reduced rb → completes (.fadd rd ra rb) ∧ completes (.fmul rd ra rb)) ∧
    ((∀ i < 8, mask.getLsbD i = true → reduced (BitVec.ofNat 3 i)) →
      completes (.faddv rd mask) ∧ completes (.fmulv rd mask)) ∧
    (reduced ra → completes (.fexp rd ra rb)) ∧
    (reduced ra → s.readField ra ≠ 0#64 → completes (.finv rd ra)) ∧
    (reduced ra → reduced rb → s.readField rb ≠ 0#64 → completes (.fdiv rd ra rb))

/-- R171, R172; the divisor 2^d - 1 of EGEN is the resolution of C2 (log 11). -/
def Obligations.EmkEgenMakeElements : Prop :=
  ∀ (rd : EReg) (ra rb : PReg) (s : State), s.halt = false →
    let m : Poly := s.readP rb
    let N : Nat := 2 ^ degree m - 1
    encode (.emk rd ra rb) = 0x30000000#32 ||| regAt rd 21 ||| regAt ra 18 ||| regAt rb 15 ∧
    encode (.egen rd ra rb) = 0x31000000#32 ||| regAt rd 21 ||| regAt ra 18 ||| regAt rb 15 ∧
    (m = 0#64 → Sys2Proof.Machine.exec (.emk rd ra rb) s =
      .next { s with fd := true, rsp := some { status := .domain, data := 0#64 } }) ∧
    (m ≠ 0#64 → ∃ r, polyMod (s.readP ra) m = .ok r ∧
      Sys2Proof.Machine.exec (.emk rd ra rb) s = .next ((s.writeE rd { val := r, mod := m }).respond .ok 0#64)) ∧
    (N = 0 → Sys2Proof.Machine.exec (.egen rd ra rb) s =
      .next { s with fd := true, rsp := some { status := .domain, data := 0#64 } }) ∧
    (N ≠ 0 →
      (∀ v, polyExp 2#64 (BitVec.ofNat 64 ((s.readP ra).toNat % N)) m = .ok v →
        Sys2Proof.Machine.exec (.egen rd ra rb) s = .next ((s.writeE rd { val := v, mod := m }).respond .ok 0#64)) ∧
      (∀ f, polyExp 2#64 (BitVec.ofNat 64 ((s.readP ra).toNat % N)) m = .error f →
        f = .overflow ∧ Sys2Proof.Machine.exec (.egen rd ra rb) s =
          .next { s with fo := true, rsp := some { status := .overflow, data := 0#64 } }) ∧
      ((s.readP ra).toNat % N = 0 →
        Sys2Proof.Machine.exec (.egen rd ra rb) s = .next ((s.writeE rd { val := 1#64, mod := m }).respond .ok 0#64)))

/-- R173, R174. -/
def Obligations.EgetEgetmReadElements : Prop :=
  ∀ (rd : PReg) (ra : EReg) (s : State), s.halt = false →
    encode (.eget rd ra) = 0x32000000#32 ||| regAt rd 21 ||| regAt ra 18 ∧
    encode (.egetm rd ra) = 0x33000000#32 ||| regAt rd 21 ||| regAt ra 18 ∧
    Sys2Proof.Machine.exec (.eget rd ra) s = .next ((s.writeP rd (s.readE ra).val).respond .ok 0#64) ∧
    Sys2Proof.Machine.exec (.egetm rd ra) s = .next ((s.writeP rd (s.readE ra).mod).respond .ok 0#64)

/-- R175. -/
def Obligations.DifferentModuliFailFirst : Prop :=
  (∀ (rd ra rb : EReg) (s : State), s.halt = false → (s.readE ra).mod ≠ (s.readE rb).mod →
    Sys2Proof.Machine.exec (.emul rd ra rb) s = .next { s with fx := true, rsp := some { status := .xdomain, data := 0#64 } } ∧
    Sys2Proof.Machine.exec (.ediv rd ra rb) s = .next { s with fx := true, rsp := some { status := .xdomain, data := 0#64 } }) ∧
  (∀ (i : Instr) (s t : State) (d : BitVec 64), Sys2Proof.Machine.exec i s = .next t →
    t.rsp = some { status := .xdomain, data := d } →
    ∃ rd ra rb, (i = .emul rd ra rb ∨ i = .ediv rd ra rb) ∧ (s.readE ra).mod ≠ (s.readE rb).mod)

/-- R176, R178, R180, R182; the divisor 2^d - 1 of EEXP is the resolution of C2 (D40, U3; log 11), so its results for exponents of
2^d - 1 and more depend on it. -/
def Obligations.ElementArithmeticResults : Prop :=
  ∀ (rd ra rb : EReg) (rp : PReg) (s : State), s.halt = false →
    let a : Element := s.readE ra
    let b : Element := s.readE rb
    let N : Nat := 2 ^ degree a.mod - 1
    let stored : Poly → State := fun v => (s.writeE rd { val := v, mod := a.mod }).respond .ok 0#64
    let failWith : Failure → State := fun f =>
      { s with fd := s.fd || f == .domain, fx := s.fx || f == .xdomain, fo := s.fo || f == .overflow,
               halt := f == .invariant, rsp := some { status := f.code, data := 0#64 } }
    encode (.emul rd ra rb) = 0x34000000#32 ||| regAt rd 21 ||| regAt ra 18 ||| regAt rb 15 ∧
    encode (.ediv rd ra rb) = 0x35000000#32 ||| regAt rd 21 ||| regAt ra 18 ||| regAt rb 15 ∧
    encode (.einv rd ra) = 0x36000000#32 ||| regAt rd 21 ||| regAt ra 18 ∧
    encode (.eexp rd ra rp) = 0x37000000#32 ||| regAt rd 21 ||| regAt ra 18 ||| regAt rp 15 ∧
    (a.mod ≠ b.mod → Sys2Proof.Machine.exec (.emul rd ra rb) s = .next (failWith .xdomain) ∧
      Sys2Proof.Machine.exec (.ediv rd ra rb) s = .next (failWith .xdomain)) ∧
    (a.mod = b.mod →
      (∀ v, mulFold [a.val, b.val] a.mod = .ok v → Sys2Proof.Machine.exec (.emul rd ra rb) s = .next (stored v)) ∧
      (∀ f, mulFold [a.val, b.val] a.mod = .error f →
        (f = .overflow ∨ f = .domain) ∧ Sys2Proof.Machine.exec (.emul rd ra rb) s = .next (failWith f)) ∧
      (∀ f, inverse b.val a.mod = .error f →
        (f = .domain ∨ f = .overflow ∨ f = .invariant) ∧ Sys2Proof.Machine.exec (.ediv rd ra rb) s = .next (failWith f)) ∧
      (∀ i v, inverse b.val a.mod = .ok i → mulFold [a.val, i] a.mod = .ok v →
        Sys2Proof.Machine.exec (.ediv rd ra rb) s = .next (stored v)) ∧
      (∀ i f, inverse b.val a.mod = .ok i → mulFold [a.val, i] a.mod = .error f →
        (f = .overflow ∨ f = .domain) ∧ Sys2Proof.Machine.exec (.ediv rd ra rb) s = .next (failWith f))) ∧
    (∀ v, inverse a.val a.mod = .ok v → Sys2Proof.Machine.exec (.einv rd ra) s = .next (stored v)) ∧
    (∀ f, inverse a.val a.mod = .error f →
      (f = .domain ∨ f = .overflow ∨ f = .invariant) ∧ Sys2Proof.Machine.exec (.einv rd ra) s = .next (failWith f)) ∧
    (N = 0 → Sys2Proof.Machine.exec (.eexp rd ra rp) s = .next (failWith .domain)) ∧
    (N ≠ 0 →
      (∀ v, polyExp a.val (BitVec.ofNat 64 ((s.readP rp).toNat % N)) a.mod = .ok v →
        Sys2Proof.Machine.exec (.eexp rd ra rp) s = .next (stored v)) ∧
      (∀ f, polyExp a.val (BitVec.ofNat 64 ((s.readP rp).toNat % N)) a.mod = .error f →
        f = .overflow ∧ Sys2Proof.Machine.exec (.eexp rd ra rp) s = .next (failWith f)) ∧
      ((s.readP rp).toNat % N = 0 → Sys2Proof.Machine.exec (.eexp rd ra rp) s = .next (stored 1#64)))

/-- R170 to R186 under the document's contract (R165, R233). -/
def Obligations.ElementCommandsCompleteUnderTheContract : Prop :=
  ∀ (s : State) (m : Poly), s.halt = false → IrreduciblePoly m → 2 ≤ degree m → degree m ≤ 32 →
    ∀ (rd ra rb : EReg) (pa pb : PReg),
    let element : EReg → Prop := fun r => (s.readE r).mod = m ∧ (s.readE r).val.toNat < 2 ^ degree m
    let answered : Bool → State := fun b => { s with t := b, rsp := some { status := .ok, data := if b then 1#64 else 0#64 } }
    let completes : Instr → Prop := fun i => ∃ v : Poly,
      Sys2Proof.Machine.exec i s = .next ((s.writeE rd { val := v, mod := m }).respond .ok 0#64) ∧ v.toNat < 2 ^ degree m
    (s.readP pb = m → completes (.emk rd pa pb) ∧ completes (.egen rd pa pb)) ∧
    (element ra → element rb → completes (.emul rd ra rb)) ∧
    (element ra → completes (.eexp rd ra pa)) ∧
    (element ra → (s.readE ra).val ≠ 0#64 → completes (.einv rd ra)) ∧
    (element ra → element rb → (s.readE rb).val ≠ 0#64 → completes (.ediv rd ra rb)) ∧
    (element ra →
      (∃ v : Poly, v.toNat < 2 ^ degree m ∧ Sys2Proof.Machine.exec (.eget pa ra) s = .next ((s.writeP pa v).respond .ok 0#64)) ∧
      Sys2Proof.Machine.exec (.egetm pa ra) s = .next ((s.writeP pa m).respond .ok 0#64) ∧
      Sys2Proof.Machine.exec (.eisz ra) s = .next (answered (decide ((s.readE ra).val = 0#64))) ∧
      Sys2Proof.Machine.exec (.eis1 ra) s = .next (answered (decide ((s.readE ra).val = 1#64)))) ∧
    (element ra → element rb →
      Sys2Proof.Machine.exec (.eeq ra rb) s = .next (answered (decide ((s.readE ra).val = (s.readE rb).val))))

/-- R184, R185, R186. -/
def Obligations.PredicatesWriteT : Prop :=
  ∀ (ra rb : EReg) (s : State), s.halt = false →
    let answered : Bool → State := fun b =>
      { s with t := b, rsp := some { status := .ok, data := if b then 1#64 else 0#64 } }
    encode (.eeq ra rb) = 0x38000000#32 ||| regAt ra 18 ||| regAt rb 15 ∧
    encode (.eisz ra) = 0x39000000#32 ||| regAt ra 18 ∧
    encode (.eis1 ra) = 0x3A000000#32 ||| regAt ra 18 ∧
    ((s.readE ra).val = (s.readE rb).val → (s.readE ra).mod = (s.readE rb).mod →
      Sys2Proof.Machine.exec (.eeq ra rb) s = .next (answered true)) ∧
    ((s.readE ra).val ≠ (s.readE rb).val ∨ (s.readE ra).mod ≠ (s.readE rb).mod →
      Sys2Proof.Machine.exec (.eeq ra rb) s = .next (answered false)) ∧
    ((s.readE ra).val = 0#64 → Sys2Proof.Machine.exec (.eisz ra) s = .next (answered true)) ∧
    ((s.readE ra).val ≠ 0#64 → Sys2Proof.Machine.exec (.eisz ra) s = .next (answered false)) ∧
    ((s.readE ra).val = 1#64 → Sys2Proof.Machine.exec (.eis1 ra) s = .next (answered true)) ∧
    ((s.readE ra).val ≠ 1#64 → Sys2Proof.Machine.exec (.eis1 ra) s = .next (answered false))

/-- R123 (a) to (d), in `CatalogueAdmissible`, whatever the open value is. The model's choice: the open value held to R123 (log 6), the
default instance of R124 standing in where it is no entry (log 7). -/
def Obligations.CatalogueIsAdmissible : Prop :=
  CatalogueAdmissible
end

