-- ==== Sys2Proof/Laws/Engine.lean ====
section
/-! SUPPORT. What each unit function can answer, said once, and the plain facts about `Degree`. -/

namespace Sys2Proof.Machine

section Degree
variable (v : Poly)

@[simp] theorem degree_zero : degree 0#64 = 0 := by decide

@[simp] theorem degree_one : degree 1#64 = 0 := by decide

theorem degree_le_63 : degree v ≤ 63 := by
  have h : v.toNat < 2 ^ 64 := v.isLt
  unfold degree
  by_cases h0 : v.toNat = 0
  · simp [h0]
  · have := (Nat.log2_lt h0).2 h
    omega

theorem lt_two_pow_degree : v.toNat < 2 ^ (degree v + 1) := Nat.lt_log2_self

theorem two_pow_degree_le (h : v ≠ 0#64) : 2 ^ degree v ≤ v.toNat :=
  Nat.log2_self_le (by simpa [← BitVec.toNat_inj] using h)

/-- `2^Degree` fits in 64 bits, so no order wraps. -/
theorem order_lt : order v < 2 ^ 64 :=
  Nat.pow_lt_pow_right (by decide) (Nat.lt_succ_of_le (degree_le_63 v))

theorem fieldOrder_lt : fieldOrder v < 2 ^ 64 := lt_of_le_of_lt (Nat.sub_le _ _) (order_lt v)

end Degree

section Units
variable {a b m v : Poly} {f : Failure}

/-- Everything the multiplier can answer. -/
theorem polyMul_cases (a b : Poly) :
    (degree a + degree b ≤ 63 ∧ polyMul a b = .ok (convolve a b 64)) ∨
    (63 < degree a + degree b ∧ polyMul a b = .error .overflow) := by
  by_cases h : degree a + degree b > 63
  · exact .inr ⟨h, by simp [polyMul, h]⟩
  · exact .inl ⟨Nat.le_of_not_lt h, by simp [polyMul, h]⟩

/-- Everything the divider can answer. -/
theorem polyDiv_cases (n d : Poly) :
    (d = 0#64 ∧ polyDiv n d = .error .domain) ∨ (d ≠ 0#64 ∧ polyDiv n d = .ok (divLoop d 64 (0#64, n))) := by
  by_cases h : d = 0#64
  · exact .inl ⟨h, by simp [polyDiv, h]⟩
  · exact .inr ⟨h, by simp [polyDiv, h]⟩

/-- Everything the remainder unit can answer. -/
theorem polyMod_cases (a b : Poly) :
    (b = 0#64 ∧ polyMod a b = .error .domain) ∨ (b ≠ 0#64 ∧ polyMod a b = .ok (divLoop b 64 (0#64, a)).2) := by
  rcases polyDiv_cases a b with ⟨h, e⟩ | ⟨h, e⟩
  · exact .inl ⟨h, by rw [polyMod, e]; rfl⟩
  · exact .inr ⟨h, by rw [polyMod, e]; rfl⟩

/-- Everything the exponent reduction can answer. -/
theorem reduceExp_cases (e : BitVec 64) (m : Poly) :
    (fieldOrder m = 0 ∧ reduceExp e m = .error .domain) ∨
    (fieldOrder m ≠ 0 ∧ reduceExp e m = .ok (BitVec.ofNat 64 (e.toNat % fieldOrder m))) := by
  by_cases h : fieldOrder m = 0
  · exact .inl ⟨h, by simp [reduceExp, expDivisor, h]⟩
  · exact .inr ⟨h, by simp [reduceExp, expDivisor, h]⟩

/-- Everything a power with a reduced exponent can answer. -/
theorem reducedPower_cases (base : Poly) (e : BitVec 64) (m : Poly) :
    (fieldOrder m = 0 ∧ reducedPower base e m = .error .domain) ∨
    (fieldOrder m ≠ 0 ∧ reducedPower base e m = polyExp base (BitVec.ofNat 64 (e.toNat % fieldOrder m)) m) := by
  rcases reduceExp_cases e m with ⟨h, he⟩ | ⟨h, he⟩
  · exact .inl ⟨h, by rw [reducedPower, he]⟩
  · exact .inr ⟨h, by rw [reducedPower, he]⟩

/-- A generator power is a power of 2. -/
theorem generate_eq_reducedPower (e : BitVec 64) (m : Poly) : generate e m = reducedPower 2#64 e m := rfl

/-- Everything one multiply-then-reduce can answer, in the order of its checks. -/
theorem mulMod_cases (a b m : Poly) :
    (63 < degree a + degree b ∧ mulMod a b m = .error .overflow) ∨
    (degree a + degree b ≤ 63 ∧ m = 0#64 ∧ mulMod a b m = .error .domain) ∨
    (degree a + degree b ≤ 63 ∧ m ≠ 0#64 ∧ mulMod a b m = .ok (divLoop m 64 (0#64, convolve a b 64)).2) := by
  rcases polyMul_cases a b with ⟨h, e⟩ | ⟨h, e⟩
  · rcases polyMod_cases (convolve a b 64) m with ⟨hm, e'⟩ | ⟨hm, e'⟩
    · exact .inr (.inl ⟨h, hm, by rw [mulMod, e]; exact e'⟩)
    · exact .inr (.inr ⟨h, hm, by rw [mulMod, e]; exact e'⟩)
  · exact .inl ⟨h, by rw [mulMod, e]⟩

@[simp] theorem mulFold_nil (m : Poly) : mulFold [] m = .ok 0#64 := rfl

theorem mulFold_zero {ops : List Poly} (m : Poly) (h : 0#64 ∈ ops) : mulFold ops m = .ok 0#64 := by
  cases ops with
  | nil => simp at h
  | cons v vs =>
    have : (v :: vs).any (· == 0#64) = true := List.any_eq_true.2 ⟨0#64, h, by decide⟩
    rw [mulFold, if_pos this]

theorem mulFold_nonzero {vs : List Poly} (m v : Poly) (h : 0#64 ∉ v :: vs) : mulFold (v :: vs) m = foldFrom m v vs := by
  have : ¬ (v :: vs).any (· == 0#64) = true := by
    simp only [List.any_eq_true, beq_iff_eq, not_exists, not_and]
    rintro x hx rfl
    exact h hx
  rw [mulFold, if_neg this]

/-- The two-operand fold: 0 for a zero operand, else one multiply-then-reduce. -/
theorem mulFold_pair (a b m : Poly) : mulFold [a, b] m = if a = 0#64 ∨ b = 0#64 then .ok 0#64 else mulMod a b m := by
  by_cases h : a = 0#64 ∨ b = 0#64
  · rw [if_pos h]
    exact mulFold_zero m (by rcases h with rfl | rfl <;> simp)
  · rw [if_neg h, mulFold_nonzero m a (by simp only [List.mem_cons, List.not_mem_nil, or_false]; tauto)]
    unfold foldFrom
    cases mulMod a b m <;> rfl

theorem inverse_zero (m : Poly) : inverse 0#64 m = .error .domain := by simp [inverse]

/-- Everything the inverse unit can answer. -/
theorem inverse_cases (y m : Poly) :
    (y = 0#64 ∧ inverse y m = .error .domain) ∨
    (y ≠ 0#64 ∧ ∃ f, euclidLoop 65 (euclidStart y m) = .error f ∧ inverse y m = .error f) ∨
    (y ≠ 0#64 ∧ ∃ x, euclidLoop 65 (euclidStart y m) = .ok x ∧ x.r = 1#64 ∧ inverse y m = .ok x.t) ∨
    (y ≠ 0#64 ∧ ∃ x, euclidLoop 65 (euclidStart y m) = .ok x ∧ x.r ≠ 1#64 ∧ inverse y m = .error .invariant) := by
  by_cases h : y = 0#64
  · exact .inl ⟨h, by simp [inverse, h]⟩
  · cases e : euclidLoop 65 (euclidStart y m) with
    | error f => exact .inr (.inl ⟨h, f, rfl, by simp [inverse, h, e]⟩)
    | ok x =>
      by_cases hr : x.r = 1#64
      · exact .inr (.inr (.inl ⟨h, x, rfl, hr, by simp [inverse, h, e, hr]⟩))
      · exact .inr (.inr (.inr ⟨h, x, rfl, hr, by simp [inverse, h, e, hr]⟩))

/-- Everything a division can answer. -/
theorem divide_cases (a b m : Poly) :
    (∃ f, inverse b m = .error f ∧ divide a b m = .error f) ∨
    (∃ i, inverse b m = .ok i ∧ divide a b m = mulFold [a, i] m) := by
  cases e : inverse b m with
  | error f => exact .inl ⟨f, rfl, by simp [divide, e]⟩
  | ok i => exact .inr ⟨i, rfl, by simp [divide, e]⟩

end Units

end Sys2Proof.Machine
end

