-- ==== Sys2Proof/Laws/Catalogue.lean ====
section
/-! SUPPORT. What a catalogue entry can be (R122 to R124), and the two tests of it in the terms of Safety. -/

namespace Sys2Proof.Machine

/-- Everything a catalogue entry can be. -/
theorem catalogueEntry_cases (k : Nat) :
    (k = 16 ∧ catalogueEntry k = 0x1100B#64) ∨
    (k ≠ 16 ∧ admissibleEntry k (Config.catalogue k) = true ∧ catalogueEntry k = Config.catalogue k) ∨
    (k ≠ 16 ∧ admissibleEntry k (Config.catalogue k) = false ∧ catalogueEntry k = defaultEntry k) := by
  by_cases hk : k = 16
  · exact .inl ⟨hk, if_pos hk⟩
  · cases ha : admissibleEntry k (Config.catalogue k) with
    | true => exact .inr (.inl ⟨hk, rfl, by rw [catalogueEntry, if_neg hk, if_pos ha]⟩)
    | false => exact .inr (.inr ⟨hk, rfl, by rw [catalogueEntry, if_neg hk, if_neg (by simp [ha])]⟩)

/-- Trial division finds every factor there is. -/
theorem noFactor_iff (m : Poly) : noFactor m = true ↔ Safety.IrreduciblePoly m := by
  rw [noFactor, decide_eq_true_iff, Safety.IrreduciblePoly]
  refine and_congr_right fun _ => ⟨fun h a h1 h2 => ?_, fun h n hn h1 => h _ h1 ?_⟩
  · have hlt : a.toNat < 2 ^ degree m := lt_of_lt_of_le (lt_two_pow_degree a) (Nat.pow_le_pow_right (by decide) h2)
    have ha : BitVec.ofNat 64 a.toNat = a := by simp
    simpa [ha] using h a.toNat hlt (by rw [ha]; exact h1)
  · have hm := degree_le_63 m
    have hb : (BitVec.ofNat 64 n).toNat < 2 ^ degree m := lt_of_le_of_lt (by rw [BitVec.toNat_ofNat]; exact Nat.mod_le _ _) hn
    by_contra hge
    have h0 : BitVec.ofNat 64 n ≠ 0#64 := by rintro h0; rw [h0] at h1; exact absurd h1 (by decide)
    have := two_pow_degree_le (BitVec.ofNat 64 n) h0
    exact absurd (lt_of_le_of_lt this hb) (Nat.not_lt.2 (Nat.pow_le_pow_right (by decide) (Nat.le_of_not_lt hge)))

theorem generatorPrimitive_iff (m : Poly) : generatorPrimitive m = true ↔ Safety.PrimitiveTwo m := by
  rw [generatorPrimitive, decide_eq_true_iff, Safety.PrimitiveTwo]
  exact and_congr_right fun _ => ⟨fun h j h0 h1 => h j h1 h0, fun h j h1 h0 => h j h0 h1⟩

/-- A value the entry test passes has what R123 a, b and c ask. -/
theorem admissibleEntry_iff (k : Nat) (v : Poly) :
    admissibleEntry k v = true ↔ degree v = k ∧ Safety.PrimitiveTwo v ∧ Safety.IrreduciblePoly v := by
  simp only [admissibleEntry, Bool.and_eq_true, beq_iff_eq, generatorPrimitive_iff, noFactor_iff, and_assoc]

end Sys2Proof.Machine
end

