-- ==== Sys2Proof/Laws/Decode.lean ====
section
/-! SUPPORT. The fields of a packed word (R55), and the fields and the opcode of an encoded command. -/

namespace Sys2Proof

section Pack
variable (op : BitVec 8) (rd ra rb rc : BitVec 3) (imm : BitVec 12)

@[simp] theorem opField_packWord : opField (packWord op rd ra rb rc imm) = op := by
  ext k hk
  simp only [opField, packWord, BitVec.getElem_extractLsb', BitVec.getLsbD_append]
  rw [if_neg (show ¬ 24 + k < 12 by omega),
    if_neg (show ¬ 24 + k - 12 < 3 by omega),
    if_neg (show ¬ 24 + k - 12 - 3 < 3 by omega),
    if_neg (show ¬ 24 + k - 12 - 3 - 3 < 3 by omega),
    if_neg (show ¬ 24 + k - 12 - 3 - 3 - 3 < 3 by omega)]
  rw [show 24 + k - 12 - 3 - 3 - 3 - 3 = k by omega, BitVec.getLsbD_eq_getElem hk]

@[simp] theorem rdField_packWord : rdField (packWord op rd ra rb rc imm) = rd := by
  ext k hk
  simp only [rdField, packWord, BitVec.getElem_extractLsb', BitVec.getLsbD_append]
  rw [if_neg (show ¬ 21 + k < 12 by omega),
    if_neg (show ¬ 21 + k - 12 < 3 by omega),
    if_neg (show ¬ 21 + k - 12 - 3 < 3 by omega),
    if_neg (show ¬ 21 + k - 12 - 3 - 3 < 3 by omega),
    if_pos (show 21 + k - 12 - 3 - 3 - 3 < 3 by omega)]
  rw [show 21 + k - 12 - 3 - 3 - 3 = k by omega, BitVec.getLsbD_eq_getElem hk]

@[simp] theorem raField_packWord : raField (packWord op rd ra rb rc imm) = ra := by
  ext k hk
  simp only [raField, packWord, BitVec.getElem_extractLsb', BitVec.getLsbD_append]
  rw [if_neg (show ¬ 18 + k < 12 by omega),
    if_neg (show ¬ 18 + k - 12 < 3 by omega),
    if_neg (show ¬ 18 + k - 12 - 3 < 3 by omega),
    if_pos (show 18 + k - 12 - 3 - 3 < 3 by omega)]
  rw [show 18 + k - 12 - 3 - 3 = k by omega, BitVec.getLsbD_eq_getElem hk]

@[simp] theorem rbField_packWord : rbField (packWord op rd ra rb rc imm) = rb := by
  ext k hk
  simp only [rbField, packWord, BitVec.getElem_extractLsb', BitVec.getLsbD_append]
  rw [if_neg (show ¬ 15 + k < 12 by omega),
    if_neg (show ¬ 15 + k - 12 < 3 by omega),
    if_pos (show 15 + k - 12 - 3 < 3 by omega)]
  rw [show 15 + k - 12 - 3 = k by omega, BitVec.getLsbD_eq_getElem hk]

@[simp] theorem rcField_packWord : rcField (packWord op rd ra rb rc imm) = rc := by
  ext k hk
  simp only [rcField, packWord, BitVec.getElem_extractLsb', BitVec.getLsbD_append]
  rw [if_neg (show ¬ 12 + k < 12 by omega),
    if_pos (show 12 + k - 12 < 3 by omega)]
  rw [show 12 + k - 12 = k by omega, BitVec.getLsbD_eq_getElem hk]

@[simp] theorem kField_packWord : kField (packWord op rd ra rb rc imm) = imm.setWidth 6 := by
  ext k hk
  simp only [kField, packWord, BitVec.getElem_extractLsb', BitVec.getLsbD_append]
  rw [if_pos (show 0 + k < 12 by omega)]
  simp

@[simp] theorem maskField_packWord : maskField (packWord op rd ra rb rc imm) = imm.setWidth 8 := by
  ext k hk
  simp only [maskField, packWord, BitVec.getElem_extractLsb', BitVec.getLsbD_append]
  rw [if_pos (show 0 + k < 12 by omega)]
  simp

@[simp] theorem wcField_packWord : wcField (packWord op rd ra rb rc imm) = imm.setWidth 2 := by
  ext k hk
  simp only [wcField, packWord, BitVec.getElem_extractLsb', BitVec.getLsbD_append]
  rw [if_pos (show 0 + k < 12 by omega)]
  simp

/-- The `and` of two packed words, field by field. -/
theorem packWord_and (op' : BitVec 8) (rd' ra' rb' rc' : BitVec 3) (imm' : BitVec 12) :
    packWord op rd ra rb rc imm &&& packWord op' rd' ra' rb' rc' imm' =
      packWord (op &&& op') (rd &&& rd') (ra &&& ra') (rb &&& rb') (rc &&& rc') (imm &&& imm') := by
  simp only [packWord, ← BitVec.and_append]

/-- `op << 24` is the word with that opcode and every other field zero. -/
theorem shiftOpcode_eq_packWord : op.setWidth 32 <<< 24 = packWord op 0#3 0#3 0#3 0#3 0#12 := by
  revert op; decide +kernel

end Pack

/-- The mask of a format, packed: each must-be-zero field all ones, each used field all zeros, `imm` as the format says
(R56). -/
theorem Format.mask_eq_packWord (f : Format) :
    f.mask = match f with
      | .z => packWord 0xFF#8 7#3 7#3 7#3 7#3 0xFFF#12
      | .d => packWord 0xFF#8 0#3 7#3 7#3 7#3 0xFFF#12
      | .a => packWord 0xFF#8 7#3 0#3 7#3 7#3 0xFFF#12
      | .da => packWord 0xFF#8 0#3 0#3 7#3 7#3 0xFFF#12
      | .ab => packWord 0xFF#8 7#3 0#3 0#3 7#3 0xFFF#12
      | .dab => packWord 0xFF#8 0#3 0#3 0#3 7#3 0xFFF#12
      | .dabc => packWord 0xFF#8 0#3 0#3 0#3 0#3 0xFFF#12
      | .dk => packWord 0xFF#8 0#3 7#3 7#3 7#3 0xFC0#12
      | .dm => packWord 0xFF#8 0#3 7#3 7#3 7#3 0xF00#12
      | .aw => packWord 0xFF#8 7#3 0#3 7#3 7#3 0xFFC#12 := by
  cases f <;> decide +kernel

/-- The immediates leave the bits above them zero (R58). -/
theorem kImm_and (k : BitVec 6) : k.setWidth 12 &&& 0xFC0#12 = 0#12 := by revert k; decide +kernel

theorem maskImm_and (mask : BitVec 8) : mask.setWidth 12 &&& 0xF00#12 = 0#12 := by revert mask; decide +kernel

theorem wcImm_and (wc : BitVec 2) : wc.setWidth 12 &&& 0xFFC#12 = 0#12 := by revert wc; decide +kernel

/-- The word of a command in its packed form. -/
theorem encode_eq_packWord (i : Instr) :
    encode i = packWord i.opcode i.fields.1 i.fields.2.1 i.fields.2.2.1 i.fields.2.2.2.1 i.fields.2.2.2.2 := rfl

@[simp] theorem opField_encode (i : Instr) : opField (encode i) = i.opcode := by
  rw [encode_eq_packWord, opField_packWord]

end Sys2Proof
end

