-- ==== Sys2Proof/Laws/State.lean ====
section
/-! SUPPORT. What each update of the state leaves in each field, so that no proof unfolds a record update. -/

namespace Sys2Proof.Machine

section Writes
variable (s : State)

@[simp] theorem State.writeP_p (i : PReg) (v : Poly) : (s.writeP i v).p = s.p.set i.toNat v i.isLt := rfl
@[simp] theorem State.writeP_e (i : PReg) (v : Poly) : (s.writeP i v).e = s.e := rfl
@[simp] theorem State.writeP_mod (i : PReg) (v : Poly) : (s.writeP i v).mod = s.mod := rfl
@[simp] theorem State.writeP_wid (i : PReg) (v : Poly) : (s.writeP i v).wid = s.wid := rfl
@[simp] theorem State.writeP_cfgv (i : PReg) (v : Poly) : (s.writeP i v).cfgv = s.cfgv := rfl
@[simp] theorem State.writeP_fc (i : PReg) (v : Poly) : (s.writeP i v).fc = s.fc := rfl
@[simp] theorem State.writeP_fd (i : PReg) (v : Poly) : (s.writeP i v).fd = s.fd := rfl
@[simp] theorem State.writeP_fx (i : PReg) (v : Poly) : (s.writeP i v).fx = s.fx := rfl
@[simp] theorem State.writeP_fo (i : PReg) (v : Poly) : (s.writeP i v).fo = s.fo := rfl
@[simp] theorem State.writeP_fl (i : PReg) (v : Poly) : (s.writeP i v).fl = s.fl := rfl
@[simp] theorem State.writeP_fn (i : PReg) (v : Poly) : (s.writeP i v).fn = s.fn := rfl
@[simp] theorem State.writeP_t (i : PReg) (v : Poly) : (s.writeP i v).t = s.t := rfl
@[simp] theorem State.writeP_halt (i : PReg) (v : Poly) : (s.writeP i v).halt = s.halt := rfl
@[simp] theorem State.writeP_rsp (i : PReg) (v : Poly) : (s.writeP i v).rsp = s.rsp := rfl
@[simp] theorem State.writeP_inputs (i : PReg) (v : Poly) : (s.writeP i v).inputs = s.inputs := rfl
@[simp] theorem State.writeP_upcoming (i : PReg) (v : Poly) : (s.writeP i v).upcoming = s.upcoming := rfl

@[simp] theorem State.writeE_p (i : EReg) (x : Element) : (s.writeE i x).p = s.p := rfl
@[simp] theorem State.writeE_e (i : EReg) (x : Element) : (s.writeE i x).e = s.e.set i.toNat x i.isLt := rfl
@[simp] theorem State.writeE_mod (i : EReg) (x : Element) : (s.writeE i x).mod = s.mod := rfl
@[simp] theorem State.writeE_wid (i : EReg) (x : Element) : (s.writeE i x).wid = s.wid := rfl
@[simp] theorem State.writeE_cfgv (i : EReg) (x : Element) : (s.writeE i x).cfgv = s.cfgv := rfl
@[simp] theorem State.writeE_fc (i : EReg) (x : Element) : (s.writeE i x).fc = s.fc := rfl
@[simp] theorem State.writeE_fd (i : EReg) (x : Element) : (s.writeE i x).fd = s.fd := rfl
@[simp] theorem State.writeE_fx (i : EReg) (x : Element) : (s.writeE i x).fx = s.fx := rfl
@[simp] theorem State.writeE_fo (i : EReg) (x : Element) : (s.writeE i x).fo = s.fo := rfl
@[simp] theorem State.writeE_fl (i : EReg) (x : Element) : (s.writeE i x).fl = s.fl := rfl
@[simp] theorem State.writeE_fn (i : EReg) (x : Element) : (s.writeE i x).fn = s.fn := rfl
@[simp] theorem State.writeE_t (i : EReg) (x : Element) : (s.writeE i x).t = s.t := rfl
@[simp] theorem State.writeE_halt (i : EReg) (x : Element) : (s.writeE i x).halt = s.halt := rfl
@[simp] theorem State.writeE_rsp (i : EReg) (x : Element) : (s.writeE i x).rsp = s.rsp := rfl
@[simp] theorem State.writeE_inputs (i : EReg) (x : Element) : (s.writeE i x).inputs = s.inputs := rfl
@[simp] theorem State.writeE_upcoming (i : EReg) (x : Element) : (s.writeE i x).upcoming = s.upcoming := rfl

@[simp] theorem State.respond_p (c : ResultCode) (d : BitVec 64) : (s.respond c d).p = s.p := rfl
@[simp] theorem State.respond_e (c : ResultCode) (d : BitVec 64) : (s.respond c d).e = s.e := rfl
@[simp] theorem State.respond_mod (c : ResultCode) (d : BitVec 64) : (s.respond c d).mod = s.mod := rfl
@[simp] theorem State.respond_wid (c : ResultCode) (d : BitVec 64) : (s.respond c d).wid = s.wid := rfl
@[simp] theorem State.respond_cfgv (c : ResultCode) (d : BitVec 64) : (s.respond c d).cfgv = s.cfgv := rfl
@[simp] theorem State.respond_fc (c : ResultCode) (d : BitVec 64) : (s.respond c d).fc = s.fc := rfl
@[simp] theorem State.respond_fd (c : ResultCode) (d : BitVec 64) : (s.respond c d).fd = s.fd := rfl
@[simp] theorem State.respond_fx (c : ResultCode) (d : BitVec 64) : (s.respond c d).fx = s.fx := rfl
@[simp] theorem State.respond_fo (c : ResultCode) (d : BitVec 64) : (s.respond c d).fo = s.fo := rfl
@[simp] theorem State.respond_fl (c : ResultCode) (d : BitVec 64) : (s.respond c d).fl = s.fl := rfl
@[simp] theorem State.respond_fn (c : ResultCode) (d : BitVec 64) : (s.respond c d).fn = s.fn := rfl
@[simp] theorem State.respond_t (c : ResultCode) (d : BitVec 64) : (s.respond c d).t = s.t := rfl
@[simp] theorem State.respond_halt (c : ResultCode) (d : BitVec 64) : (s.respond c d).halt = s.halt := rfl
@[simp] theorem State.respond_rsp (c : ResultCode) (d : BitVec 64) : (s.respond c d).rsp = some { status := c, data := d } := rfl
@[simp] theorem State.respond_inputs (c : ResultCode) (d : BitVec 64) : (s.respond c d).inputs = s.inputs := rfl
@[simp] theorem State.respond_upcoming (c : ResultCode) (d : BitVec 64) : (s.respond c d).upcoming = s.upcoming := rfl

@[simp] theorem State.clearSticky_p : s.clearSticky.p = s.p := rfl
@[simp] theorem State.clearSticky_e : s.clearSticky.e = s.e := rfl
@[simp] theorem State.clearSticky_mod : s.clearSticky.mod = s.mod := rfl
@[simp] theorem State.clearSticky_wid : s.clearSticky.wid = s.wid := rfl
@[simp] theorem State.clearSticky_cfgv : s.clearSticky.cfgv = s.cfgv := rfl
@[simp] theorem State.clearSticky_fc : s.clearSticky.fc = false := rfl
@[simp] theorem State.clearSticky_fd : s.clearSticky.fd = false := rfl
@[simp] theorem State.clearSticky_fx : s.clearSticky.fx = false := rfl
@[simp] theorem State.clearSticky_fo : s.clearSticky.fo = false := rfl
@[simp] theorem State.clearSticky_fl : s.clearSticky.fl = false := rfl
@[simp] theorem State.clearSticky_fn : s.clearSticky.fn = false := rfl
@[simp] theorem State.clearSticky_t : s.clearSticky.t = s.t := rfl
@[simp] theorem State.clearSticky_halt : s.clearSticky.halt = s.halt := rfl
@[simp] theorem State.clearSticky_rsp : s.clearSticky.rsp = s.rsp := rfl
@[simp] theorem State.clearSticky_inputs : s.clearSticky.inputs = s.inputs := rfl
@[simp] theorem State.clearSticky_upcoming : s.clearSticky.upcoming = s.upcoming := rfl

@[simp] theorem State.idleStep_p : s.idleStep.p = s.p := rfl
@[simp] theorem State.idleStep_e : s.idleStep.e = s.e := rfl
@[simp] theorem State.idleStep_mod : s.idleStep.mod = s.mod := rfl
@[simp] theorem State.idleStep_wid : s.idleStep.wid = s.wid := rfl
@[simp] theorem State.idleStep_cfgv : s.idleStep.cfgv = s.cfgv := rfl
@[simp] theorem State.idleStep_fc : s.idleStep.fc = s.fc := rfl
@[simp] theorem State.idleStep_fd : s.idleStep.fd = s.fd := rfl
@[simp] theorem State.idleStep_fx : s.idleStep.fx = s.fx := rfl
@[simp] theorem State.idleStep_fo : s.idleStep.fo = s.fo := rfl
@[simp] theorem State.idleStep_fl : s.idleStep.fl = s.fl := rfl
@[simp] theorem State.idleStep_fn : s.idleStep.fn = s.fn := rfl
@[simp] theorem State.idleStep_t : s.idleStep.t = s.t := rfl
@[simp] theorem State.idleStep_halt : s.idleStep.halt = s.halt := rfl
@[simp] theorem State.idleStep_rsp : s.idleStep.rsp = none := rfl
@[simp] theorem State.idleStep_inputs : s.idleStep.inputs = s.inputs := rfl
@[simp] theorem State.idleStep_upcoming : s.idleStep.upcoming = s.upcoming := rfl

@[simp] theorem State.applyReset_p : s.applyReset.p = State.reset.p := rfl
@[simp] theorem State.applyReset_e : s.applyReset.e = State.reset.e := rfl
@[simp] theorem State.applyReset_mod : s.applyReset.mod = State.reset.mod := rfl
@[simp] theorem State.applyReset_wid : s.applyReset.wid = State.reset.wid := rfl
@[simp] theorem State.applyReset_cfgv : s.applyReset.cfgv = State.reset.cfgv := rfl
@[simp] theorem State.applyReset_fc : s.applyReset.fc = State.reset.fc := rfl
@[simp] theorem State.applyReset_fd : s.applyReset.fd = State.reset.fd := rfl
@[simp] theorem State.applyReset_fx : s.applyReset.fx = State.reset.fx := rfl
@[simp] theorem State.applyReset_fo : s.applyReset.fo = State.reset.fo := rfl
@[simp] theorem State.applyReset_fl : s.applyReset.fl = State.reset.fl := rfl
@[simp] theorem State.applyReset_fn : s.applyReset.fn = State.reset.fn := rfl
@[simp] theorem State.applyReset_t : s.applyReset.t = State.reset.t := rfl
@[simp] theorem State.applyReset_halt : s.applyReset.halt = State.reset.halt := rfl
@[simp] theorem State.applyReset_rsp : s.applyReset.rsp = State.reset.rsp := rfl
@[simp] theorem State.applyReset_inputs : s.applyReset.inputs = s.inputs := rfl
@[simp] theorem State.applyReset_upcoming : s.applyReset.upcoming = s.upcoming := rfl

@[simp] theorem State.recordFailure_p (f : Failure) : (s.recordFailure f).p = s.p := by cases f <;> rfl
@[simp] theorem State.recordFailure_e (f : Failure) : (s.recordFailure f).e = s.e := by cases f <;> rfl
@[simp] theorem State.recordFailure_mod (f : Failure) : (s.recordFailure f).mod = s.mod := by cases f <;> rfl
@[simp] theorem State.recordFailure_wid (f : Failure) : (s.recordFailure f).wid = s.wid := by cases f <;> rfl
@[simp] theorem State.recordFailure_cfgv (f : Failure) : (s.recordFailure f).cfgv = s.cfgv := by cases f <;> rfl
@[simp] theorem State.recordFailure_fc (f : Failure) : (s.recordFailure f).fc = (s.fc || f == .construction) := by cases f <;> simp [State.recordFailure]
@[simp] theorem State.recordFailure_fd (f : Failure) : (s.recordFailure f).fd = (s.fd || f == .domain) := by cases f <;> simp [State.recordFailure]
@[simp] theorem State.recordFailure_fx (f : Failure) : (s.recordFailure f).fx = (s.fx || f == .xdomain) := by cases f <;> simp [State.recordFailure]
@[simp] theorem State.recordFailure_fo (f : Failure) : (s.recordFailure f).fo = (s.fo || f == .overflow) := by cases f <;> simp [State.recordFailure]
@[simp] theorem State.recordFailure_fl (f : Failure) : (s.recordFailure f).fl = (s.fl || f == .illegal) := by cases f <;> simp [State.recordFailure]
@[simp] theorem State.recordFailure_fn (f : Failure) : (s.recordFailure f).fn = (s.fn || f == .noField) := by cases f <;> simp [State.recordFailure]
@[simp] theorem State.recordFailure_t (f : Failure) : (s.recordFailure f).t = s.t := by cases f <;> rfl
@[simp] theorem State.recordFailure_halt (f : Failure) : (s.recordFailure f).halt = (s.halt || f == .invariant) := by cases f <;> simp [State.recordFailure]
@[simp] theorem State.recordFailure_rsp (f : Failure) : (s.recordFailure f).rsp = s.rsp := by cases f <;> rfl
@[simp] theorem State.recordFailure_inputs (f : Failure) : (s.recordFailure f).inputs = s.inputs := by cases f <;> rfl
@[simp] theorem State.recordFailure_upcoming (f : Failure) : (s.recordFailure f).upcoming = s.upcoming := by cases f <;> rfl

@[simp] theorem State.nextInputs_p : s.nextInputs.p = s.p := by
  simp only [State.nextInputs]; cases s.upcoming <;> rfl
@[simp] theorem State.nextInputs_e : s.nextInputs.e = s.e := by
  simp only [State.nextInputs]; cases s.upcoming <;> rfl
@[simp] theorem State.nextInputs_mod : s.nextInputs.mod = s.mod := by
  simp only [State.nextInputs]; cases s.upcoming <;> rfl
@[simp] theorem State.nextInputs_wid : s.nextInputs.wid = s.wid := by
  simp only [State.nextInputs]; cases s.upcoming <;> rfl
@[simp] theorem State.nextInputs_cfgv : s.nextInputs.cfgv = s.cfgv := by
  simp only [State.nextInputs]; cases s.upcoming <;> rfl
@[simp] theorem State.nextInputs_fc : s.nextInputs.fc = s.fc := by
  simp only [State.nextInputs]; cases s.upcoming <;> rfl
@[simp] theorem State.nextInputs_fd : s.nextInputs.fd = s.fd := by
  simp only [State.nextInputs]; cases s.upcoming <;> rfl
@[simp] theorem State.nextInputs_fx : s.nextInputs.fx = s.fx := by
  simp only [State.nextInputs]; cases s.upcoming <;> rfl
@[simp] theorem State.nextInputs_fo : s.nextInputs.fo = s.fo := by
  simp only [State.nextInputs]; cases s.upcoming <;> rfl
@[simp] theorem State.nextInputs_fl : s.nextInputs.fl = s.fl := by
  simp only [State.nextInputs]; cases s.upcoming <;> rfl
@[simp] theorem State.nextInputs_fn : s.nextInputs.fn = s.fn := by
  simp only [State.nextInputs]; cases s.upcoming <;> rfl
@[simp] theorem State.nextInputs_t : s.nextInputs.t = s.t := by
  simp only [State.nextInputs]; cases s.upcoming <;> rfl
@[simp] theorem State.nextInputs_halt : s.nextInputs.halt = s.halt := by
  simp only [State.nextInputs]; cases s.upcoming <;> rfl
@[simp] theorem State.nextInputs_rsp : s.nextInputs.rsp = s.rsp := by
  simp only [State.nextInputs]; cases s.upcoming <;> rfl
/-- The levels driven next: the head of what the host has left, else nothing presented. -/
theorem State.nextInputs_inputs : s.nextInputs.inputs =
    match s.upcoming with
    | [] => { s.inputs with rst := false, cmdValid := false }
    | w :: _ => w := by
  simp only [State.nextInputs]; cases s.upcoming <;> rfl
theorem State.nextInputs_upcoming : s.nextInputs.upcoming = s.upcoming.tail := by
  simp only [State.nextInputs]; cases s.upcoming <;> simp

@[simp] theorem State.withFetchWord_p (n w : Nat) : (s.withFetchWord n w).p = s.p := rfl
@[simp] theorem State.withFetchWord_e (n w : Nat) : (s.withFetchWord n w).e = s.e := rfl
@[simp] theorem State.withFetchWord_mod (n w : Nat) : (s.withFetchWord n w).mod = s.mod := rfl
@[simp] theorem State.withFetchWord_wid (n w : Nat) : (s.withFetchWord n w).wid = s.wid := rfl
@[simp] theorem State.withFetchWord_cfgv (n w : Nat) : (s.withFetchWord n w).cfgv = s.cfgv := rfl
@[simp] theorem State.withFetchWord_fc (n w : Nat) : (s.withFetchWord n w).fc = s.fc := rfl
@[simp] theorem State.withFetchWord_fd (n w : Nat) : (s.withFetchWord n w).fd = s.fd := rfl
@[simp] theorem State.withFetchWord_fx (n w : Nat) : (s.withFetchWord n w).fx = s.fx := rfl
@[simp] theorem State.withFetchWord_fo (n w : Nat) : (s.withFetchWord n w).fo = s.fo := rfl
@[simp] theorem State.withFetchWord_fl (n w : Nat) : (s.withFetchWord n w).fl = s.fl := rfl
@[simp] theorem State.withFetchWord_fn (n w : Nat) : (s.withFetchWord n w).fn = s.fn := rfl
@[simp] theorem State.withFetchWord_t (n w : Nat) : (s.withFetchWord n w).t = s.t := rfl
@[simp] theorem State.withFetchWord_halt (n w : Nat) : (s.withFetchWord n w).halt = s.halt := rfl
@[simp] theorem State.withFetchWord_rsp (n w : Nat) : (s.withFetchWord n w).rsp = s.rsp := rfl
@[simp] theorem State.withFetchWord_upcoming (n w : Nat) : (s.withFetchWord n w).upcoming = s.upcoming := rfl

@[simp] theorem State.withFetchWord_inputs (n w : Nat) :
    (s.withFetchWord n w).inputs =
      { s.inputs with rst := false, cmdValid := true, cmdWord := BitVec.ofNat 32 (w % 2 ^ n) } := rfl

end Writes

section Reads
variable (s : State)

/-- A read of a P register after a write of one. -/
theorem State.readP_writeP (i j : PReg) (v : Poly) : (s.writeP i v).readP j = if i = j then v else s.readP j := by
  simp only [State.readP, State.writeP, Vector.getElem_set, BitVec.toNat_inj]

@[simp] theorem State.readP_writeP_self (i : PReg) (v : Poly) : (s.writeP i v).readP i = v := by
  simp [State.readP_writeP]

theorem State.readP_writeP_ne (i j : PReg) (v : Poly) (h : i ≠ j) : (s.writeP i v).readP j = s.readP j := by
  simp [State.readP_writeP, h]

/-- A read of an E register after a write of one. -/
theorem State.readE_writeE (i j : EReg) (x : Element) : (s.writeE i x).readE j = if i = j then x else s.readE j := by
  simp only [State.readE, State.writeE, Vector.getElem_set, BitVec.toNat_inj]

@[simp] theorem State.readE_writeE_self (i : EReg) (x : Element) : (s.writeE i x).readE i = x := by
  simp [State.readE_writeE]

theorem State.readE_writeE_ne (i j : EReg) (x : Element) (h : i ≠ j) : (s.writeE i x).readE j = s.readE j := by
  simp [State.readE_writeE, h]

@[simp] theorem State.readP_writeE (i : EReg) (x : Element) (j : PReg) : (s.writeE i x).readP j = s.readP j := rfl
@[simp] theorem State.readP_respond (c : ResultCode) (d : BitVec 64) (j : PReg) : (s.respond c d).readP j = s.readP j := rfl
@[simp] theorem State.readP_clearSticky (j : PReg) : s.clearSticky.readP j = s.readP j := rfl
@[simp] theorem State.readP_idleStep (j : PReg) : s.idleStep.readP j = s.readP j := rfl
@[simp] theorem State.readP_recordFailure (f : Failure) (j : PReg) : (s.recordFailure f).readP j = s.readP j := by cases f <;> rfl
@[simp] theorem State.readP_nextInputs (j : PReg) : s.nextInputs.readP j = s.readP j := by simp [State.readP]
@[simp] theorem State.readE_writeP (i : PReg) (v : Poly) (j : EReg) : (s.writeP i v).readE j = s.readE j := rfl
@[simp] theorem State.readE_respond (c : ResultCode) (d : BitVec 64) (j : EReg) : (s.respond c d).readE j = s.readE j := rfl
@[simp] theorem State.readE_clearSticky (j : EReg) : s.clearSticky.readE j = s.readE j := rfl
@[simp] theorem State.readE_idleStep (j : EReg) : s.idleStep.readE j = s.readE j := rfl
@[simp] theorem State.readE_recordFailure (f : Failure) (j : EReg) : (s.recordFailure f).readE j = s.readE j := by cases f <;> rfl
@[simp] theorem State.readE_nextInputs (j : EReg) : s.nextInputs.readE j = s.readE j := by simp [State.readE]

@[simp] theorem State.readP_reset (j : PReg) : State.reset.readP j = 0#64 := by
  simp [State.readP, State.reset]

@[simp] theorem State.readE_reset (j : EReg) : State.reset.readE j = { val := 0#64, mod := 0#64 } := by
  simp [State.readE, State.reset]

/-- Two states with the same P registers read the same (what a frame over `readP` says of the file). -/
theorem State.p_eq_of_readP (s t : State) (h : ∀ j, s.readP j = t.readP j) : s.p = t.p := by
  apply Vector.ext
  intro n hn
  simpa [State.readP, Nat.mod_eq_of_lt hn] using h (BitVec.ofNat 3 n)

end Reads

end Sys2Proof.Machine
end

