-- ==== Sys2Proof/Laws/Ops.lean ====
section
/-! SUPPORT. What each shared operation can do, said once: the prologue, the result forms, a failure, the step's glue. -/

namespace Sys2Proof.Machine

section Failing
variable (s : State) (f : Failure)

@[simp] theorem takeFailure_p : (takeFailure f s).p = s.p := by simp [takeFailure]
@[simp] theorem takeFailure_e : (takeFailure f s).e = s.e := by simp [takeFailure]
@[simp] theorem takeFailure_mod : (takeFailure f s).mod = s.mod := by simp [takeFailure]
@[simp] theorem takeFailure_wid : (takeFailure f s).wid = s.wid := by simp [takeFailure]
@[simp] theorem takeFailure_cfgv : (takeFailure f s).cfgv = s.cfgv := by simp [takeFailure]
@[simp] theorem takeFailure_fc : (takeFailure f s).fc = (s.fc || f == .construction) := by simp [takeFailure]
@[simp] theorem takeFailure_fd : (takeFailure f s).fd = (s.fd || f == .domain) := by simp [takeFailure]
@[simp] theorem takeFailure_fx : (takeFailure f s).fx = (s.fx || f == .xdomain) := by simp [takeFailure]
@[simp] theorem takeFailure_fo : (takeFailure f s).fo = (s.fo || f == .overflow) := by simp [takeFailure]
@[simp] theorem takeFailure_fl : (takeFailure f s).fl = (s.fl || f == .illegal) := by simp [takeFailure]
@[simp] theorem takeFailure_fn : (takeFailure f s).fn = (s.fn || f == .noField) := by simp [takeFailure]
@[simp] theorem takeFailure_t : (takeFailure f s).t = s.t := by simp [takeFailure]
@[simp] theorem takeFailure_halt : (takeFailure f s).halt = (s.halt || f == .invariant) := by simp [takeFailure]
@[simp] theorem takeFailure_rsp : (takeFailure f s).rsp = some { status := f.code, data := 0#64 } := by simp [takeFailure]
@[simp] theorem takeFailure_inputs : (takeFailure f s).inputs = s.inputs := by simp [takeFailure]
@[simp] theorem takeFailure_upcoming : (takeFailure f s).upcoming = s.upcoming := by simp [takeFailure]
@[simp] theorem readP_takeFailure (j : PReg) : (takeFailure f s).readP j = s.readP j := by simp [takeFailure]
@[simp] theorem readE_takeFailure (j : EReg) : (takeFailure f s).readE j = s.readE j := by simp [takeFailure]

end Failing

/-- A failure's code is never `OK` nor `HALTED`. -/
theorem Failure.code_ne_ok (f : Failure) : f.code ≠ .ok := by cases f <;> decide

theorem Failure.code_ne_halted (f : Failure) : f.code ≠ .halted := by cases f <;> decide

theorem Failure.code_injective (f g : Failure) (h : f.code = g.code) : f = g := by
  cases f <;> cases g <;> first | rfl | exact absurd h (by decide)

section Prologue
variable {s t : State} {body : Except Failure (State × BitVec 64)}

/-- The prologue always answers a next state. -/
theorem runCommand_total (s : State) (body : Except Failure (State × BitVec 64)) : ∃ t, runCommand s body = .next t := by
  unfold runCommand
  split
  · exact ⟨_, rfl⟩
  · split <;> exact ⟨_, rfl⟩

/-- Everything the prologue can do. -/
theorem runCommand_cases (h : runCommand s body = .next t) :
    (s.halt = true ∧ t = answerHalted s) ∨
    (s.halt = false ∧ ∃ s' d, body = .ok (s', d) ∧ t = s'.respond .ok d) ∨
    (s.halt = false ∧ ∃ f, body = .error f ∧ t = takeFailure f s) := by
  unfold runCommand at h
  split at h
  · next hh => exact .inl ⟨hh, by cases h; rfl⟩
  · next hh =>
    have hf : s.halt = false := by simpa using hh
    split at h
    · next s' d => exact .inr (.inl ⟨hf, s', d, rfl, by cases h; rfl⟩)
    · next f => exact .inr (.inr ⟨hf, f, rfl, by cases h; rfl⟩)

theorem runCommand_halted (h : s.halt = true) : runCommand s body = .next (answerHalted s) := by
  simp [runCommand, h]

theorem runCommand_ok {s' : State} {d : BitVec 64} (h : s.halt = false) :
    runCommand s (.ok (s', d)) = .next (s'.respond .ok d) := by
  simp [runCommand, h]

theorem runCommand_error {f : Failure} (h : s.halt = false) : runCommand s (.error f) = .next (takeFailure f s) := by
  simp [runCommand, h]

theorem runCommand_silent {s' : State} (h : s.halt = false) :
    runCommand s (silent s') = .next (s'.respond .ok 0#64) := runCommand_ok h

theorem runFieldCommand_noField (h : s.halt = false) (hc : s.cfgv = false) :
    runFieldCommand s body = .next (takeFailure .noField s) := by
  simp [runFieldCommand, hc, runCommand_error h]

theorem runFieldCommand_configured (hc : s.cfgv = true) : runFieldCommand s body = runCommand s body := by
  simp [runFieldCommand, hc]

/-- Everything the Field prologue can do. -/
theorem runFieldCommand_cases (h : runFieldCommand s body = .next t) :
    (s.halt = true ∧ t = answerHalted s) ∨
    (s.halt = false ∧ s.cfgv = false ∧ t = takeFailure .noField s) ∨
    (s.halt = false ∧ s.cfgv = true ∧ runCommand s body = .next t) := by
  cases hh : s.halt with
  | true =>
    refine .inl ⟨rfl, ?_⟩
    rw [runFieldCommand, runCommand_halted hh] at h
    cases h; rfl
  | false =>
    cases hc : s.cfgv with
    | false =>
      rw [runFieldCommand_noField hh hc] at h
      exact .inr (.inl ⟨rfl, rfl, by cases h; rfl⟩)
    | true =>
      rw [runFieldCommand_configured hc] at h
      exact .inr (.inr ⟨rfl, rfl, h⟩)

end Prologue

section Results
variable {s : State}

@[simp] theorem resultP_ok (rd : PReg) (v : Poly) : resultP s rd (.ok v) = .ok (s.writeP rd v, 0#64) := rfl
@[simp] theorem resultP_error (rd : PReg) (f : Failure) : resultP s rd (.error f) = .error f := rfl

/-- Everything a P result can be. -/
theorem resultP_cases (rd : PReg) (r : Except Failure Poly) :
    (∃ v, r = .ok v ∧ resultP s rd r = .ok (s.writeP rd v, 0#64)) ∨ (∃ f, r = .error f ∧ resultP s rd r = .error f) := by
  cases r with
  | ok v => exact .inl ⟨v, rfl, rfl⟩
  | error f => exact .inr ⟨f, rfl, rfl⟩

@[simp] theorem resultField_ok (rd : PReg) (v : Poly) :
    resultField s rd (.ok v) = .ok (s.writeP rd (narrow s.width v), 0#64) := rfl
@[simp] theorem resultField_error (rd : PReg) (f : Failure) : resultField s rd (.error f) = .error f := rfl

/-- Everything a Field result can be. -/
theorem resultField_cases (rd : PReg) (r : Except Failure Poly) :
    (∃ v, r = .ok v ∧ resultField s rd r = .ok (s.writeP rd (narrow s.width v), 0#64)) ∨
    (∃ f, r = .error f ∧ resultField s rd r = .error f) := by
  cases r with
  | ok v => exact .inl ⟨v, rfl, rfl⟩
  | error f => exact .inr ⟨f, rfl, rfl⟩

@[simp] theorem resultE_ok (rd : EReg) (m v : Poly) :
    resultE s rd m (.ok v) = .ok (s.writeE rd { val := v, mod := m }, 0#64) := rfl
@[simp] theorem resultE_error (rd : EReg) (m : Poly) (f : Failure) : resultE s rd m (.error f) = .error f := rfl

/-- Everything an E result can be. -/
theorem resultE_cases (rd : EReg) (m : Poly) (r : Except Failure Poly) :
    (∃ v, r = .ok v ∧ resultE s rd m r = .ok (s.writeE rd { val := v, mod := m }, 0#64)) ∨
    (∃ f, r = .error f ∧ resultE s rd m r = .error f) := by
  cases r with
  | ok v => exact .inl ⟨v, rfl, rfl⟩
  | error f => exact .inr ⟨f, rfl, rfl⟩

theorem sameModulus_eq {a b : Element} {body : Except Failure (State × BitVec 64)} (h : a.mod = b.mod) :
    sameModulus a b body = body := by simp [sameModulus, h]

theorem sameModulus_ne {a b : Element} {body : Except Failure (State × BitVec 64)} (h : a.mod ≠ b.mod) :
    sameModulus a b body = .error .xdomain := by simp [sameModulus, h]

end Results

section Step
variable {s t : State} {o : Outcome}

@[simp] theorem advance_next (s : State) : advance (.next s) = .next s.nextInputs := rfl

/-- Everything the end of a step can answer next. -/
theorem advance_cases (h : advance o = .next t) : ∃ u, o = .next u ∧ t = u.nextInputs := by
  cases o with
  | next u => exact ⟨u, rfl, by cases h; rfl⟩
  | fault r => cases h
  | refused r => cases h

theorem illegalCommand_running (h : s.halt = false) : illegalCommand s = .next (takeFailure .illegal s) :=
  runCommand_error h

theorem illegalCommand_halted (h : s.halt = true) : illegalCommand s = .next (answerHalted s) :=
  runCommand_halted h

theorem step_reset (h : s.inputs.rst = true) : step s = .next s.applyReset.nextInputs := by
  simp [step, h]

theorem step_idle (h : s.inputs.rst = false) (hv : s.inputs.cmdValid = false) : step s = .next s.idleStep.nextInputs := by
  simp [step, h, hv]

theorem step_command (h : s.inputs.rst = false) (hv : s.inputs.cmdValid = true) : step s = advance (acceptCommand s) := by
  simp [step, h, hv]

theorem acceptCommand_legal {i : Instr} (h : decode s.inputs.cmdWord = .ok i) : acceptCommand s = exec i s := by
  simp [acceptCommand, State.fetch, h]

theorem acceptCommand_illegal {x : Illegal} (h : decode s.inputs.cmdWord = .error x) :
    acceptCommand s = illegalCommand s := by
  simp [acceptCommand, State.fetch, h]

/-- Everything a step can answer next: a reset, an idle step, a command, an illegal word. -/
theorem step_cases (h : step s = .next t) :
    (s.inputs.rst = true ∧ t = s.applyReset.nextInputs) ∨
    (s.inputs.rst = false ∧ s.inputs.cmdValid = false ∧ t = s.idleStep.nextInputs) ∨
    (s.inputs.rst = false ∧ s.inputs.cmdValid = true ∧
      ((∃ i u, decode s.inputs.cmdWord = .ok i ∧ exec i s = .next u ∧ t = u.nextInputs) ∨
       (∃ x u, decode s.inputs.cmdWord = .error x ∧ illegalCommand s = .next u ∧ t = u.nextInputs))) := by
  cases hr : s.inputs.rst with
  | true => rw [step_reset hr] at h; exact .inl ⟨rfl, by cases h; rfl⟩
  | false =>
    cases hv : s.inputs.cmdValid with
    | false => rw [step_idle hr hv] at h; exact .inr (.inl ⟨rfl, rfl, by cases h; rfl⟩)
    | true =>
      rw [step_command hr hv] at h
      obtain ⟨u, hu, rfl⟩ := advance_cases h
      refine .inr (.inr ⟨rfl, rfl, ?_⟩)
      cases hd : decode s.inputs.cmdWord with
      | ok i => rw [acceptCommand_legal hd] at hu; exact .inl ⟨i, u, rfl, hu, rfl⟩
      | error x => rw [acceptCommand_illegal hd] at hu; exact .inr ⟨x, u, rfl, hu, rfl⟩

end Step

end Sys2Proof.Machine
end

