-- ==== Sys2Proof/Laws/PerInstr.lean ====
section
/-! SUPPORT. Statements about every command, one lemma per constructor. -/

namespace Sys2Proof.Laws.EncodeMatchesRow

/-- The word of a command has the fixed bits of its row: "a word `w` has the format of opcode `c` when
`(w and mask) = (c << 24)`" (R56). -/
def Statement (i : Instr) : Prop := encode i &&& i.format.mask = i.opcode.setWidth 32 <<< 24

theorem nop : Statement .nop := by
  rw [Statement, shiftOpcode_eq_packWord, encode_eq_packWord, Format.mask_eq_packWord]
  simp [Instr.fields, Instr.format, Instr.opcode, packWord_and]

theorem ldi (rd : PReg) : Statement (.ldi rd) := by
  rw [Statement, shiftOpcode_eq_packWord, encode_eq_packWord, Format.mask_eq_packWord]
  simp [Instr.fields, Instr.format, Instr.opcode, packWord_and]

theorem mov (rd ra : PReg) : Statement (.mov rd ra) := by
  rw [Statement, shiftOpcode_eq_packWord, encode_eq_packWord, Format.mask_eq_packWord]
  simp [Instr.fields, Instr.format, Instr.opcode, packWord_and]

theorem rdp (ra : PReg) : Statement (.rdp ra) := by
  rw [Statement, shiftOpcode_eq_packWord, encode_eq_packWord, Format.mask_eq_packWord]
  simp [Instr.fields, Instr.format, Instr.opcode, packWord_and]

theorem ldc (rd : PReg) (k : BitVec 6) : Statement (.ldc rd k) := by
  rw [Statement, shiftOpcode_eq_packWord, encode_eq_packWord, Format.mask_eq_packWord]
  simp [Instr.fields, Instr.format, Instr.opcode, packWord_and, kImm_and]

theorem rdst : Statement .rdst := by
  rw [Statement, shiftOpcode_eq_packWord, encode_eq_packWord, Format.mask_eq_packWord]
  simp [Instr.fields, Instr.format, Instr.opcode, packWord_and]

theorem clrf : Statement .clrf := by
  rw [Statement, shiftOpcode_eq_packWord, encode_eq_packWord, Format.mask_eq_packWord]
  simp [Instr.fields, Instr.format, Instr.opcode, packWord_and]

theorem padd (rd ra rb : PReg) : Statement (.padd rd ra rb) := by
  rw [Statement, shiftOpcode_eq_packWord, encode_eq_packWord, Format.mask_eq_packWord]
  simp [Instr.fields, Instr.format, Instr.opcode, packWord_and]

theorem pmul (rd ra rb : PReg) : Statement (.pmul rd ra rb) := by
  rw [Statement, shiftOpcode_eq_packWord, encode_eq_packWord, Format.mask_eq_packWord]
  simp [Instr.fields, Instr.format, Instr.opcode, packWord_and]

theorem pdiv (rd rc ra rb : PReg) : Statement (.pdiv rd rc ra rb) := by
  rw [Statement, shiftOpcode_eq_packWord, encode_eq_packWord, Format.mask_eq_packWord]
  simp [Instr.fields, Instr.format, Instr.opcode, packWord_and]

theorem pmod (rd ra rb : PReg) : Statement (.pmod rd ra rb) := by
  rw [Statement, shiftOpcode_eq_packWord, encode_eq_packWord, Format.mask_eq_packWord]
  simp [Instr.fields, Instr.format, Instr.opcode, packWord_and]

theorem pexp (rd ra rb rc : PReg) : Statement (.pexp rd ra rb rc) := by
  rw [Statement, shiftOpcode_eq_packWord, encode_eq_packWord, Format.mask_eq_packWord]
  simp [Instr.fields, Instr.format, Instr.opcode, packWord_and]

theorem pdeg (rd ra : PReg) : Statement (.pdeg rd ra) := by
  rw [Statement, shiftOpcode_eq_packWord, encode_eq_packWord, Format.mask_eq_packWord]
  simp [Instr.fields, Instr.format, Instr.opcode, packWord_and]

theorem pford (rd ra : PReg) : Statement (.pford rd ra) := by
  rw [Statement, shiftOpcode_eq_packWord, encode_eq_packWord, Format.mask_eq_packWord]
  simp [Instr.fields, Instr.format, Instr.opcode, packWord_and]

theorem fcfg (ra : PReg) (wc : BitVec 2) : Statement (.fcfg ra wc) := by
  rw [Statement, shiftOpcode_eq_packWord, encode_eq_packWord, Format.mask_eq_packWord]
  simp [Instr.fields, Instr.format, Instr.opcode, packWord_and, wcImm_and]

theorem ford (rd : PReg) : Statement (.ford rd) := by
  rw [Statement, shiftOpcode_eq_packWord, encode_eq_packWord, Format.mask_eq_packWord]
  simp [Instr.fields, Instr.format, Instr.opcode, packWord_and]

theorem fgen (rd ra : PReg) : Statement (.fgen rd ra) := by
  rw [Statement, shiftOpcode_eq_packWord, encode_eq_packWord, Format.mask_eq_packWord]
  simp [Instr.fields, Instr.format, Instr.opcode, packWord_and]

theorem fadd (rd ra rb : PReg) : Statement (.fadd rd ra rb) := by
  rw [Statement, shiftOpcode_eq_packWord, encode_eq_packWord, Format.mask_eq_packWord]
  simp [Instr.fields, Instr.format, Instr.opcode, packWord_and]

theorem fmul (rd ra rb : PReg) : Statement (.fmul rd ra rb) := by
  rw [Statement, shiftOpcode_eq_packWord, encode_eq_packWord, Format.mask_eq_packWord]
  simp [Instr.fields, Instr.format, Instr.opcode, packWord_and]

theorem finv (rd ra : PReg) : Statement (.finv rd ra) := by
  rw [Statement, shiftOpcode_eq_packWord, encode_eq_packWord, Format.mask_eq_packWord]
  simp [Instr.fields, Instr.format, Instr.opcode, packWord_and]

theorem fdiv (rd ra rb : PReg) : Statement (.fdiv rd ra rb) := by
  rw [Statement, shiftOpcode_eq_packWord, encode_eq_packWord, Format.mask_eq_packWord]
  simp [Instr.fields, Instr.format, Instr.opcode, packWord_and]

theorem fexp (rd ra rb : PReg) : Statement (.fexp rd ra rb) := by
  rw [Statement, shiftOpcode_eq_packWord, encode_eq_packWord, Format.mask_eq_packWord]
  simp [Instr.fields, Instr.format, Instr.opcode, packWord_and]

theorem faddv (rd : PReg) (mask : BitVec 8) : Statement (.faddv rd mask) := by
  rw [Statement, shiftOpcode_eq_packWord, encode_eq_packWord, Format.mask_eq_packWord]
  simp [Instr.fields, Instr.format, Instr.opcode, packWord_and, maskImm_and]

theorem fmulv (rd : PReg) (mask : BitVec 8) : Statement (.fmulv rd mask) := by
  rw [Statement, shiftOpcode_eq_packWord, encode_eq_packWord, Format.mask_eq_packWord]
  simp [Instr.fields, Instr.format, Instr.opcode, packWord_and, maskImm_and]

theorem fgetm (rd : PReg) : Statement (.fgetm rd) := by
  rw [Statement, shiftOpcode_eq_packWord, encode_eq_packWord, Format.mask_eq_packWord]
  simp [Instr.fields, Instr.format, Instr.opcode, packWord_and]

theorem emk (rd : EReg) (ra rb : PReg) : Statement (.emk rd ra rb) := by
  rw [Statement, shiftOpcode_eq_packWord, encode_eq_packWord, Format.mask_eq_packWord]
  simp [Instr.fields, Instr.format, Instr.opcode, packWord_and]

theorem egen (rd : EReg) (ra rb : PReg) : Statement (.egen rd ra rb) := by
  rw [Statement, shiftOpcode_eq_packWord, encode_eq_packWord, Format.mask_eq_packWord]
  simp [Instr.fields, Instr.format, Instr.opcode, packWord_and]

theorem eget (rd : PReg) (ra : EReg) : Statement (.eget rd ra) := by
  rw [Statement, shiftOpcode_eq_packWord, encode_eq_packWord, Format.mask_eq_packWord]
  simp [Instr.fields, Instr.format, Instr.opcode, packWord_and]

theorem egetm (rd : PReg) (ra : EReg) : Statement (.egetm rd ra) := by
  rw [Statement, shiftOpcode_eq_packWord, encode_eq_packWord, Format.mask_eq_packWord]
  simp [Instr.fields, Instr.format, Instr.opcode, packWord_and]

theorem emul (rd ra rb : EReg) : Statement (.emul rd ra rb) := by
  rw [Statement, shiftOpcode_eq_packWord, encode_eq_packWord, Format.mask_eq_packWord]
  simp [Instr.fields, Instr.format, Instr.opcode, packWord_and]

theorem ediv (rd ra rb : EReg) : Statement (.ediv rd ra rb) := by
  rw [Statement, shiftOpcode_eq_packWord, encode_eq_packWord, Format.mask_eq_packWord]
  simp [Instr.fields, Instr.format, Instr.opcode, packWord_and]

theorem einv (rd ra : EReg) : Statement (.einv rd ra) := by
  rw [Statement, shiftOpcode_eq_packWord, encode_eq_packWord, Format.mask_eq_packWord]
  simp [Instr.fields, Instr.format, Instr.opcode, packWord_and]

theorem eexp (rd ra : EReg) (rb : PReg) : Statement (.eexp rd ra rb) := by
  rw [Statement, shiftOpcode_eq_packWord, encode_eq_packWord, Format.mask_eq_packWord]
  simp [Instr.fields, Instr.format, Instr.opcode, packWord_and]

theorem eeq (ra rb : EReg) : Statement (.eeq ra rb) := by
  rw [Statement, shiftOpcode_eq_packWord, encode_eq_packWord, Format.mask_eq_packWord]
  simp [Instr.fields, Instr.format, Instr.opcode, packWord_and]

theorem eisz (ra : EReg) : Statement (.eisz ra) := by
  rw [Statement, shiftOpcode_eq_packWord, encode_eq_packWord, Format.mask_eq_packWord]
  simp [Instr.fields, Instr.format, Instr.opcode, packWord_and]

theorem eis1 (ra : EReg) : Statement (.eis1 ra) := by
  rw [Statement, shiftOpcode_eq_packWord, encode_eq_packWord, Format.mask_eq_packWord]
  simp [Instr.fields, Instr.format, Instr.opcode, packWord_and]

end Sys2Proof.Laws.EncodeMatchesRow
end

