-- ==== Sys2Proof/Tests/Slice0.lean ====
section
/-! SUPPORT. Tests and witnesses. Expected values are the spec's: the Example clauses of the command rules and the tables of
spec/95_test_vectors.md to spec/97_test_vectors_field.md. Each obligation that has hypotheses has a witness below. -/

namespace Sys2Proof.Tests

set_option Elab.async false

open Sys2Proof Sys2Proof.Machine Sys2Proof.Safety

section Helpers

/-- A running state with these values in `P[0]`, `P[1]`, ... -/
def withP (vs : List Poly) (s : State) : State :=
  vs.zipIdx.foldl (fun s x => s.writeP (BitVec.ofNat 3 x.2) x.1) s

/-- The state with these elements in `E[0]`, `E[1]`, ... -/
def withE (vs : List (Poly × Poly)) (s : State) : State :=
  vs.zipIdx.foldl (fun s x => s.writeE (BitVec.ofNat 3 x.2) { val := x.1.1, mod := x.1.2 }) s

/-- The state with this Field constructed. -/
def withField (m : Poly) (wc : BitVec 2) (s : State) : State := { s with mod := m, wid := wc, cfgv := true }

/-- The state with this word presented on the port. -/
def issue (w : CmdWord) (s : State) : State :=
  { s with inputs := { rst := false, cmdValid := true, cmdWord := w, cmdData := 0x11D#64 } }

/-- The outcome is a next state of which `p` holds. -/
def nextWith (o : Outcome) (p : State → Bool) : Bool :=
  match o with
  | .next t => p t
  | .fault _ => false
  | .refused _ => false

theorem nextWith_iff {o : Outcome} {p : State → Bool} (h : nextWith o p = true) : ∃ t, o = .next t ∧ p t = true := by
  cases o with
  | next t => exact ⟨t, rfl, h⟩
  | fault r => cases h
  | refused r => cases h

/-- One step with word `w` from `s` puts `v` in `P[r]` and answers OK. -/
def stepP (w : CmdWord) (s : State) (r : PReg) (v : Poly) : Bool :=
  nextWith (step (issue w s)) fun t => t.readP r == v && t.rsp == some { status := .ok, data := 0#64 }

/-- One step with word `w` from `s` puts `(v, m)` in `E[r]` and answers OK. -/
def stepE (w : CmdWord) (s : State) (r : EReg) (v m : Poly) : Bool :=
  nextWith (step (issue w s)) fun t => t.readE r == { val := v, mod := m } && t.rsp == some { status := .ok, data := 0#64 }

/-- One step with word `w` from `s` answers `c` with `d`; the general registers stay. -/
def stepAnswers (w : CmdWord) (s : State) (c : ResultCode) (d : BitVec 64) : Bool :=
  nextWith (step (issue w s)) fun t => t.p == s.p && t.e == s.e && t.rsp == some { status := c, data := d }

/-- `exec` answers code `c`. -/
def answers (i : Instr) (s : State) (c : ResultCode) : Bool :=
  nextWith (exec i s) fun t => t.rsp.map Response.status == some c

/-- The reset state running the Field of scenario A: `MOD = 0x11D`, `W = 8`. -/
def fieldA : State := withField 0x11D#64 0#2 State.reset

/-- The halt state. -/
def stopped : State := { State.reset with halt := true }

end Helpers

section WellFormed

theorem test_wf_refuses_ldc : (Instr.ldc 0#3 1#6).wf = false ∧ (Instr.ldc 7#3 33#6).wf = false ∧
    (Instr.ldc 0#3 0#6).defect = some .catalogueDegree := by decide

theorem test_wf_refuses_pdiv : (Instr.pdiv 2#3 2#3 0#3 1#3).wf = false ∧
    (Instr.pdiv 0#3 0#3 0#3 0#3).defect = some .sameDestination := by decide

theorem test_wf_accepts_boundaries : (Instr.ldc 0#3 2#6).wf = true ∧ (Instr.ldc 0#3 32#6).wf = true ∧
    (Instr.pdiv 7#3 6#3 7#3 6#3).wf = true ∧ Instr.nop.wf = true := by decide

end WellFormed

section Decoding

/-- Section 2 of spec/95_test_vectors.md, the system and P rows. -/
theorem test_decode_system_polynomial :
    decode 0x00000000#32 = .ok .nop ∧ decode 0x01E00000#32 = .ok (.ldi 7#3) ∧
    decode 0x02540000#32 = .ok (.mov 2#3 5#3) ∧ decode 0x03140000#32 = .ok (.rdp 5#3) ∧
    decode 0x04E00002#32 = .ok (.ldc 7#3 2#6) ∧ decode 0x05000000#32 = .ok .rdst ∧
    decode 0x06000000#32 = .ok .clrf ∧ decode 0x10408000#32 = .ok (.padd 2#3 0#3 1#3) ∧
    decode 0x11248000#32 = .ok (.pmul 1#3 1#3 1#3) ∧ decode 0x1240B000#32 = .ok (.pdiv 2#3 3#3 0#3 1#3) ∧
    decode 0x13408000#32 = .ok (.pmod 2#3 0#3 1#3) ∧ decode 0x1460A000#32 = .ok (.pexp 3#3 0#3 1#3 2#3) ∧
    decode 0x15200000#32 = .ok (.pdeg 1#3 0#3) ∧ decode 0x16200000#32 = .ok (.pford 1#3 0#3) := by decide +kernel

/-- Section 2 of spec/95_test_vectors.md, the Field rows. -/
theorem test_decode_field :
    decode 0x201C0003#32 = .ok (.fcfg 7#3 3#2) ∧ decode 0x21200000#32 = .ok (.ford 1#3) ∧
    decode 0x22B80000#32 = .ok (.fgen 5#3 6#3) ∧ decode 0x23808000#32 = .ok (.fadd 4#3 0#3 1#3) ∧
    decode 0x24408000#32 = .ok (.fmul 2#3 0#3 1#3) ∧ decode 0x25A00000#32 = .ok (.finv 5#3 0#3) ∧
    decode 0x26680000#32 = .ok (.fdiv 3#3 2#3 0#3) ∧ decode 0x27A30000#32 = .ok (.fexp 5#3 0#3 6#3) ∧
    decode 0x28800007#32 = .ok (.faddv 4#3 0x07#8) ∧ decode 0x29800024#32 = .ok (.fmulv 4#3 0x24#8) ∧
    decode 0x2A400000#32 = .ok (.fgetm 2#3) := by decide +kernel

/-- Section 2 of spec/95_test_vectors.md, the E rows. -/
theorem test_decode_element :
    decode 0x30038000#32 = .ok (.emk 0#3 0#3 7#3) ∧ decode 0x31D38000#32 = .ok (.egen 6#3 4#3 7#3) ∧
    decode 0x32480000#32 = .ok (.eget 2#3 2#3) ∧ decode 0x33680000#32 = .ok (.egetm 3#3 2#3) ∧
    decode 0x34408000#32 = .ok (.emul 2#3 0#3 1#3) ∧ decode 0x35680000#32 = .ok (.ediv 3#3 2#3 0#3) ∧
    decode 0x36800000#32 = .ok (.einv 4#3 0#3) ∧ decode 0x37A20000#32 = .ok (.eexp 5#3 0#3 4#3) ∧
    decode 0x380C8000#32 = .ok (.eeq 3#3 1#3) ∧ decode 0x391C0000#32 = .ok (.eisz 7#3) ∧
    decode 0x3A1C0000#32 = .ok (.eis1 7#3) := by decide +kernel

/-- The illegal rows of the same section, one of each kind. -/
theorem test_decode_illegal :
    decode 0x07000000#32 = .error (.unassignedOpcode 0x07#8) ∧ decode 0xFFFFFFFF#32 = .error (.unassignedOpcode 0xFF#8) ∧
    decode 0x00200000#32 = .error (.mustBeZero 0x00#8) ∧ decode 0x01040000#32 = .error (.mustBeZero 0x01#8) ∧
    decode 0x02408000#32 = .error (.mustBeZero 0x02#8) ∧ decode 0x03200000#32 = .error (.mustBeZero 0x03#8) ∧
    decode 0x04E00048#32 = .error (.mustBeZero 0x04#8) ∧ decode 0x10409000#32 = .error (.mustBeZero 0x10#8) ∧
    decode 0x1460A001#32 = .error (.mustBeZero 0x14#8) ∧ decode 0x201C0004#32 = .error (.mustBeZero 0x20#8) ∧
    decode 0x28800100#32 = .error (.mustBeZero 0x28#8) ∧ decode 0x38208000#32 = .error (.mustBeZero 0x38#8) ∧
    decode 0x04E00001#32 = .error (.operands .catalogueDegree) ∧
    decode 0x04E00021#32 = .error (.operands .catalogueDegree) ∧
    decode 0x12000000#32 = .error (.operands .sameDestination) := by decide +kernel

theorem test_decodeTableWord : decodeTableWord 32 0x12FF6000 = some (.pdiv 7#3 6#3 7#3 6#3) ∧
    decodeTableWord 32 0x3B000000 = none := by decide +kernel

/-- What the host places on the port is what the next step runs. -/
theorem test_withFetchWord :
    nextWith (step ((withP [0#64, 0#64, 0#64, 0#64, 0#64, 0x6D#64] State.reset).withFetchWord 32 0x03140000))
      (fun t => t.rsp == some { status := .ok, data := 0x6D#64 }) = true := by decide +kernel

end Decoding

section System

theorem test_nop : stepAnswers 0x00000000#32 fieldA .ok 0#64 = true := by decide +kernel

theorem test_ldi : stepP 0x01600000#32 State.reset 3#3 0x11D#64 = true := by decide +kernel

theorem test_mov : stepP 0x02400000#32 (withP [0xFFFFFFFFFFFFFFFF#64] State.reset) 2#3 0xFFFFFFFFFFFFFFFF#64 = true := by
  decide +kernel

theorem test_rd : stepAnswers 0x03040000#32 (withP [1#64, 0x6D#64] State.reset) .ok 0x6D#64 = true := by decide +kernel

/-- R79 Example: entry 16 is the one the document fixes. -/
theorem test_ldc : stepP 0x04E00010#32 State.reset 7#3 0x1100B#64 = true := by decide +kernel

/-- An open entry is loaded too, at both ends of the range; only its value is open. R123: `0x11B` is irreducible but no entry. -/
theorem test_ldc_open : nextWith (step (issue 0x04E00002#32 State.reset)) (fun t => t.rsp == some { status := .ok, data := 0#64 }) = true ∧
    nextWith (step (issue 0x04E00020#32 State.reset)) (fun t => t.rsp == some { status := .ok, data := 0#64 }) = true ∧
    admissibleEntry 3 0xB#64 = true ∧ noFactor 0x11B#64 = true ∧ admissibleEntry 8 0x11B#64 = false := by decide +kernel

/-- R80 Example. -/
theorem test_rdst :
    stepAnswers 0x05000000#32 { withField 0x1100B#64 1#2 State.reset with fo := true } .ok 0x608#64 = true := by
  decide +kernel

/-- R81 Example. -/
theorem test_clrf : nextWith (step (issue 0x06000000#32 { withField 0x1100B#64 1#2 State.reset with fo := true }))
    (fun t => t.statusWord == 0x600#32) = true := by decide +kernel

end System

section Polynomials

theorem test_padd : stepP 0x10408000#32 (withP [10#64, 5#64] State.reset) 2#3 15#64 = true := by decide +kernel

theorem test_pmul : stepP 0x11408000#32 (withP [0xBC#64, 0xDE#64] State.reset) 2#3 0x7CA8#64 = true := by decide +kernel

/-- S15 of spec/95_test_vectors.md. -/
theorem test_pmul_overflow :
    stepAnswers 0x11400000#32 (withP [0x100000000#64] State.reset) .overflow 0#64 = true := by decide +kernel

theorem test_pdiv : nextWith (step (issue 0x1240B000#32 (withP [0x7CA8#64, 0x11D#64] State.reset)))
    (fun t => t.readP 2#3 == 0x79#64 && t.readP 3#3 == 0x6D#64) = true := by decide +kernel

/-- Both destinations are sources (the word of section 2): all sources are read before either write (R21). -/
theorem test_pdiv_overlap :
    nextWith (step (issue 0x12FF6000#32 (withP [0#64, 0#64, 0#64, 0#64, 0#64, 0#64, 0x11D#64, 0x7CA8#64] State.reset)))
      (fun t => t.readP 7#3 == 0x79#64 && t.readP 6#3 == 0x6D#64) = true := by decide +kernel

theorem test_pmod : stepP 0x13408000#32 (withP [0x7CA8#64, 0x11D#64] State.reset) 2#3 0x6D#64 = true := by decide +kernel

theorem test_pexp : stepP 0x1460A000#32 (withP [2#64, 8#64, 0x11D#64] State.reset) 3#3 0x1D#64 = true := by decide +kernel

theorem test_pdeg : stepP 0x15200000#32 (withP [0x11D#64] State.reset) 1#3 8#64 = true := by decide +kernel

theorem test_pford : stepP 0x16200000#32 (withP [0x11D#64] State.reset) 1#3 0xFF#64 = true := by decide +kernel

end Polynomials

section Fields

/-- S8 of spec/95_test_vectors.md: degree 17 in a 16-bit field. -/
theorem test_fcfg : stepAnswers 0x20000001#32 (withP [0x20009#64] State.reset) .construction 0#64 = true ∧
    nextWith (step (issue 0x20000002#32 (withP [0x20009#64] State.reset)))
      (fun t => t.mod == 0x20009#64 && t.wid == 2#2 && t.cfgv) = true := by decide +kernel

theorem test_ford : stepP 0x21200000#32 fieldA 1#3 0x100#64 = true ∧
    stepAnswers 0x21200000#32 State.reset .noField 0#64 = true := by decide +kernel

theorem test_fgetm : stepP 0x2A400000#32 fieldA 2#3 0x11D#64 = true := by decide +kernel

/-- R138 Example: 8 and 263 = 8 + 255. -/
theorem test_fgen : stepP 0x22A00000#32 (withP [8#64] fieldA) 5#3 0x1D#64 = true ∧
    stepP 0x22A00000#32 (withP [263#64] fieldA) 5#3 0x1D#64 = true := by decide +kernel

theorem test_fadd : stepP 0x23808000#32 (withP [0x1BC#64, 0xFFFFFFFFFFFFFFDE#64] fieldA) 4#3 0x62#64 = true := by
  decide +kernel

theorem test_faddv : stepP 0x28800007#32 (withP [0x1234#64, 0x5678#64, 1#64] fieldA) 4#3 0x4D#64 = true ∧
    stepP 0x28800000#32 (withP [0x1234#64] fieldA) 4#3 0#64 = true := by decide +kernel

theorem test_fmul : stepP 0x24408000#32 (withP [0xBC#64, 0xDE#64] fieldA) 2#3 0x6D#64 = true := by decide +kernel

/-- S3 of spec/95_test_vectors.md for the mask form: 100 * 10 = 207. -/
theorem test_fmulv : stepP 0x29800003#32 (withP [100#64, 10#64] fieldA) 4#3 207#64 = true ∧
    stepP 0x29800007#32 (withP [100#64, 10#64] fieldA) 4#3 0#64 = true := by decide +kernel

theorem test_finv : stepP 0x25A00000#32 (withP [0xBC#64] fieldA) 5#3 0x95#64 = true := by decide +kernel

/-- S13 of spec/95_test_vectors.md: the fatal failure. -/
theorem test_finv_invariant : nextWith (step (issue 0x25A00000#32 (withP [3#64] (withField 0x11#64 0#2 State.reset))))
    (fun t => t.halt && t.statusWord == 0x200#32 && t.rsp == some { status := .invariant, data := 0#64 }) = true := by
  decide +kernel

theorem test_fdiv : stepP 0x26680000#32 (withP [0xBC#64, 0#64, 0x6D#64] fieldA) 3#3 0xDE#64 = true := by decide +kernel

/-- R149 Example: 3 and 258 = 3 + 255. -/
theorem test_fexp : stepP 0x27A08000#32 (withP [0xBC#64, 3#64] fieldA) 5#3 0xF2#64 = true ∧
    stepP 0x27A08000#32 (withP [0xBC#64, 258#64] fieldA) 5#3 0xF2#64 = true := by decide +kernel

end Fields

section Elements

/-- R171: the value is reduced by its modulus. -/
theorem test_emk : stepE 0x30008000#32 (withP [0x7CA8#64, 0x11D#64] State.reset) 0#3 0x6D#64 0x11D#64 = true := by
  decide +kernel

theorem test_egen : stepE 0x31C08000#32 (withP [8#64, 0x11D#64] State.reset) 6#3 0x1D#64 0x11D#64 = true := by decide +kernel

theorem test_eget : stepP 0x32440000#32 (withE [(0#64, 0#64), (0x6D#64, 0x11D#64)] State.reset) 2#3 0x6D#64 = true := by
  decide +kernel

theorem test_egetm : stepP 0x33640000#32 (withE [(0#64, 0#64), (0x6D#64, 0x11D#64)] State.reset) 3#3 0x11D#64 = true := by
  decide +kernel

/-- R176 Example, both halves of it. -/
theorem test_emul :
    stepE 0x34408000#32 (withE [(0xBC#64, 0x11D#64), (0xDE#64, 0x11D#64)] State.reset) 2#3 0x6D#64 0x11D#64 = true ∧
    stepAnswers 0x34408000#32 (withE [(0xBC#64, 0x11D#64), (0xDE#64, 0x11B#64)] State.reset) .xdomain 0#64 = true := by
  decide +kernel

/-- R180 Example, both halves of it. -/
theorem test_ediv :
    stepE 0x35640000#32 (withE [(0xBC#64, 0x11D#64), (0x6D#64, 0x11D#64)] State.reset) 3#3 0xDE#64 0x11D#64 = true ∧
    stepAnswers 0x35640000#32 (withE [(3#64, 0x11#64), (2#64, 0x11#64)] State.reset) .invariant 0#64 = true := by
  decide +kernel

theorem test_einv : stepE 0x36440000#32 (withE [(0#64, 0#64), (2#64, 0x11#64)] State.reset) 2#3 8#64 0x11#64 = true := by
  decide +kernel

theorem test_eexp : stepE 0x37A00000#32 (withP [3#64] (withE [(0xBC#64, 0x11D#64)] State.reset)) 5#3 0xF2#64 0x11D#64 = true := by
  decide +kernel

/-- R184 Example: equal values of different moduli are unequal. -/
theorem test_eeq :
    stepAnswers 0x38008000#32 (withE [(0xDE#64, 0x11D#64), (0xDE#64, 0x11B#64)] State.reset) .ok 0#64 = true ∧
    nextWith (step (issue 0x38008000#32 (withE [(0xDE#64, 0x11D#64), (0xDE#64, 0x11D#64)] State.reset)))
      (fun t => t.t && t.rsp == some { status := .ok, data := 1#64 }) = true := by decide +kernel

theorem test_eisz : stepAnswers 0x39000000#32 (withE [(0#64, 0x11D#64)] State.reset) .ok 1#64 = true ∧
    stepAnswers 0x39000000#32 (withE [(0xBC#64, 0x11D#64)] State.reset) .ok 0#64 = true := by decide +kernel

theorem test_eis1 : stepAnswers 0x3A000000#32 (withE [(1#64, 0x11D#64)] State.reset) .ok 1#64 = true ∧
    stepAnswers 0x3A000000#32 (withE [(0xBC#64, 0x11D#64)] State.reset) .ok 0#64 = true := by decide +kernel

end Elements

section Witnesses

theorem test_irreducible_7 : IrreduciblePoly 0x7#64 := (noFactor_iff _).1 (by decide +kernel)

theorem test_irreducible_B : IrreduciblePoly 0xB#64 := (noFactor_iff _).1 (by decide +kernel)

theorem test_irreducible_11D : IrreduciblePoly 0x11D#64 := (noFactor_iff _).1 (by decide +kernel)

/-- R139 Example: 2 has order 7 modulo `0xB`. -/
theorem test_primitive_B : PrimitiveTwo 0xB#64 := (generatorPrimitive_iff _).1 (by decide +kernel)

/-- DecodeOfEncodeIsTheCommand and EncodeOfDecodeIsTheWord, at the ends of the ranges of `k` and the masks. -/
theorem test_witness_encoding :
    (Instr.ldc 7#3 2#6).wf = true ∧ (Instr.ldc 7#3 32#6).wf = true ∧ (Instr.pdiv 7#3 6#3 7#3 6#3).wf = true ∧
    decode 0x04E00020#32 = .ok (.ldc 7#3 32#6) ∧ decode 0x280000FF#32 = .ok (.faddv 0#3 0xFF#8) := by decide +kernel

/-- LegalWordsAreExactlyTheOpcodeMap: a row with each condition met and not met. -/
theorem test_witness_rows :
    ((0x04#8, 0xFF1FFFC0#32) ∈ opcodeMap ∧ (0x12#8, 0xFF000FFF#32) ∈ opcodeMap) ∧
    (0x04E00002#32 : CmdWord) &&& 0xFF1FFFC0#32 = (0x04#8).setWidth 32 <<< 24 ∧
    ((0x04E00002#32 &&& 0x3F#32 : CmdWord)).toNat = 2 ∧ ((0x04E00021#32 &&& 0x3F#32 : CmdWord)).toNat = 33 ∧
    ((0x1240A000#32 : CmdWord) >>> 21) &&& 7#32 = (0x1240A000#32 >>> 12) &&& 7#32 ∧
    ((0x1240B000#32 : CmdWord) >>> 21) &&& 7#32 ≠ (0x1240B000#32 >>> 12) &&& 7#32 := by decide +kernel

/-- StepRunsTheDecodedCommand: a command on the port, with nothing after it and with a reset after it. -/
theorem test_witness_step :
    (issue 0x10408000#32 State.reset).inputs.rst = false ∧ (issue 0x10408000#32 State.reset).inputs.cmdValid = true ∧
    decode (issue 0x10408000#32 State.reset).inputs.cmdWord = .ok (.padd 2#3 0#3 1#3) ∧
    nextWith (step { issue 0x10408000#32 State.reset with upcoming := [{ PortInputs.idle with rst := true }] })
      (fun t => t.inputs.rst && t.upcoming == []) = true := by decide +kernel

/-- IllegalWordSetsOnlyFL: an illegal word in a running and in a halted state, ill-formed terms at the ends of their ranges. -/
theorem test_witness_illegal :
    decode (issue 0x3B000000#32 State.reset).inputs.cmdWord = .error (.unassignedOpcode 0x3B#8) ∧
    (issue 0x3B000000#32 State.reset).halt = false ∧ (issue 0x3B000000#32 stopped).halt = true ∧
    nextWith (step (issue 0x3B000000#32 State.reset))
      (fun t => t.fl && t.rsp == some { status := .illegal, data := 0#64 }) = true ∧
    nextWith (step (issue 0x3B000000#32 stopped))
      (fun t => !t.fl && t.rsp == some { status := .halted, data := 0#64 }) = true ∧
    (Instr.ldc 0#3 1#6).wf = false ∧ (Instr.ldc 0#3 33#6).wf = false ∧ (Instr.pdiv 2#3 2#3 0#3 1#3).wf = false ∧
    answers (.pdiv 2#3 2#3 0#3 1#3) State.reset .illegal = true := by decide +kernel

/-- HaltStateAnswersHaltedToEverything: a halted state, with a command and without one. -/
theorem test_witness_halted :
    stopped.halt = true ∧ (issue 0x06000000#32 stopped).inputs.cmdValid = true ∧ stopped.inputs.rst = false ∧
    (∃ t, step stopped = .next t ∧ t.rsp.isNone = true) := by
  refine ⟨rfl, rfl, rfl, nextWith_iff (p := fun t => t.rsp.isNone) (by decide +kernel)⟩

/-- ResetClearsEveryBit: a reset step, and steps without reset that keep `HALT` and `CFGV`. -/
theorem test_witness_reset :
    ({ stopped with inputs := { PortInputs.idle with rst := true } } : State).inputs.rst = true ∧
    (∃ t, step (issue 0x00000000#32 { fieldA with halt := true }) = .next t ∧ (t.halt && t.cfgv) = true) :=
  ⟨rfl, nextWith_iff (p := fun t => t.halt && t.cfgv) (by decide +kernel)⟩

/-- ResetStateIsAllZero and ResponseFollowsAcceptance: no command presented, with and without reset. -/
theorem test_witness_idle :
    PortInputs.idle.cmdValid = false ∧ ({ PortInputs.idle with rst := true } : PortInputs).cmdValid = false ∧
    State.reset.inputs.rst = false ∧ State.reset.inputs.cmdValid = false := by decide

/-- CommandsEndOnlyWithTheirListedCauses and FailuresSetOneBitAndNothingElse: each failing code from a well-formed command,
ILLEGAL from an ill-formed one. -/
theorem test_witness_failures :
    answers (.fcfg 0#3 0#2) (withP [0x20009#64] State.reset) .construction = true ∧
    answers (.pmod 0#3 0#3 1#3) State.reset .domain = true ∧
    answers (.emul 0#3 0#3 1#3) (withE [(0#64, 0x7#64)] State.reset) .xdomain = true ∧
    answers (.pmul 0#3 0#3 0#3) (withP [0x100000000#64] State.reset) .overflow = true ∧
    answers (.finv 0#3 0#3) (withP [3#64] (withField 0x11#64 0#2 State.reset)) .invariant = true ∧
    answers (.ldc 0#3 33#6) State.reset .illegal = true ∧
    answers (.ford 0#3) State.reset .noField = true ∧
    answers .nop State.reset .ok = true ∧ answers .nop stopped .halted = true := by decide +kernel

/-- FrameOfEveryCommand: a next state with the answer OK, for a command that writes no destination, one that writes a P
register, one that writes an E register. -/
theorem test_witness_frame :
    answers .nop State.reset .ok = true ∧ answers (.padd 2#3 0#3 1#3) State.reset .ok = true ∧
    answers (.emk 1#3 0#3 1#3) (withP [0x7CA8#64, 0x11D#64] State.reset) .ok = true ∧
    1#3 ∉ destP (.padd 2#3 0#3 1#3) ∧ 0#3 ∉ destE (.emk 1#3 0#3 1#3) ∧ writesT .nop = false := by decide +kernel

/-- StickyFlagsStayUntilClrfOrReset: every flag set, an idle step and a command that is not `CLRF`. -/
theorem test_witness_sticky :
    let s : State := { State.reset with fc := true, fd := true, fx := true, fo := true, fl := true, fn := true }
    s.inputs.cmdValid = false ∧ (issue 0x06000001#32 s).inputs.cmdWord ≠ 0x06000000#32 ∧
    (∃ t, step s = .next t ∧ (t.fc && t.fd && t.fx && t.fo && t.fl && t.fn) = true) ∧
    (∃ t, step (issue 0x06000001#32 s) = .next t ∧ (t.fc && t.fd && t.fx && t.fo && t.fl && t.fn) = true) :=
  ⟨rfl, by decide, nextWith_iff (p := fun t => t.fc && t.fd && t.fx && t.fo && t.fl && t.fn) (by decide +kernel),
    nextWith_iff (p := fun t => t.fc && t.fd && t.fx && t.fo && t.fl && t.fn) (by decide +kernel)⟩

/-- HaltOnlyAfterInvariant: a step that halts. -/
theorem test_witness_halts :
    let s := issue 0x25A00000#32 (withP [3#64] (withField 0x11#64 0#2 State.reset))
    s.halt = false ∧ ∃ t, step s = .next t ∧ t.halt = true :=
  ⟨by decide +kernel, nextWith_iff (p := fun t => t.halt) (by decide +kernel)⟩

/-- ResponseDataRule: the commands that answer data, one that answers none, a failure. -/
theorem test_witness_data :
    answers (.rdp 0#3) fieldA .ok = true ∧ answers .rdst fieldA .ok = true ∧ answers (.eeq 0#3 1#3) fieldA .ok = true ∧
    answers (.mov 0#3 0#3) fieldA .ok = true ∧ answers (.finv 0#3 0#3) fieldA .domain = true := by decide +kernel

/-- StepKeepsElementsReduced: a state whose elements are reduced, not all zero, and a step from it. -/
theorem test_witness_reduced :
    let s := issue 0x34408000#32 (withE [(0xBC#64, 0x11D#64), (0xDE#64, 0x11D#64)] State.reset)
    ElementsReduced s ∧ ∃ t, step s = .next t ∧ (t.readE 2#3 == { val := 0x6D#64, mod := 0x11D#64 }) = true :=
  ⟨by unfold ElementsReduced ElementReduced; decide +kernel,
    nextWith_iff (p := fun t => t.readE 2#3 == { val := 0x6D#64, mod := 0x11D#64 }) (by decide +kernel)⟩

/-- StepKeepsFieldCoherent: a Field at its width and a step that constructs another. -/
theorem test_witness_coherent :
    let s := issue 0x20000001#32 (withP [0x1100B#64] fieldA)
    FieldCoherent s ∧ FieldCoherent State.reset ∧ ∃ t, step s = .next t ∧ (t.mod == 0x1100B#64 && t.wid == 1#2) = true :=
  ⟨by unfold FieldCoherent; decide +kernel, by unfold FieldCoherent; decide +kernel,
    nextWith_iff (p := fun t => t.mod == 0x1100B#64 && t.wid == 1#2) (by decide +kernel)⟩

/-- The three noninterference statements: commands of each kind they cover answer a next state. -/
theorem test_witness_noninterference :
    (∃ u, exec (.pmul 0#3 0#3 0#3) fieldA = .next u ∧ u.rsp.isSome = true) ∧
    (∃ u, exec (.emk 0#3 0#3 0#3) fieldA = .next u ∧ u.rsp.isSome = true) ∧
    Instr.pmul 0#3 0#3 0#3 ≠ .rdst ∧ (Instr.pmul 0#3 0#3 0#3).opcode.toNat < 0x20 ∧
    0x30 ≤ (Instr.emk 0#3 0#3 0#3).opcode.toNat ∧ (∀ rd, Instr.pmul 0#3 0#3 0#3 ≠ .ldi rd) ∧ State.reset.halt = false :=
  ⟨nextWith_iff (p := fun u => u.rsp.isSome) (by decide +kernel), nextWith_iff (p := fun u => u.rsp.isSome) (by decide +kernel),
    by decide, by decide, by decide, by decide, rfl⟩

/-- The statements about one command with `halt = 0`: a running state, a Field and none; LdcLoadsTheCatalogueEntry at the ends
of its clauses; PdivPmodDivideOrFail and PredicatesWriteT at each of theirs. -/
theorem test_witness_running :
    State.reset.halt = false ∧ stopped.halt = true ∧ State.reset.cfgv = false ∧ fieldA.halt = false ∧ fieldA.cfgv = true ∧
    (2#6).toNat = 2 ∧ (32#6).toNat = 32 ∧ (2#3 : PReg) ≠ 3#3 ∧
    (withP [1#64] State.reset).readP 0#3 ≠ 0#64 ∧ State.reset.readP 0#3 = 0#64 ∧
    (State.reset.readE 0#3).val = 0#64 ∧ ((withE [(1#64, 2#64)] State.reset).readE 0#3).val = 1#64 ∧
    ((withE [(1#64, 2#64)] State.reset).readE 0#3).mod ≠ (State.reset.readE 0#3).mod := by decide +kernel

/-- DegreeIsTheHighestSetBit, MulIsTheCarrylessConvolution, EngineArithmeticLaws, PmulMultipliesOrOverflows: degree sums 63
and 64, a product of three factors of degree sum 63, and both overflow bounds in registers. -/
theorem test_witness_engine :
    degree 0x8000000000000000#64 = 63 ∧ degree 0x80000000#64 + degree 0x100000000#64 = 63 ∧
    degree 0x100000000#64 + degree 0x100000000#64 = 64 ∧
    polyMul 0x100000000#64 0x80000000#64 = .ok 0x8000000000000000#64 ∧
    polyMul 0x80000000#64 0x80000000#64 = .ok 0x4000000000000000#64 ∧
    polyMul 0x4000000000000000#64 2#64 = .ok 0x8000000000000000#64 ∧ polyMul 0x80000000#64 2#64 = .ok 0x100000000#64 ∧
    polyMul 0x80000000#64 (polyAdd 0x80000000#64 2#64) = .ok 0x4000000100000000#64 ∧
    (withP [0x100000000#64] State.reset).readP 0#3 = 0x100000000#64 := by decide +kernel

/-- DivisionIdentity and EngineIsThePolynomialRing: degrees equal, numerator below, numerator 0, and the premises of the
uniqueness clause (S6 of spec/95_test_vectors.md). -/
theorem test_witness_division :
    polyDiv 0x5C58160#64 0x11D#64 = .ok (0x5A1B0#64, 0x90#64) ∧ polyDiv 0x1FF#64 0x11D#64 = .ok (1#64, 0xE2#64) ∧
    polyDiv 0xFF#64 0x11D#64 = .ok (0#64, 0xFF#64) ∧ polyDiv 0#64 0x11D#64 = .ok (0#64, 0#64) ∧
    polyMul 0x5A1B0#64 0x11D#64 = .ok 0x5C581F0#64 ∧ 0x5C581F0#64 ^^^ 0x90#64 = 0x5C58160#64 ∧
    degree 0x90#64 < degree 0x11D#64 := by decide +kernel

/-- ExpIsThePower, ExpOfReducedBaseNeverOverflows, UnreducedExpOverflowsExactly, PexpPowersOrOverflows: with and without a
modulus, both sides of the overflow bound, modulus degrees 0 and 32. -/
theorem test_witness_exp :
    polyExp 3#64 5#64 0#64 = .ok 0x33#64 ∧ polyExp 2#64 8#64 0x11D#64 = .ok 0x1D#64 ∧
    polyExp 2#64 63#64 0#64 = .ok 0x8000000000000000#64 ∧ polyExp 2#64 64#64 0#64 = .error .overflow ∧
    63 < degree 2#64 * (64#64).toNat ∧ ¬ 63 < degree 2#64 * (63#64).toNat ∧
    degree 1#64 = 0 ∧ degree 0x100400007#64 = 32 ∧ degree 0x80000000#64 = 31 ∧ polyExp 0#64 0#64 0#64 = .ok 1#64 := by
  decide +kernel

/-- FcfgConstructsOrFails at each width: the degree equal to it and one more. -/
theorem test_witness_fcfg :
    degree 0x100#64 = 8 * 2 ^ (0#2).toNat ∧ degree 0x200#64 = 8 * 2 ^ (0#2).toNat + 1 ∧
    degree 0x10000#64 = 8 * 2 ^ (1#2).toNat ∧ degree 0x20000#64 = 8 * 2 ^ (1#2).toNat + 1 ∧
    degree 0x100000000#64 = 8 * 2 ^ (2#2).toNat ∧ degree 0x200000000#64 = 8 * 2 ^ (2#2).toNat + 1 ∧
    degree 0x8000000000000000#64 < 8 * 2 ^ (3#2).toNat := by decide

/-- NoFieldComesBeforeTheOperands: a Field command without a Field, and its answer. -/
theorem test_witness_noField :
    needsField (.finv 0#3 0#3) = true ∧ State.reset.cfgv = false ∧ answers (.finv 0#3 0#3) State.reset .noField = true := by
  decide +kernel

/-- MulFoldFoldsPairwise and FmulFmulvMultiplyOrFail: a zero operand, overflow at 64, a zero modulus at 63, a product. -/
theorem test_witness_mulFold :
    mulFold [5#64, 0#64] 0x11D#64 = .ok 0#64 ∧ mulFold [0x100000000#64, 0x100000000#64] 0x11D#64 = .error .overflow ∧
    mulFold [0x100000000#64, 0x80000000#64] 0#64 = .error .domain ∧
    polyMul 0x100000000#64 0x80000000#64 = .ok 0x8000000000000000#64 ∧
    polyMul 0xBC#64 0xDE#64 = .ok 0x7CA8#64 ∧ polyMod 0x7CA8#64 0x11D#64 = .ok 0x6D#64 ∧
    mulFold [0xBC#64, 0xDE#64] 0x11D#64 = .ok 0x6D#64 ∧
    answers (.fmul 0#3 0#3 0#3) (withP [0x100000000#64] (withField 0x11D#64 3#2 State.reset)) .overflow = true ∧
    answers (.fmul 0#3 0#3 1#3) (withP [1#64, 1#64] (withField 0#64 3#2 State.reset)) .domain = true ∧
    answers (.fmulv 0#3 0#8) fieldA .ok = true := by decide +kernel

/-- FgenFexpRaiseToTheReducedExponent: group order 0, a power, an overflow of each command, an exponent that reduces to 0. -/
theorem test_witness_power :
    2 ^ degree 1#64 - 1 = 0 ∧ 2 ^ degree 0x11D#64 - 1 = 255 ∧ (255#64).toNat % 255 = 0 ∧
    polyExp 2#64 (BitVec.ofNat 64 (263 % 255)) 0x11D#64 = .ok 0x1D#64 ∧
    polyExp 2#64 64#64 0x8000000000000000#64 = .error .overflow ∧
    answers (.fgen 0#3 0#3) (withP [64#64] (withField 0x8000000000000000#64 3#2 State.reset)) .overflow = true ∧
    answers (.fexp 0#3 0#3 1#3) (withP [0x8000000000000000#64, 3#64] (withField 0x11D#64 3#2 State.reset)) .overflow = true ∧
    answers (.fexp 0#3 0#3 1#3) (withP [1#64, 2#64] (withField 1#64 0#2 State.reset)) .domain = true := by decide +kernel

/-- FinvFdivInvertOrFail, ElementArithmeticResults: each way a division can end. -/
theorem test_witness_divide :
    inverse 0xBC#64 0x11D#64 = .ok 0x95#64 ∧ inverse 0#64 0x11D#64 = .error .domain ∧
    inverse 3#64 0x11#64 = .error .invariant ∧ mulFold [0x6D#64, 0x95#64] 0x11D#64 = .ok 0xDE#64 ∧
    inverse 1#64 0#64 = .ok 1#64 ∧ mulFold [1#64, 1#64] 0#64 = .error .domain ∧
    answers (.fdiv 0#3 0#3 1#3) (withP [1#64, 1#64] (withField 0#64 0#2 State.reset)) .domain = true ∧
    answers (.fdiv 0#3 0#3 1#3) (withP [0x8000000000000000#64, 2#64] (withField 7#64 3#2 State.reset)) .overflow = true ∧
    answers (.ediv 0#3 0#3 1#3) (withE [(1#64, 0#64), (1#64, 0#64)] State.reset) .domain = true ∧
    answers (.emul 0#3 0#3 0#3) (withE [(0x100000000#64, 7#64)] State.reset) .overflow = true ∧
    answers (.eexp 0#3 0#3 0#3) State.reset .domain = true ∧
    answers (.eexp 0#3 0#3 0#3) (withP [3#64] (withE [(0x4000000000000000#64, 0xB#64)] State.reset)) .overflow = true := by
  decide +kernel

/-- InverseIsTheInverse, InverseFailsExactlyOnCommonFactors, InverseLoopEndsWithinItsBound: an irreducible modulus with the
operands of least and greatest degree below it; a common factor. -/
theorem test_witness_inverse :
    IrreduciblePoly 0xB#64 ∧ 1#64 ≠ 0#64 ∧ degree 1#64 < degree 0xB#64 ∧ degree 4#64 + 1 = degree 0xB#64 ∧
    degree 0xB#64 ≤ 32 ∧ CommonFactor 3#64 3#64 0x11#64 ∧ inverse 3#64 0x11#64 = .error .invariant ∧
    inverse 0#64 0x11#64 = .error .domain :=
  ⟨test_irreducible_B, by decide, by decide, by decide, by decide, by unfold CommonFactor; decide +kernel,
    by decide +kernel, by decide +kernel⟩

/-- FieldLaws and DivisionRoundTripInAField: modulus degrees 1 and 32, the greatest and the least reduced operands, a width equal
to the degree and a block in that Field. -/
theorem test_witness_fieldLaws :
    degree 2#64 = 1 ∧ (1#64).toNat < 2 ^ degree 2#64 ∧ degree 0x100400007#64 = 32 ∧
    (0xFFFFFFFF#64).toNat < 2 ^ degree 0x100400007#64 ∧ degree 0x100400007#64 ≤ 8 * 2 ^ (2#2).toNat ∧
    IrreduciblePoly 0x11D#64 ∧ degree 0x11D#64 = 8 * 2 ^ (0#2).toNat ∧
    (0xFF#64).toNat < 2 ^ degree 0x11D#64 ∧ 0xFF#64 ≠ 0#64 ∧
    InField 0x11D#64 0#2 (withP [0xFF#64, 1#64] fieldA) ∧ (withP [0xFF#64, 1#64] fieldA).readP 0#3 = 0xFF#64 :=
  ⟨by decide, by decide, by decide, by decide, by decide, test_irreducible_11D, by decide, by decide, by decide,
    by unfold InField; decide +kernel, by decide +kernel⟩

/-- GeneratorEnumeratesTheField: the field of order 8 of R139, and a block in it. -/
theorem test_witness_generator :
    2 ≤ degree 0xB#64 ∧ degree 0xB#64 ≤ 32 ∧ IrreduciblePoly 0xB#64 ∧ PrimitiveTwo 0xB#64 ∧ 6 < 2 ^ degree 0xB#64 - 1 ∧
    (7#64).toNat < 2 ^ degree 0xB#64 ∧ degree 0xB#64 ≤ 8 * 2 ^ (0#2).toNat ∧ InField 0xB#64 0#2 (withField 0xB#64 0#2 State.reset) :=
  ⟨by decide, by decide, test_irreducible_B, test_primitive_B, by decide, by decide, by decide, by unfold InField; decide +kernel⟩

/-- FieldCommandsCompleteUnderTheContract: a Field of scenario A with reduced operands, and the Field of least degree. -/
theorem test_witness_fieldContract :
    let s := withP [0xBC#64, 0xDE#64] fieldA
    s.halt = false ∧ s.cfgv = true ∧ IrreduciblePoly s.mod ∧ degree s.mod = s.width ∧
    (s.readField 0#3).toNat < 2 ^ degree s.mod ∧ s.readField 0#3 ≠ 0#64 ∧
    (∀ i < 8, (0x03#8).getLsbD i = true → (s.readField (BitVec.ofNat 3 i)).toNat < 2 ^ degree s.mod) ∧
    degree 0x7#64 = 2 ∧ IrreduciblePoly 0x7#64 :=
  ⟨by decide +kernel, by decide +kernel, test_irreducible_11D, by decide +kernel, by decide +kernel, by decide +kernel,
    by decide +kernel, by decide, test_irreducible_7⟩

/-- EmkEgenMakeElements: modulus 0, modulus 1, a modulus with a power, an overflow, exponents that reduce to 0. -/
theorem test_witness_make :
    answers (.emk 0#3 0#3 0#3) State.reset .domain = true ∧
    answers (.emk 0#3 0#3 1#3) (withP [5#64, 1#64] State.reset) .ok = true ∧
    answers (.egen 0#3 0#3 1#3) (withP [5#64, 1#64] State.reset) .domain = true ∧
    answers (.egen 0#3 0#3 1#3) (withP [255#64, 0x11D#64] State.reset) .ok = true ∧
    answers (.egen 0#3 0#3 1#3) (withP [64#64, 0x8000000000000000#64] State.reset) .overflow = true := by decide +kernel

/-- DifferentModuliFailFirst: two moduli, and the answer. -/
theorem test_witness_moduli :
    let s := withE [(0xBC#64, 0x11D#64), (0xDE#64, 0x11B#64)] State.reset
    s.halt = false ∧ (s.readE 0#3).mod ≠ (s.readE 1#3).mod ∧ answers (.ediv 2#3 0#3 1#3) s .xdomain = true := by
  decide +kernel

/-- ElementCommandsCompleteUnderTheContract: two reduced elements of one irreducible modulus, held by a P register too. -/
theorem test_witness_elementContract :
    let s := withP [3#64, 0x11D#64] (withE [(0xBC#64, 0x11D#64), (0xDE#64, 0x11D#64)] State.reset)
    s.halt = false ∧ IrreduciblePoly 0x11D#64 ∧ s.readP 1#3 = 0x11D#64 ∧
    (s.readE 0#3).mod = 0x11D#64 ∧ (s.readE 0#3).val.toNat < 2 ^ degree 0x11D#64 ∧ (s.readE 1#3).mod = 0x11D#64 ∧
    (s.readE 1#3).val.toNat < 2 ^ degree 0x11D#64 ∧ (s.readE 1#3).val ≠ 0#64 :=
  ⟨by decide +kernel, test_irreducible_11D, by decide +kernel, by decide +kernel, by decide +kernel, by decide +kernel,
    by decide +kernel, by decide +kernel⟩

end Witnesses

end Sys2Proof.Tests
end

section
/-! The facts every command has in common: what the host drives after a step, each command as the body that the prologue of R201
runs, and everything a command can answer. -/

namespace Sys2Proof.Machine

open Sys2Proof.Safety

/-- The end of a step touches the input side alone (log 1, log 4). -/
theorem State.nextInputs_eq (s : State) :
    s.nextInputs = { s with inputs := nextLevels s, upcoming := s.upcoming.tail } := by
  obtain ⟨_, _, _, _, _, _, _, _, _, _, _, _, _, _, _, upcoming⟩ := s
  cases upcoming <;> rfl

/-- The body of a Field command other than `FCFG`: `NOFIELD` before any operand (R132). -/
def fieldBody (s : State) (body : Except Failure (State × BitVec 64)) : Except Failure (State × BitVec 64) :=
  if s.cfgv then body else .error .noField

theorem fieldBody_eq_ok_iff {s : State} {body : Except Failure (State × BitVec 64)} {x : State × BitVec 64} :
    fieldBody s body = .ok x ↔ s.cfgv = true ∧ body = .ok x := by
  cases h : s.cfgv <;> simp [fieldBody, h]

/-- What each command does between the halt test and the response (the pseudocode of R201's `body`): the writes and the response
data, or the failure. `exec_eq_runCommand` ties it to `exec`. -/
def commandBody (s : State) : Instr → Except Failure (State × BitVec 64)
  | .nop => silent s
  | .ldi rd => silent (s.writeP rd s.dataOperand)
  | .mov rd ra => silent (s.writeP rd (s.readP ra))
  | .rdp ra => .ok (s, s.readP ra)
  | .ldc rd k =>
    if 2 ≤ k.toNat ∧ k.toNat ≤ 32 then silent (s.writeP rd (catalogueEntry k.toNat)) else .error .illegal
  | .rdst => .ok (s, s.statusWord.setWidth 64)
  | .clrf => silent s.clearSticky
  | .padd rd ra rb => silent (s.writeP rd (polyAdd (s.readP ra) (s.readP rb)))
  | .pmul rd ra rb => resultP s rd (polyMul (s.readP ra) (s.readP rb))
  | .pdiv rd rc ra rb =>
    if rd = rc then .error .illegal
    else
      match polyDiv (s.readP ra) (s.readP rb) with
      | .error f => .error f
      | .ok (q, r) => silent ((s.writeP rd q).writeP rc r)
  | .pmod rd ra rb => resultP s rd (polyMod (s.readP ra) (s.readP rb))
  | .pexp rd ra rb rc => resultP s rd (polyExp (s.readP ra) (s.readP rb) (s.readP rc))
  | .pdeg rd ra => silent (s.writeP rd (BitVec.ofNat 64 (degree (s.readP ra))))
  | .pford rd ra => silent (s.writeP rd (BitVec.ofNat 64 (fieldOrder (s.readP ra))))
  | .fcfg ra wc =>
    if degree (s.readP ra) > 8 <<< wc.toNat then .error .construction
    else silent { s with mod := s.readP ra, wid := wc, cfgv := true }
  | .ford rd => fieldBody s (silent (s.writeP rd (BitVec.ofNat 64 (order s.mod))))
  | .fgen rd ra => fieldBody s (resultField s rd (generate (s.readP ra) s.mod))
  | .fadd rd ra rb => fieldBody s (resultField s rd (.ok (polyAdd (s.readField ra) (s.readField rb))))
  | .fmul rd ra rb => fieldBody s (resultField s rd (mulFold [s.readField ra, s.readField rb] s.mod))
  | .finv rd ra => fieldBody s (resultField s rd (inverse (s.readField ra) s.mod))
  | .fdiv rd ra rb => fieldBody s (resultField s rd (divide (s.readField ra) (s.readField rb) s.mod))
  | .fexp rd ra rb => fieldBody s (resultField s rd (reducedPower (s.readField ra) (s.readP rb) s.mod))
  | .faddv rd mask => fieldBody s (resultField s rd (.ok ((s.maskedOperands mask).foldl polyAdd 0#64)))
  | .fmulv rd mask => fieldBody s (resultField s rd (mulFold (s.maskedOperands mask) s.mod))
  | .fgetm rd => fieldBody s (silent (s.writeP rd s.mod))
  | .emk rd ra rb => resultE s rd (s.readP rb) (polyMod (s.readP ra) (s.readP rb))
  | .egen rd ra rb => resultE s rd (s.readP rb) (generate (s.readP ra) (s.readP rb))
  | .eget rd ra => silent (s.writeP rd (s.readE ra).val)
  | .egetm rd ra => silent (s.writeP rd (s.readE ra).mod)
  | .emul rd ra rb =>
    sameModulus (s.readE ra) (s.readE rb)
      (resultE s rd (s.readE ra).mod (mulFold [(s.readE ra).val, (s.readE rb).val] (s.readE ra).mod))
  | .ediv rd ra rb =>
    sameModulus (s.readE ra) (s.readE rb)
      (resultE s rd (s.readE ra).mod (divide (s.readE ra).val (s.readE rb).val (s.readE ra).mod))
  | .einv rd ra => resultE s rd (s.readE ra).mod (inverse (s.readE ra).val (s.readE ra).mod)
  | .eexp rd ra rb => resultE s rd (s.readE ra).mod (reducedPower (s.readE ra).val (s.readP rb) (s.readE ra).mod)
  | .eeq ra rb => predicate s (decide (s.readE ra = s.readE rb))
  | .eisz ra => predicate s (decide ((s.readE ra).val = 0#64))
  | .eis1 ra => predicate s (decide ((s.readE ra).val = 1#64))

/-- Every command is its body under the one prologue (R201). -/
theorem exec_eq_runCommand (i : Instr) (s : State) : exec i s = runCommand s (commandBody s i) := by
  cases i <;> rfl

/-- Everything a command can answer: `HALTED`, its body's result, or its body's failure. -/
theorem exec_cases {i : Instr} {s t : State} (h : exec i s = .next t) :
    (s.halt = true ∧ t = answerHalted s) ∨
    (s.halt = false ∧ ∃ s' d, commandBody s i = .ok (s', d) ∧ t = s'.respond .ok d) ∨
    (s.halt = false ∧ ∃ f, commandBody s i = .error f ∧ t = takeFailure f s) :=
  runCommand_cases (exec_eq_runCommand i s ▸ h)

@[simp] theorem answerHalted_rsp (s : State) :
    (answerHalted s).rsp = some { status := .halted, data := 0#64 } := rfl

end Sys2Proof.Machine
end

section
/-! Reset (R36) and the response data (R34). -/

namespace Sys2Proof.Machine

open Sys2Proof.Safety

/-- The reset state stays as it is, whatever `rst` is, while no command is presented. -/
theorem step_reset_state_of_no_command {inp : PortInputs} (up : List PortInputs) (hv : inp.cmdValid = false) :
    step { State.reset with inputs := inp, upcoming := up } =
      .next { State.reset with inputs := nextLevels { State.reset with inputs := inp, upcoming := up },
                               upcoming := up.tail } := by
  cases hr : inp.rst with
  | true => rw [step_reset hr, State.nextInputs_eq]; rfl
  | false => rw [step_idle hr hv, State.nextInputs_eq]; rfl

/-- Settles O9: the register and port values are read off `State.reset`, and `step_reset_state_of_no_command` keeps them. -/
theorem resetStateIsAllZero : Obligations.ResetStateIsAllZero := by
  refine ⟨State.readP_reset, State.readE_reset, rfl, rfl, rfl, rfl, rfl, rfl, rfl, rfl, rfl, rfl, rfl,
    by decide, rfl, rfl, rfl, ?_⟩
  intro inp up hv
  exact ⟨_, step_reset_state_of_no_command up hv, rfl⟩

/-- `rsp_data` of a successful command from `s` that leaves `t` (R34). -/
def okData (i : Instr) (s t : State) : BitVec 64 :=
  match i with
  | .rdp ra => s.readP ra
  | .rdst => s.statusWord.setWidth 64
  | .eeq _ _ | .eisz _ | .eis1 _ => if t.t then 1#64 else 0#64
  | _ => 0#64

section Data
variable {s s' : State} {d : BitVec 64}

theorem silent_data {u : State} (h : silent u = .ok (s', d)) : d = 0#64 := by
  cases h; rfl

theorem resultP_data {rd : PReg} {r : Except Failure Poly} (h : resultP s rd r = .ok (s', d)) : d = 0#64 := by
  cases r with
  | ok v => exact silent_data h
  | error f => cases h

theorem resultField_data {rd : PReg} {r : Except Failure Poly} (h : resultField s rd r = .ok (s', d)) : d = 0#64 :=
  resultP_data h

theorem resultE_data {rd : EReg} {m : Poly} {r : Except Failure Poly} (h : resultE s rd m r = .ok (s', d)) :
    d = 0#64 := by
  cases r with
  | ok v => exact silent_data h
  | error f => cases h

theorem sameModulus_eq_ok_iff {a b : Element} {body : Except Failure (State × BitVec 64)} {x : State × BitVec 64} :
    sameModulus a b body = .ok x ↔ a.mod = b.mod ∧ body = .ok x := by
  by_cases h : a.mod = b.mod <;> simp [sameModulus, h]

/-- A predicate answers the bit it writes to `T` (R29). -/
theorem predicate_data {b : Bool} (h : predicate s b = .ok (s', d)) : d = if s'.t then 1#64 else 0#64 := by
  cases h
  cases b <;> rfl

/-- The data that the body of a command answers on success (R34). -/
theorem commandBody_data {i : Instr} (h : commandBody s i = .ok (s', d)) : d = okData i s s' := by
  cases i with
  | rdp | rdst => cases h; rfl
  | eeq | eisz | eis1 => exact predicate_data h
  | nop | ldi | mov | clrf | padd | pdeg | pford | eget | egetm => exact silent_data h
  | ldc =>
    simp only [commandBody] at h
    split at h
    · exact silent_data h
    · cases h
  | fcfg =>
    simp only [commandBody] at h
    split at h
    · cases h
    · exact silent_data h
  | pdiv =>
    simp only [commandBody] at h
    split at h
    · cases h
    · split at h
      · cases h
      · exact silent_data h
  | pmul | pmod | pexp => exact resultP_data h
  | ford | fgetm => exact silent_data (fieldBody_eq_ok_iff.mp h).2
  | fgen | fadd | fmul | finv | fdiv | fexp | faddv | fmulv => exact resultField_data (fieldBody_eq_ok_iff.mp h).2
  | emk | egen | einv | eexp => exact resultE_data h
  | emul | ediv => exact resultE_data (sameModulus_eq_ok_iff.mp h).2

end Data

/-- Settles O16, by the three ways a command can end: `HALTED` and a failure answer 0, a success what its body answers. -/
theorem responseDataRule : Obligations.ResponseDataRule := by
  intro i s t c d h hrsp
  obtain ⟨-, rfl⟩ | ⟨-, s', d', hbody, rfl⟩ | ⟨-, f, -, rfl⟩ := exec_cases h
  · rw [answerHalted_rsp] at hrsp
    cases hrsp
    rfl
  · cases hrsp
    have hdata : d = okData i s s' := commandBody_data hbody
    rw [if_pos rfl]
    exact hdata
  · rw [takeFailure_rsp] at hrsp
    cases hrsp
    rw [if_neg f.code_ne_ok]

end Sys2Proof.Machine
end

section
/-! The data word of the port (R59). A command's body on a state with another word on `cmd_data` is its body on the state itself,
with the word put in the result; the prologue of R201 then carries the word through to the answer, `HALTED` and failures too. -/

namespace Sys2Proof.Machine

/-- The state with the host driving `d` on `cmd_data`. -/
def State.withData (d : BitVec 64) (s : State) : State := { s with inputs := { s.inputs with cmdData := d } }

/-- A body's result with its next state changed by `f`: the response data and a failure stay as they are. -/
def mapState (f : State → State) (body : Except Failure (State × BitVec 64)) : Except Failure (State × BitVec 64) :=
  body.map (Prod.map f id)

section Prologue
variable {f : State → State}

@[simp] theorem mapState_ok (s : State) (d : BitVec 64) : mapState f (.ok (s, d)) = .ok (f s, d) := rfl

@[simp] theorem mapState_error (x : Failure) : mapState f (.error x) = .error x := rfl

/-- The prologue carries through an update that keeps `HALT` and commutes with responding and with recording a failure. -/
theorem runCommand_mapState {s u : State} {body : Except Failure (State × BitVec 64)}
    (hhalt : (f s).halt = s.halt) (hrespond : ∀ t c d, (f t).respond c d = f (t.respond c d))
    (hrecord : ∀ t x, (f t).recordFailure x = f (t.recordFailure x)) (h : runCommand s body = .next u) :
    runCommand (f s) (mapState f body) = .next (f u) := by
  obtain ⟨hs, rfl⟩ | ⟨hs, s', d, rfl, rfl⟩ | ⟨hs, x, rfl, rfl⟩ := runCommand_cases h
  · rw [runCommand_halted (hhalt.trans hs), answerHalted, hrespond, answerHalted]
  · rw [mapState_ok, runCommand_ok (hhalt.trans hs), hrespond]
  · rw [mapState_error, runCommand_error (hhalt.trans hs), takeFailure, hrecord, hrespond, takeFailure]

end Prologue

section Data
variable (d : BitVec 64) (s : State)

theorem State.respond_withData (c : ResultCode) (v : BitVec 64) :
    (s.withData d).respond c v = (s.respond c v).withData d := rfl

theorem State.recordFailure_withData (x : Failure) :
    (s.withData d).recordFailure x = (s.recordFailure x).withData d := by
  cases x <;> rfl

theorem resultP_withData (rd : PReg) (r : Except Failure Poly) :
    resultP (s.withData d) rd r = mapState (.withData d) (resultP s rd r) := by
  cases r <;> rfl

theorem resultField_withData (rd : PReg) (r : Except Failure Poly) :
    resultField (s.withData d) rd r = mapState (.withData d) (resultField s rd r) :=
  resultP_withData d s rd (r.map (narrow s.width))

theorem resultE_withData (rd : EReg) (m : Poly) (r : Except Failure Poly) :
    resultE (s.withData d) rd m r = mapState (.withData d) (resultE s rd m r) := by
  cases r <;> rfl

theorem fieldBody_withData {body' body : Except Failure (State × BitVec 64)} (h : body' = mapState (.withData d) body) :
    fieldBody (s.withData d) body' = mapState (.withData d) (fieldBody s body) := by
  subst h
  exact (apply_ite (mapState (.withData d)) (s.cfgv = true) body (.error .noField)).symm

theorem sameModulus_withData {a b : Element} {body' body : Except Failure (State × BitVec 64)}
    (h : body' = mapState (.withData d) body) :
    sameModulus a b body' = mapState (.withData d) (sameModulus a b body) := by
  subst h
  exact (apply_ite (mapState (.withData d)) (a.mod = b.mod) body (.error .xdomain)).symm

/-- No body but `LDI`'s reads the data word: it reads registers, `MOD`, `WID`, `CFGV` and `STATUS`, and writes beside it. -/
theorem commandBody_withData {i : Instr} (hi : ∀ rd, i ≠ .ldi rd) :
    commandBody (s.withData d) i = mapState (.withData d) (commandBody s i) := by
  cases i with
  | ldi rd => exact absurd rfl (hi rd)
  | nop | mov | rdp | rdst | clrf | padd | pdeg | pford | eget | egetm | eeq | eisz | eis1 => rfl
  | ldc | fcfg =>
    simp only [commandBody, apply_ite (mapState (.withData d))]
    rfl
  | pdiv rd rc ra rb =>
    by_cases hrd : rd = rc
    · simp [commandBody, hrd]
    · have hread : ∀ j, (s.withData d).readP j = s.readP j := fun _ => rfl
      simp only [commandBody, if_neg hrd, hread]
      cases polyDiv (s.readP ra) (s.readP rb) <;> rfl
  | pmul | pmod | pexp => exact resultP_withData d s _ _
  | ford | fgetm => exact fieldBody_withData d s rfl
  | fgen | fadd | fmul | finv | fdiv | fexp | faddv | fmulv =>
    exact fieldBody_withData d s (resultField_withData d s _ _)
  | emk | egen | einv | eexp => exact resultE_withData d s _ _ _
  | emul | ediv => exact sameModulus_withData d (resultE_withData d s _ _ _)

/-- A command other than `LDI` answers the same next state but for the data word (R59). -/
theorem exec_withData {i : Instr} {u : State} (hi : ∀ rd, i ≠ .ldi rd) (h : exec i s = .next u) :
    exec i (s.withData d) = .next (u.withData d) := by
  rw [exec_eq_runCommand] at h
  rw [exec_eq_runCommand, commandBody_withData d s hi]
  exact runCommand_mapState rfl (State.respond_withData d) (State.recordFailure_withData d) h

end Data

/-- `LDI` in a running state (R76). -/
theorem exec_ldi_running {s : State} (rd : PReg) (h : s.halt = false) :
    exec (.ldi rd) s = .next ((s.writeP rd s.inputs.cmdData).respond .ok 0#64) := by
  rw [exec_eq_runCommand]
  exact runCommand_silent h

/-- Settles O21: `exec_ldi_running` for `LDI`, `exec_withData` for every other command; decoding reads `cmd_word` alone. -/
theorem dataWordIsReadByLdiOnly : Obligations.DataWordIsReadByLdiOnly := by
  refine ⟨fun rd s h => ⟨_, exec_ldi_running rd h, ?_⟩, fun i s u d hi h => exec_withData d s hi h, fun s d => rfl⟩
  rw [State.readP_respond, State.readP_writeP_self]

end Sys2Proof.Machine
end

section
/-! The system commands (R75 to R81): the layout of R55 as the or of shifted fields, the bits of `STATUS` (R27), the degree of a
catalogue entry (R123), and a command in the running state as its body's writes with the answer `OK`. -/

namespace Sys2Proof.Machine

open Sys2Proof.Safety

/-- A register field that the command does not use adds no bit to the word. -/
@[simp] theorem regAt_zero (n : Nat) : regAt 0#3 n = 0#32 := by
  simp [regAt]

/-- The layout of R55 as the or of its fields, each shifted to its place. -/
theorem packWord_eq_or (op : BitVec 8) (rd ra rb rc : BitVec 3) (imm : BitVec 12) :
    packWord op rd ra rb rc imm = op.setWidth 32 <<< 24 ||| regAt rd 21 ||| regAt ra 18 ||| regAt rb 15 |||
      regAt rc 12 ||| imm.setWidth 32 := by
  refine BitVec.eq_of_getLsbD_eq fun j hj => ?_
  simp only [packWord, regAt, BitVec.getLsbD_append, BitVec.getLsbD_or, BitVec.getLsbD_shiftLeft, BitVec.getLsbD_setWidth]
  grind

/-- The word of a command as the or of its fields. -/
theorem encode_eq_or {i : Instr} {rd ra rb rc : BitVec 3} {imm : BitVec 12} (hf : i.fields = (rd, ra, rb, rc, imm)) :
    encode i = i.opcode.setWidth 32 <<< 24 ||| regAt rd 21 ||| regAt ra 18 ||| regAt rb 15 ||| regAt rc 12 |||
      imm.setWidth 32 := by
  rw [encode_eq_packWord, hf, packWord_eq_or]

/-- In the running state a command whose body succeeds applies the body's writes and answers `OK` (R201). -/
theorem exec_running_of_ok {i : Instr} {s s' : State} {d : BitVec 64} (h : s.halt = false)
    (hbody : commandBody s i = .ok (s', d)) : exec i s = .next (s'.respond .ok d) := by
  rw [exec_eq_runCommand, hbody, runCommand_ok h]

/-- In the halt state every command answers `HALTED` (R207). -/
theorem exec_halted {i : Instr} {s : State} (h : s.halt = true) : exec i s = .next (answerHalted s) := by
  rw [exec_eq_runCommand, runCommand_halted h]

/-- Settles O23: the words are the or of their fields, each answer is the body's writes. -/
theorem nopLdiMovMoveValues : Obligations.NopLdiMovMoveValues := by
  intro rd ra s h
  refine ⟨⟨by decide, exec_running_of_ok h rfl⟩, ⟨?_, exec_ldi_running rd h⟩, ?_, exec_running_of_ok h rfl⟩
  · simpa [Instr.opcode] using encode_eq_or (i := .ldi rd) rfl
  · simpa [Instr.opcode] using encode_eq_or (i := .mov rd ra) rfl

section Status
variable (s : State)

theorem getLsbD_flagBit (b : Bool) {n : Nat} (hn : n < 32) (j : Nat) :
    (flagBit b n).getLsbD j = (decide (j = n) && b) := by
  simp only [flagBit, BitVec.getLsbD_shiftLeft, BitVec.getLsbD_setWidth, BitVec.getLsbD_ofBool]
  grind

/-- Each bit of `STATUS` (R27). -/
theorem getLsbD_statusWord (j : Nat) :
    s.statusWord.getLsbD j = (decide (j = 0) && s.fc || decide (j = 1) && s.fd || decide (j = 2) && s.fx ||
      decide (j = 3) && s.fo || decide (j = 4) && s.fl || decide (j = 5) && s.fn || decide (j = 8) && s.t ||
      decide (j = 9) && s.cfgv || decide (10 ≤ j) && s.wid.getLsbD (j - 10)) := by
  have hwid : (s.wid.setWidth 32 <<< 10).getLsbD j = (decide (10 ≤ j) && s.wid.getLsbD (j - 10)) := by
    simp only [BitVec.getLsbD_shiftLeft, BitVec.getLsbD_setWidth]
    grind
  simp [State.statusWord, getLsbD_flagBit, hwid]

/-- The bits 11:10 of `STATUS` are `WID`. -/
theorem statusWord_wid : (s.statusWord.setWidth 64).extractLsb' 10 2 = s.wid := by
  ext j hj
  simp only [BitVec.getElem_extractLsb', BitVec.getLsbD_setWidth, getLsbD_statusWord]
  grind

/-- Nothing stands in `STATUS` above `WID`. -/
theorem statusWord_high : (s.statusWord.setWidth 64).extractLsb' 12 52 = 0#52 := by
  ext j hj
  simp only [BitVec.getElem_extractLsb', BitVec.getLsbD_setWidth, getLsbD_statusWord]
  grind

end Status

/-- Settles O24: `RD` and `RDST` write nothing beside the answer, and `getLsbD_statusWord` names each bit of the word. -/
theorem rdAndRdstAnswerWithoutChange : Obligations.RdAndRdstAnswerWithoutChange := by
  intro ra s h
  refine ⟨⟨?_, exec_running_of_ok h rfl⟩, by decide, s.statusWord.setWidth 64, exec_running_of_ok h rfl, ?_⟩
  · simpa [Instr.opcode] using encode_eq_or (i := .rdp ra) rfl
  · simp only [BitVec.getLsbD_setWidth, getLsbD_statusWord, statusWord_wid, statusWord_high]
    simp

/-- The entries of the default table have the degrees of their places (R123 a, R124). -/
theorem degree_defaultEntry {k : Nat} (h2 : 2 ≤ k) (h32 : k ≤ 32) : degree (defaultEntry k) = k := by
  have hall : ∀ j < 33, 2 ≤ j → degree (defaultEntry j) = j := by decide
  exact hall k (Nat.lt_succ_of_le h32) h2

/-- Whatever the parameter `IRRED` is, its entry `k` has degree `k` (R123 a): the entry test asks it of the parameter's value,
and the default table has it. -/
theorem degree_catalogueEntry {k : Nat} (h2 : 2 ≤ k) (h32 : k ≤ 32) : degree (catalogueEntry k) = k := by
  obtain ⟨rfl, he⟩ | ⟨-, ha, he⟩ | ⟨-, -, he⟩ := catalogueEntry_cases k
  · rw [he]
    decide
  · rw [he]
    exact ((admissibleEntry_iff k _).mp ha).1
  · rw [he]
    exact degree_defaultEntry h2 h32

/-- Settles O25: `LDC` writes the entry for `k` in 2..32, whose degree `degree_catalogueEntry` gives. -/
theorem ldcLoadsTheCatalogueEntry : Obligations.LdcLoadsTheCatalogueEntry := by
  refine ⟨if_pos rfl, fun rd k s h => ⟨?_, fun h2 h32 => ⟨degree_catalogueEntry h2 h32, ?_⟩⟩⟩
  · simpa [Instr.opcode] using encode_eq_or (i := .ldc rd k) rfl
  · exact exec_running_of_ok h (if_pos ⟨h2, h32⟩)

/-- Settles O26: running, `CLRF` answers with `State.clearSticky`; halted, it answers as every command does. -/
theorem clrfClearsTheStickyFlags : Obligations.ClrfClearsTheStickyFlags :=
  ⟨by decide, fun s h => exec_running_of_ok (s' := s.clearSticky) h rfl, fun _ h => exec_halted h⟩

end Sys2Proof.Machine
end

section
/-! The engine in the ring of polynomials over GF(2) (R6): the bits of a word are the coefficients of `asPolynomial`, `Degree` is
its degree (R90), the bitwise xor its sum (R91) and the convolution of R92 its product. -/

namespace Sys2Proof.Machine

open Sys2Proof.Safety Polynomial

section Degree
variable {v : Poly}

theorem getLsbD_degree (h : v ≠ 0#64) : v.getLsbD (degree v) = true :=
  Nat.testBit_log2 (by simpa [← BitVec.toNat_inj] using h)

theorem getLsbD_of_degree_lt {j : Nat} (h : degree v < j) : v.getLsbD j = false :=
  Nat.testBit_lt_two_pow ((lt_two_pow_degree v).trans_le (Nat.pow_le_pow_right (by decide) h))

/-- Settles O27, by the laws of `Degree` and the two facts on the bits at and above it. -/
theorem degreeIsTheHighestSetBit : Obligations.DegreeIsTheHighestSetBit :=
  ⟨degree_zero, degree_one, fun v h => ⟨degree_le_63 v, getLsbD_degree h, fun _ => getLsbD_of_degree_lt⟩⟩

end Degree

section AsPolynomial
variable {a b v : Poly}

theorem coeff_asPolynomial (v : Poly) (i : Nat) : (asPolynomial v).coeff i = if v.getLsbD i then 1 else 0 := by
  have hterm : ∀ j, (if v.getLsbD j then (X : (ZMod 2)[X]) ^ j else 0).coeff i =
      if i = j then (if v.getLsbD j then 1 else 0) else 0 := by
    intro j
    cases v.getLsbD j <;> simp [coeff_X_pow]
  simp only [asPolynomial, finsetSum_coeff, hterm, Finset.sum_ite_eq, Finset.mem_range, ite_eq_left_iff]
  intro hi
  simp [BitVec.getLsbD_of_ge v i (by omega)]

theorem asPolynomial_injective : Function.Injective asPolynomial := by
  intro a b h
  refine BitVec.eq_of_getLsbD_eq fun i _ => ?_
  have hi := congrArg (coeff · i) h
  simp only [coeff_asPolynomial] at hi
  cases ha : a.getLsbD i <;> cases hb : b.getLsbD i <;> simp_all

@[simp] theorem asPolynomial_zero : asPolynomial 0#64 = 0 := by
  ext i
  simp [coeff_asPolynomial]

theorem asPolynomial_eq_zero_iff : asPolynomial v = 0 ↔ v = 0#64 := by
  rw [← asPolynomial_zero, asPolynomial_injective.eq_iff]

/-- Addition (R91) is the sum: two set bits cancel. -/
@[simp] theorem asPolynomial_xor (a b : Poly) : asPolynomial (a ^^^ b) = asPolynomial a + asPolynomial b := by
  ext i
  rw [coeff_add, coeff_asPolynomial, coeff_asPolynomial, coeff_asPolynomial, BitVec.getLsbD_xor]
  cases a.getLsbD i <;> cases b.getLsbD i <;> decide

/-- A left shift that loses no bit multiplies by a power of `x`. -/
theorem asPolynomial_shiftLeft {n : Nat} (h : degree b + n ≤ 63) : asPolynomial (b <<< n) = asPolynomial b * X ^ n := by
  ext i
  rw [coeff_mul_X_pow', coeff_asPolynomial, coeff_asPolynomial, BitVec.getLsbD_shiftLeft]
  by_cases hn : n ≤ i
  · by_cases hi : i < 64
    · simp [hn, hi, Nat.not_lt.mpr hn]
    · simp [hi, getLsbD_of_degree_lt (show degree b < i - n by omega)]
  · simp [hn, Nat.lt_of_not_le hn]

@[simp] theorem asPolynomial_one : asPolynomial 1#64 = 1 := by
  ext i
  rw [coeff_asPolynomial, coeff_one, BitVec.getLsbD_one]
  simp

theorem asPolynomial_one_shiftLeft {n : Nat} (h : n ≤ 63) : asPolynomial (1#64 <<< n) = X ^ n := by
  rw [asPolynomial_shiftLeft (by simpa using h), asPolynomial_one, one_mul]

/-- `Degree` is the degree of the polynomial (R90). -/
theorem natDegree_asPolynomial (v : Poly) : (asPolynomial v).natDegree = degree v := by
  by_cases h : v = 0#64
  · simp [h]
  · refine natDegree_eq_of_le_of_coeff_ne_zero (natDegree_le_iff_coeff_eq_zero.mpr fun j hj => ?_) ?_
    · simp [coeff_asPolynomial, getLsbD_of_degree_lt hj]
    · simp [coeff_asPolynomial, getLsbD_degree h]

theorem degree_asPolynomial (h : v ≠ 0#64) : (asPolynomial v).degree = degree v := by
  rw [degree_eq_natDegree (mt asPolynomial_eq_zero_iff.mp h), natDegree_asPolynomial]

theorem monic_asPolynomial (h : v ≠ 0#64) : (asPolynomial v).Monic := by
  simp [Monic, leadingCoeff, natDegree_asPolynomial, coeff_asPolynomial, getLsbD_degree h]

/-- The order by degree of R95 (b), with 0 below every nonzero divisor. -/
theorem degree_asPolynomial_lt_iff (hb : b ≠ 0#64) :
    (asPolynomial a).degree < (asPolynomial b).degree ↔ a = 0#64 ∨ degree a < degree b := by
  rw [degree_asPolynomial hb]
  by_cases ha : a = 0#64
  · simp [ha]
  · simp [degree_asPolynomial ha, ha]

end AsPolynomial

section Mul
variable {a b c : Poly}

/-- The loop of R92 adds up `b * x^i` for the bits `i < n` of `a`. -/
theorem asPolynomial_convolve (h : degree a + degree b ≤ 63) (n : Nat) :
    asPolynomial (convolve a b n) =
      (∑ i ∈ Finset.range n, if a.getLsbD i then (X : (ZMod 2)[X]) ^ i else 0) * asPolynomial b := by
  induction n with
  | zero => simp [convolve]
  | succ n ih =>
    rw [Finset.sum_range_succ, add_mul, ← ih, convolve]
    cases hbit : a.getLsbD n with
    | false => simp
    | true =>
      have hn : n ≤ degree a := by
        by_contra hlt
        simp [getLsbD_of_degree_lt (Nat.lt_of_not_le hlt)] at hbit
      rw [if_pos rfl, if_pos rfl, asPolynomial_xor, asPolynomial_shiftLeft (by omega), mul_comm (X ^ n)]

/-- What the multiplier answers (R92): the product where it fits, and then nothing else. -/
theorem polyMul_eq_ok_iff :
    polyMul a b = .ok c ↔ degree a + degree b ≤ 63 ∧ asPolynomial c = asPolynomial a * asPolynomial b := by
  obtain ⟨h, e⟩ | ⟨h, e⟩ := polyMul_cases a b
  · have hprod : asPolynomial (convolve a b 64) = asPolynomial a * asPolynomial b := asPolynomial_convolve h 64
    rw [e, Except.ok.injEq, ← hprod, asPolynomial_injective.eq_iff]
    exact ⟨fun hc => ⟨h, hc.symm⟩, fun hc => hc.2.symm⟩
  · simp [e, Nat.not_le.mpr h]

theorem exists_polyMul_eq_ok (h : degree a + degree b ≤ 63) : ∃ c, polyMul a b = .ok c := by
  obtain ⟨-, e⟩ | ⟨hlt, -⟩ := polyMul_cases a b
  · exact ⟨_, e⟩
  · omega

theorem polyMul_overflow (h : 63 < degree a + degree b) : polyMul a b = .error .overflow := if_pos h

theorem polyMul_eq_zero {a b c : Poly} (h : polyMul a b = .ok c) (hz : a = 0#64 ∨ b = 0#64) : c = 0#64 := by
  rw [← asPolynomial_eq_zero_iff, (polyMul_eq_ok_iff.mp h).2]
  rcases hz with rfl | rfl <;> simp

/-- How many of the first `n` indices pass a test, counted modulo 2. -/
theorem natCast_length_filter_range (p : Nat → Bool) (n : Nat) :
    (((List.range n).filter p).length : ZMod 2) = ∑ i ∈ Finset.range n, if p i then 1 else 0 := by
  induction n with
  | zero => simp
  | succ n ih =>
    rw [List.range_succ, List.filter_append, List.length_append, Nat.cast_add, ih, Finset.sum_range_succ]
    cases hp : p n <;> simp [hp]

/-- A coefficient of a product is the parity of the pairs of set bits that meet in it. -/
theorem coeff_asPolynomial_mul (a b : Poly) (k : Nat) :
    (asPolynomial a * asPolynomial b).coeff k =
      (((List.range (k + 1)).filter fun i => a.getLsbD i && b.getLsbD (k - i)).length : ZMod 2) := by
  rw [coeff_mul, Finset.Nat.sum_antidiagonal_eq_sum_range_succ
    (fun i j => (asPolynomial a).coeff i * (asPolynomial b).coeff j), natCast_length_filter_range]
  refine Finset.sum_congr rfl fun i _ => ?_
  rw [coeff_asPolynomial, coeff_asPolynomial]
  cases a.getLsbD i <;> simp

theorem getLsbD_eq_true_iff_coeff (v : Poly) (k : Nat) : v.getLsbD k = true ↔ (asPolynomial v).coeff k = 1 := by
  rw [coeff_asPolynomial]
  cases v.getLsbD k <;> simp

/-- An operand of the fast paths of R92, one bit set, is a power of `x`. -/
theorem asPolynomial_of_eq_one_shiftLeft (h : a = 1#64 <<< degree a) : asPolynomial a = X ^ degree a :=
  (congrArg asPolynomial h).trans (asPolynomial_one_shiftLeft (degree_le_63 a))

/-- Settles O28: the product of the ring, read bit by bit, and with a power of `x` for an operand. -/
theorem mulIsTheCarrylessConvolution : Obligations.MulIsTheCarrylessConvolution := by
  refine fun a b => ⟨polyMul_overflow, fun h => ?_⟩
  obtain ⟨c, hc⟩ := exists_polyMul_eq_ok h
  obtain ⟨-, hprod⟩ := polyMul_eq_ok_iff.mp hc
  refine ⟨c, hc, fun k _ => ?_, fun ha => asPolynomial_injective ?_, fun hb => asPolynomial_injective ?_⟩
  · rw [getLsbD_eq_true_iff_coeff, hprod, coeff_asPolynomial_mul, ZMod.natCast_eq_one_iff_odd, Nat.odd_iff]
  · rw [hprod, asPolynomial_shiftLeft (by omega), asPolynomial_of_eq_one_shiftLeft ha, mul_comm]
  · rw [hprod, asPolynomial_shiftLeft h, asPolynomial_of_eq_one_shiftLeft hb]

end Mul

end Sys2Proof.Machine
end

section
/-! The long division of R93 in the ring: each iteration cancels the leading term of the remainder, so the loop ends within its
fuel (R236) with Mathlib's quotient and remainder. -/

namespace Sys2Proof.Machine

open Sys2Proof.Safety Polynomial

/-- One iteration of the loop of R93 on (quotient, remainder); `divLoop_of_le` ties it to the loop. -/
def divStep (d : Poly) (qr : Poly × Poly) : Poly × Poly :=
  (qr.1 ||| 1#64 <<< (degree qr.2 - degree d), qr.2 ^^^ d <<< (degree qr.2 - degree d))

theorem divLoop_of_le {d : Poly} {qr : Poly × Poly} (fuel : Nat) (hr : qr.2 ≠ 0#64) (hle : degree d ≤ degree qr.2) :
    divLoop d (fuel + 1) qr = divLoop d fuel (divStep d qr) := if_pos ⟨hle, hr⟩

theorem divLoop_of_reduced {d : Poly} {qr : Poly × Poly} (fuel : Nat) (h : qr.2 = 0#64 ∨ degree qr.2 < degree d) :
    divLoop d fuel qr = qr := by
  cases fuel with
  | zero => rfl
  | succ fuel =>
    refine if_neg fun ⟨hle, hr⟩ => ?_
    exact h.elim hr (Nat.not_lt.mpr hle)

section Step
variable {n d : Poly} {qr : Poly × Poly}

theorem asPolynomial_divStep_snd (hle : degree d ≤ degree qr.2) :
    asPolynomial (divStep d qr).2 = asPolynomial qr.2 + asPolynomial d * X ^ (degree qr.2 - degree d) := by
  have := degree_le_63 qr.2
  rw [divStep, asPolynomial_xor, asPolynomial_shiftLeft (by omega)]

/-- The shifted divisor has the leading term of the remainder, and cancels it. -/
theorem divStep_snd_decreases (hd : d ≠ 0#64) (hr : qr.2 ≠ 0#64) (hle : degree d ≤ degree qr.2) :
    (divStep d qr).2 = 0#64 ∨ degree (divStep d qr).2 < degree qr.2 := by
  have hshift : (asPolynomial d * X ^ (degree qr.2 - degree d)).Monic := (monic_asPolynomial hd).mul (monic_X_pow _)
  have hdeg : (asPolynomial qr.2).degree = (asPolynomial d * X ^ (degree qr.2 - degree d)).degree := by
    rw [degree_mul, degree_X_pow, degree_asPolynomial hr, degree_asPolynomial hd, ← Nat.cast_add,
      Nat.add_sub_cancel' hle]
  rw [← degree_asPolynomial_lt_iff hr, asPolynomial_divStep_snd hle, ← CharTwo.sub_eq_add]
  exact degree_sub_lt_left hdeg (monic_asPolynomial hr).ne_zero ((monic_asPolynomial hr).trans hshift.symm)

theorem getLsbD_one_shiftLeft_of_ne {j k : Nat} (h : j ≠ k) : (1#64 <<< k).getLsbD j = false := by
  rw [BitVec.getLsbD_shiftLeft, BitVec.getLsbD_one]
  grind

/-- Setting a clear bit adds its power of `x`. -/
theorem asPolynomial_or_one_shiftLeft {q : Poly} {k : Nat} (hk : k ≤ 63) (hclear : q.getLsbD k = false) :
    asPolynomial (q ||| 1#64 <<< k) = asPolynomial q + X ^ k := by
  have hxor : q ||| 1#64 <<< k = q ^^^ 1#64 <<< k := by
    refine BitVec.eq_of_getLsbD_eq fun j _ => ?_
    by_cases hj : j = k
    · simp [hj, hclear]
    · simp [getLsbD_one_shiftLeft_of_ne hj]
  rw [hxor, asPolynomial_xor, asPolynomial_one_shiftLeft hk]

/-- What the loop keeps while it divides `n` by `d`. -/
structure DivInvariant (n d : Poly) (qr : Poly × Poly) : Prop where
  /-- The identity of R95 (a). -/
  identity : asPolynomial qr.1 * asPolynomial d + asPolynomial qr.2 = asPolynomial n
  /-- The quotient bits still to come are clear, so that setting one adds it. -/
  low_clear : qr.2 ≠ 0#64 → ∀ j, j + degree d ≤ degree qr.2 → qr.1.getLsbD j = false

theorem divInvariant_start (n d : Poly) : DivInvariant n d (0#64, n) where
  identity := by simp
  low_clear := by simp

theorem divStep_keeps_invariant (hd : d ≠ 0#64) (hr : qr.2 ≠ 0#64) (hle : degree d ≤ degree qr.2)
    (h : DivInvariant n d qr) : DivInvariant n d (divStep d qr) where
  identity := by
    have := degree_le_63 qr.2
    have hq : asPolynomial (divStep d qr).1 = asPolynomial qr.1 + X ^ (degree qr.2 - degree d) :=
      asPolynomial_or_one_shiftLeft (by omega) (h.low_clear hr _ (by omega))
    rw [hq, asPolynomial_divStep_snd hle, ← h.identity]
    linear_combination CharTwo.add_self_eq_zero (asPolynomial d * X ^ (degree qr.2 - degree d))
  low_clear := by
    intro hr' j hj
    have hlt : degree (divStep d qr).2 < degree qr.2 := (divStep_snd_decreases hd hr hle).resolve_left hr'
    have hne : j ≠ degree qr.2 - degree d := by omega
    have hold : qr.1.getLsbD j = false := h.low_clear hr j (by omega)
    simp [divStep, hold, getLsbD_one_shiftLeft_of_ne hne]

/-- With fuel for each degree from the remainder's down to the divisor's, the loop ends reduced. -/
theorem divLoop_spec (hd : d ≠ 0#64) (fuel : Nat) (h : DivInvariant n d qr)
    (hfuel : qr.2 = 0#64 ∨ degree qr.2 < degree d + fuel) :
    DivInvariant n d (divLoop d fuel qr) ∧
      ((divLoop d fuel qr).2 = 0#64 ∨ degree (divLoop d fuel qr).2 < degree d) := by
  induction fuel generalizing qr with
  | zero => exact ⟨h, hfuel⟩
  | succ fuel ih =>
    by_cases hred : qr.2 = 0#64 ∨ degree qr.2 < degree d
    · rw [divLoop_of_reduced _ hred]
      exact ⟨h, hred⟩
    · obtain ⟨hr, hle⟩ := not_or.mp hred
      have hle : degree d ≤ degree qr.2 := Nat.le_of_not_lt hle
      rw [divLoop_of_le fuel hr hle]
      refine ih (divStep_keeps_invariant hd hr hle h) ((divStep_snd_decreases hd hr hle).imp_right fun hlt => ?_)
      have := hfuel.resolve_left hr
      omega

end Step

section Div
variable {n d q r : Poly}

/-- A pair with (a) and (b) of R95 is Mathlib's quotient and remainder, so there is only one. -/
theorem asPolynomial_div_mod_unique (hd : d ≠ 0#64)
    (hid : asPolynomial q * asPolynomial d + asPolynomial r = asPolynomial n) (hr : r = 0#64 ∨ degree r < degree d) :
    asPolynomial q = asPolynomial n / asPolynomial d ∧ asPolynomial r = asPolynomial n % asPolynomial d := by
  have hmonic := monic_asPolynomial hd
  have hsum : asPolynomial r + asPolynomial d * asPolynomial q = asPolynomial n := by
    rw [← hid]
    ring
  obtain ⟨hquot, hrem⟩ := div_modByMonic_unique (asPolynomial q) (asPolynomial r) hmonic
    ⟨hsum, (degree_asPolynomial_lt_iff hd).mpr hr⟩
  rw [← divByMonic_eq_div _ hmonic, ← modByMonic_eq_mod _ hmonic]
  exact ⟨hquot.symm, hrem.symm⟩

/-- What the divider answers (R93): Mathlib's quotient and remainder by a nonzero divisor, and then nothing else. -/
theorem polyDiv_eq_ok_iff :
    polyDiv n d = .ok (q, r) ↔
      d ≠ 0#64 ∧ asPolynomial q = asPolynomial n / asPolynomial d ∧ asPolynomial r = asPolynomial n % asPolynomial d := by
  obtain ⟨hd, e⟩ | ⟨hd, e⟩ := polyDiv_cases n d
  · rw [e]
    simp [hd]
  · have := degree_le_63 n
    obtain ⟨hinv, hred⟩ := divLoop_spec hd 64 (divInvariant_start n d) (.inr (by dsimp only; omega))
    obtain ⟨hquot, hrem⟩ := asPolynomial_div_mod_unique hd hinv.identity hred
    rw [e, Except.ok.injEq, ← hquot, ← hrem, asPolynomial_injective.eq_iff, asPolynomial_injective.eq_iff, Prod.ext_iff]
    exact ⟨fun ⟨hq, hr⟩ => ⟨hd, hq.symm, hr.symm⟩, fun ⟨_, hq, hr⟩ => ⟨hq.symm, hr.symm⟩⟩

theorem exists_polyDiv_eq_ok (n : Poly) (hd : d ≠ 0#64) : ∃ q r, polyDiv n d = .ok (q, r) := by
  obtain ⟨h, -⟩ | ⟨-, e⟩ := polyDiv_cases n d
  · exact absurd h hd
  · exact ⟨_, _, e⟩

/-- The identity of R95 (a) in the ring. -/
theorem polyDiv_identity (h : polyDiv n d = .ok (q, r)) :
    asPolynomial q * asPolynomial d + asPolynomial r = asPolynomial n := by
  obtain ⟨-, hq, hr⟩ := polyDiv_eq_ok_iff.mp h
  rw [hq, hr, mul_comm, EuclideanDomain.div_add_mod]

/-- The remainder is reduced (R95 b). -/
theorem polyDiv_remainder_reduced (h : polyDiv n d = .ok (q, r)) : r = 0#64 ∨ degree r < degree d := by
  obtain ⟨hd, -, hr⟩ := polyDiv_eq_ok_iff.mp h
  rw [← degree_asPolynomial_lt_iff hd, hr]
  exact degree_mod_lt _ (monic_asPolynomial hd).ne_zero

/-- The degree of the quotient (R95 d). -/
theorem polyDiv_quotient_degree (h : polyDiv n d = .ok (q, r)) : degree q = degree n - degree d := by
  obtain ⟨hd, hq, -⟩ := polyDiv_eq_ok_iff.mp h
  have hmonic := monic_asPolynomial hd
  rw [← natDegree_asPolynomial q, hq, ← divByMonic_eq_div _ hmonic, natDegree_divByMonic _ hmonic,
    natDegree_asPolynomial, natDegree_asPolynomial]

/-- The quotient of a reduced dividend (R95 d). -/
theorem polyDiv_quotient_eq_zero (h : polyDiv n d = .ok (q, r)) (hn : n = 0#64 ∨ degree n < degree d) : q = 0#64 := by
  obtain ⟨hd, hq, -⟩ := polyDiv_eq_ok_iff.mp h
  rw [← asPolynomial_eq_zero_iff, hq, Polynomial.div_eq_zero_iff (monic_asPolynomial hd).ne_zero]
  exact (degree_asPolynomial_lt_iff hd).mpr hn

/-- Multiplying back never overflows and gives the dividend (R95 a). -/
theorem polyDiv_mul_xor (h : polyDiv n d = .ok (q, r)) : ∃ c, polyMul q d = .ok c ∧ c ^^^ r = n := by
  have hfits : degree q + degree d ≤ 63 := by
    rw [polyDiv_quotient_degree h]
    have := degree_le_63 n
    have := degree_le_63 d
    omega
  obtain ⟨c, hc⟩ := exists_polyMul_eq_ok hfits
  refine ⟨c, hc, asPolynomial_injective ?_⟩
  rw [asPolynomial_xor, (polyMul_eq_ok_iff.mp hc).2, polyDiv_identity h]

theorem polyDiv_domain (hd : d = 0#64) : polyDiv n d = .error .domain := if_pos hd

/-- The remainder unit is the divider's second half (R94). -/
theorem polyMod_of_polyDiv (h : polyDiv n d = .ok (q, r)) : polyMod n d = .ok r := by
  rw [polyMod, h]
  rfl

theorem polyMod_domain (hd : d = 0#64) : polyMod n d = .error .domain := by
  rw [polyMod, polyDiv_domain hd]
  rfl

/-- Settles O32: the divider is Mathlib's division, whose identity, bound, uniqueness and degrees carry over. -/
theorem divisionIdentity : Obligations.DivisionIdentity := by
  refine ⟨fun _ => polyDiv_domain rfl, fun n d hd => exists_polyDiv_eq_ok n hd, fun n d q r h =>
    ⟨polyDiv_mul_xor h, polyDiv_remainder_reduced h, ?_, fun _ => polyDiv_quotient_degree h, fun hn => ?_⟩⟩
  · intro q' r' c' hc' hn' hr'
    obtain ⟨hd, hq, hr⟩ := polyDiv_eq_ok_iff.mp h
    have hid' : asPolynomial q' * asPolynomial d + asPolynomial r' = asPolynomial n := by
      rw [← hn', asPolynomial_xor, (polyMul_eq_ok_iff.mp hc').2]
    obtain ⟨hq', hr'⟩ := asPolynomial_div_mod_unique hd hid' hr'
    exact ⟨asPolynomial_injective (hq'.trans hq.symm), asPolynomial_injective (hr'.trans hr.symm)⟩
  · exact polyDiv_quotient_eq_zero h (by simpa [or_iff_not_imp_left] using hn)

end Div

end Sys2Proof.Machine
end

section
/-! The raw polynomial commands (R100 to R105, R125): each is its unit's answer under the prologue of R201, so in the running
state it writes the unit's result, or records the unit's one failure. -/

namespace Sys2Proof.Machine

open Sys2Proof.Safety

section Running
variable {i : Instr} {s : State}

/-- In the running state a command whose body fails takes the failure (R205). -/
theorem exec_running_of_error {f : Failure} (h : s.halt = false) (hbody : commandBody s i = .error f) :
    exec i s = .next (takeFailure f s) := by
  rw [exec_eq_runCommand, hbody, runCommand_error h]

/-- A command that writes a unit's result, in a running state where the unit succeeds. -/
theorem exec_resultP_ok {rd : PReg} {r : Except Failure Poly} {v : Poly} (h : s.halt = false)
    (hbody : commandBody s i = resultP s rd r) (hr : r = .ok v) : exec i s = .next ((s.writeP rd v).respond .ok 0#64) :=
  exec_running_of_ok h (by rw [hbody, hr, resultP_ok])

/-- A command that writes a unit's result, in a running state where the unit fails. -/
theorem exec_resultP_error {rd : PReg} {r : Except Failure Poly} {f : Failure} (h : s.halt = false)
    (hbody : commandBody s i = resultP s rd r) (hr : r = .error f) : exec i s = .next (takeFailure f s) :=
  exec_running_of_error h (by rw [hbody, hr, resultP_error])

end Running

/-- Settles O30: each body writes one word, which no degree or order overflows. -/
theorem paddPdegPfordResults : Obligations.PaddPdegPfordResults := by
  refine fun rd ra rb s h => ⟨⟨?_, exec_running_of_ok h rfl⟩, ⟨?_, _, ?_, exec_running_of_ok h rfl⟩,
    ?_, _, ?_, exec_running_of_ok h rfl⟩
  · simpa [Instr.opcode] using encode_eq_or (i := .padd rd ra rb) rfl
  · simpa [Instr.opcode] using encode_eq_or (i := .pdeg rd ra) rfl
  · exact (BitVec.toNat_ofNat _ _).trans (Nat.mod_eq_of_lt ((degree_le_63 (s.readP ra)).trans_lt (by decide)))
  · simpa [Instr.opcode] using encode_eq_or (i := .pford rd ra) rfl
  · exact (BitVec.toNat_ofNat _ _).trans (Nat.mod_eq_of_lt (fieldOrder_lt (s.readP ra)))

/-- Settles O31, by the two answers of the multiplier. -/
theorem pmulMultipliesOrOverflows : Obligations.PmulMultipliesOrOverflows := by
  refine fun rd ra rb s h => ⟨?_, fun hfits => ?_, fun hover => exec_resultP_error h rfl (polyMul_overflow hover)⟩
  · simpa [Instr.opcode] using encode_eq_or (i := .pmul rd ra rb) rfl
  · obtain ⟨c, hc⟩ := exists_polyMul_eq_ok hfits
    exact ⟨c, hc, polyMul_eq_zero hc, exec_resultP_ok h rfl hc⟩

section Pdiv
variable {rd rc ra rb : PReg} {s : State}

theorem commandBody_pdiv_ok {q r : Poly} (hne : rd ≠ rc) (hdiv : polyDiv (s.readP ra) (s.readP rb) = .ok (q, r)) :
    commandBody s (.pdiv rd rc ra rb) = .ok ((s.writeP rd q).writeP rc r, 0#64) := by
  simp only [commandBody, if_neg hne, hdiv]
  rfl

theorem commandBody_pdiv_error {f : Failure} (hne : rd ≠ rc) (hdiv : polyDiv (s.readP ra) (s.readP rb) = .error f) :
    commandBody s (.pdiv rd rc ra rb) = .error f := by
  simp only [commandBody, if_neg hne, hdiv]

end Pdiv

/-- Settles O33, by the two answers of the divider. -/
theorem pdivPmodDivideOrFail : Obligations.PdivPmodDivideOrFail := by
  refine fun rd rc ra rb s h => ⟨?_, ?_, fun hrb => ?_, fun hrb => ⟨fun hne => ?_, ?_⟩⟩
  · simpa [Instr.opcode] using encode_eq_or (i := .pdiv rd rc ra rb) rfl
  · simpa [Instr.opcode] using encode_eq_or (i := .pmod rd ra rb) rfl
  · obtain ⟨q, r, hdiv⟩ := exists_polyDiv_eq_ok (s.readP ra) hrb
    exact ⟨q, r, hdiv, fun hne => exec_running_of_ok h (commandBody_pdiv_ok hne hdiv),
      exec_resultP_ok h rfl (polyMod_of_polyDiv hdiv)⟩
  · exact exec_running_of_error h (commandBody_pdiv_error hne (polyDiv_domain hrb))
  · exact exec_resultP_error h rfl (polyMod_domain hrb)

section Exp
variable {m : Poly} {f : Failure}

/-- A multiplication of R96 reduces only when it can, so it fails only with `OVERFLOW`. -/
theorem mulReduce_error {a b : Poly} (h : mulReduce a b m = .error f) : f = .overflow := by
  obtain ⟨-, e⟩ | ⟨-, e⟩ := polyMul_cases a b
  · by_cases hm : m = 0#64
    · simp [mulReduce, e, hm] at h
    · obtain ⟨h0, -⟩ | ⟨-, e'⟩ := polyMod_cases (convolve a b 64) m
      · exact absurd h0 hm
      · simp [mulReduce, e, hm, e'] at h
  · rw [mulReduce, e] at h
    cases h
    rfl

theorem expStep_error {base res : Poly} {bit : Bool} (h : expStep base m bit res = .error f) : f = .overflow := by
  cases hsq : mulReduce res res m with
  | error g =>
    rw [expStep, hsq] at h
    cases h
    exact mulReduce_error hsq
  | ok sq =>
    rw [expStep, hsq] at h
    cases bit with
    | false => cases h
    | true => exact mulReduce_error h

theorem expLoop_error {base res : Poly} {e : BitVec 64} (n : Nat) (h : expLoop base e m n res = .error f) :
    f = .overflow := by
  induction n generalizing res with
  | zero => cases h
  | succ n ih =>
    cases hstep : expStep base m (e.getLsbD n) res with
    | error g =>
      rw [expLoop, hstep] at h
      cases h
      exact expStep_error hstep
    | ok next =>
      rw [expLoop, hstep] at h
      exact ih h

/-- Everything the power unit can answer: a power, or `OVERFLOW`. -/
theorem polyExp_cases (base : Poly) (e : BitVec 64) (m : Poly) :
    (∃ v, polyExp base e m = .ok v) ∨ polyExp base e m = .error .overflow := by
  cases h : polyExp base e m with
  | ok v => exact .inl ⟨v, rfl⟩
  | error f => exact .inr (by rw [expLoop_error _ h])

/-- Exponent 0 gives 1 for every base and modulus (R96, R104). -/
theorem polyExp_zero (base m : Poly) : polyExp base 0#64 m = .ok 1#64 := rfl

end Exp

/-- Settles O34, by the two answers of the power unit. -/
theorem pexpPowersOrOverflows : Obligations.PexpPowersOrOverflows := by
  refine fun rd ra rb rc s h => ⟨?_, polyExp_cases _ _ _, fun v hv => exec_resultP_ok h rfl hv,
    fun hover => exec_resultP_error h rfl hover, fun hrb => exec_resultP_ok h rfl (by rw [hrb, polyExp_zero])⟩
  simpa [Instr.opcode] using encode_eq_or (i := .pexp rd ra rb rc) rfl

end Sys2Proof.Machine
end

section
/-! What the units of the Field can fail with (R203), and the fold of R137: a zero accumulator stays zero, so a zero operand and
a zero product in between agree. -/

namespace Sys2Proof.Machine

section UnitFailures
variable {a b m base : Poly} {e : BitVec 64} {f : Failure}

theorem polyMul_error (h : polyMul a b = .error f) : f = .overflow := by
  obtain ⟨-, e⟩ | ⟨-, e⟩ := polyMul_cases a b <;> rw [e] at h <;> cases h
  rfl

theorem polyDiv_error (h : polyDiv a b = .error f) : f = .domain := by
  obtain ⟨-, e⟩ | ⟨-, e⟩ := polyDiv_cases a b <;> rw [e] at h <;> cases h
  rfl

theorem polyMod_error (h : polyMod a b = .error f) : f = .domain := by
  obtain ⟨-, e⟩ | ⟨-, e⟩ := polyMod_cases a b <;> rw [e] at h <;> cases h
  rfl

theorem polyExp_error (h : polyExp base e m = .error f) : f = .overflow := expLoop_error _ h

theorem reducedPower_error (h : reducedPower base e m = .error f) : f = .overflow ∨ f = .domain := by
  obtain ⟨-, e⟩ | ⟨-, e⟩ := reducedPower_cases base e m <;> rw [e] at h
  · cases h
    exact .inr rfl
  · exact .inl (polyExp_error h)

theorem mulMod_error (h : mulMod a b m = .error f) : f = .overflow ∨ f = .domain := by
  obtain ⟨-, e⟩ | ⟨-, -, e⟩ | ⟨-, -, e⟩ := mulMod_cases a b m <;> rw [e] at h <;> cases h
  · exact .inl rfl
  · exact .inr rfl

theorem foldFrom_error {vs : List Poly} (h : foldFrom m a vs = .error f) : f = .overflow ∨ f = .domain := by
  induction vs generalizing a with
  | nil => cases h
  | cons v vs ih =>
    cases hstep : mulMod a v m with
    | error g =>
      rw [foldFrom, hstep] at h
      cases h
      exact mulMod_error hstep
    | ok acc =>
      rw [foldFrom, hstep] at h
      exact ih h

theorem mulFold_error {ops : List Poly} (h : mulFold ops m = .error f) : f = .overflow ∨ f = .domain := by
  by_cases hzero : 0#64 ∈ ops
  · rw [mulFold_zero m hzero] at h
    cases h
  · cases ops with
    | nil => cases h
    | cons v vs =>
      rw [mulFold_nonzero m v hzero] at h
      exact foldFrom_error h

/-- Everything the fold can answer. -/
theorem mulFold_cases (ops : List Poly) (m : Poly) :
    (∃ v, mulFold ops m = .ok v) ∨ mulFold ops m = .error .overflow ∨ mulFold ops m = .error .domain := by
  cases h : mulFold ops m with
  | ok v => exact .inl ⟨v, rfl⟩
  | error f => exact .inr ((mulFold_error h).imp (congrArg _) (congrArg _))

/-- The divisor of an iteration is not 0, so its one failure is that of the product (R160). -/
theorem euclidStep_error {x : Euclid} (hx : x.newr ≠ 0#64) (h : euclidStep x = .error f) : f = .overflow := by
  obtain ⟨q, r, hdiv⟩ := exists_polyDiv_eq_ok x.r hx
  cases hmul : polyMul q x.newt with
  | error g =>
    simp only [euclidStep, hdiv, hmul] at h
    cases h
    exact polyMul_error hmul
  | ok c =>
    simp only [euclidStep, hdiv, hmul] at h
    cases h

theorem euclidLoop_error {x : Euclid} (fuel : Nat) (h : euclidLoop fuel x = .error f) : f = .overflow := by
  induction fuel generalizing x with
  | zero => cases h
  | succ fuel ih =>
    by_cases hx : x.newr = 0#64
    · rw [euclidLoop, if_pos hx] at h
      cases h
    · rw [euclidLoop, if_neg hx] at h
      cases hstep : euclidStep x with
      | error g =>
        rw [hstep] at h
        cases h
        exact euclidStep_error hx hstep
      | ok x' =>
        rw [hstep] at h
        exact ih h

theorem inverse_error (h : inverse a m = .error f) : f = .domain ∨ f = .overflow ∨ f = .invariant := by
  obtain ⟨-, e⟩ | ⟨-, g, hloop, e⟩ | ⟨-, x, -, -, e⟩ | ⟨-, x, -, -, e⟩ := inverse_cases a m <;> rw [e] at h <;> cases h
  · exact .inl rfl
  · exact .inr (.inl (euclidLoop_error _ hloop))
  · exact .inr (.inr rfl)

theorem divide_error (h : divide a b m = .error f) : f = .domain ∨ f = .overflow ∨ f = .invariant := by
  obtain ⟨g, hinv, e⟩ | ⟨i, -, e⟩ := divide_cases a b m <;> rw [e] at h
  · cases h
    exact inverse_error hinv
  · obtain rfl | rfl := mulFold_error h
    · exact .inr (.inl rfl)
    · exact .inl rfl

end UnitFailures

section Fold
variable {m : Poly}

theorem mulMod_eq_bind (a b m : Poly) : mulMod a b m = (polyMul a b).bind fun c => polyMod c m := by
  unfold mulMod
  cases polyMul a b <;> rfl

theorem foldFrom_cons (m acc v : Poly) (vs : List Poly) :
    foldFrom m acc (v :: vs) = (mulMod acc v m).bind fun acc' => foldFrom m acc' vs := by
  rw [foldFrom]
  cases mulMod acc v m <;> rfl

/-- A zero product reduces to 0 by any modulus but 0. -/
theorem mulMod_zero_left (v : Poly) (hm : m ≠ 0#64) : mulMod 0#64 v m = .ok 0#64 := by
  obtain ⟨c, hc⟩ := exists_polyMul_eq_ok (a := 0#64) (b := v) (by simpa using degree_le_63 v)
  obtain ⟨q, r, hdiv⟩ := exists_polyDiv_eq_ok 0#64 hm
  have hr : r = 0#64 := by
    rw [← asPolynomial_eq_zero_iff, (polyDiv_eq_ok_iff.mp hdiv).2.2, asPolynomial_zero, EuclideanDomain.zero_mod]
  rw [mulMod_eq_bind, hc, Except.bind, polyMul_eq_zero hc (.inl rfl), polyMod_of_polyDiv hdiv, hr]

theorem foldFrom_zero (vs : List Poly) (hm : m ≠ 0#64) : foldFrom m 0#64 vs = .ok 0#64 := by
  induction vs with
  | nil => rfl
  | cons v vs ih => rw [foldFrom_cons, mulMod_zero_left v hm, Except.bind, ih]

/-- With no zero among the operands still to come, the fold goes on from any accumulator, a zero product too (R137). -/
theorem foldFrom_eq_mulFold {acc : Poly} {vs : List Poly} (hm : m ≠ 0#64) (hvs : 0#64 ∉ vs) :
    foldFrom m acc vs = mulFold (acc :: vs) m := by
  by_cases hacc : acc = 0#64
  · rw [hacc, foldFrom_zero vs hm, mulFold_zero m (by simp)]
  · rw [mulFold_nonzero m acc (by simp [hvs, Ne.symm hacc])]

/-- The fold multiplies its first two operands and reduces the product before it goes on (R137). -/
theorem mulFold_cons_cons {a b : Poly} {rest : List Poly} (h : 0#64 ∉ a :: b :: rest) :
    mulFold (a :: b :: rest) m =
      ((polyMul a b).bind fun c => polyMod c m).bind fun r => foldFrom m r rest := by
  rw [mulFold_nonzero m a h, foldFrom_cons, mulMod_eq_bind]

end Fold

/-- Settles O43, by `mulFold_cons_cons` for a pair and `foldFrom_eq_mulFold` for what follows it. -/
theorem mulFoldFoldsPairwise : Obligations.MulFoldFoldsPairwise := by
  refine fun m => ⟨mulFold_nil m, fun ops => mulFold_zero m, fun a => ?_, fun a b rest h => ?_⟩
  · by_cases ha : a = 0#64
    · rw [ha, mulFold_zero m (by simp)]
    · exact mulFold_nonzero m a (by simpa using Ne.symm ha)
  · refine ⟨fun hmul => ?_, fun c hmul hm => ?_, fun c r hmul hmod => ?_⟩ <;>
      rw [mulFold_cons_cons h, hmul, Except.bind]
    · rfl
    · rw [polyMod_domain hm]
      rfl
    · have hm : m ≠ 0#64 := by
        rintro rfl
        rw [polyMod_domain rfl] at hmod
        cases hmod
      have hrest : 0#64 ∉ rest := fun hr => h (by simp [hr])
      rw [hmod]
      exact foldFrom_eq_mulFold hm hrest

end Sys2Proof.Machine
end

section
/-! `NOFIELD` (R131, R132): the test comes before the body of a Field command, and no unit, result form or other command fails
with it. -/

namespace Sys2Proof.Machine

open Sys2Proof.Safety

section NoField
variable {s : State}

theorem fieldBody_noField {body : Except Failure (State × BitVec 64)} (h : s.cfgv = false) :
    fieldBody s body = .error .noField := by
  simp [fieldBody, h]

theorem fieldBody_configured {body : Except Failure (State × BitVec 64)} (h : s.cfgv = true) : fieldBody s body = body :=
  if_pos h

theorem resultP_eq_error_iff {rd : PReg} {r : Except Failure Poly} {f : Failure} :
    resultP s rd r = .error f ↔ r = .error f := by
  cases r <;> simp

theorem resultField_eq_error_iff {rd : PReg} {r : Except Failure Poly} {f : Failure} :
    resultField s rd r = .error f ↔ r = .error f := by
  cases r <;> simp

theorem resultE_eq_error_iff {rd : EReg} {m : Poly} {r : Except Failure Poly} {f : Failure} :
    resultE s rd m r = .error f ↔ r = .error f := by
  cases r <;> simp

theorem sameModulus_eq_error_iff {a b : Element} {body : Except Failure (State × BitVec 64)} {f : Failure} :
    sameModulus a b body = .error f ↔ (a.mod ≠ b.mod ∧ f = .xdomain) ∨ (a.mod = b.mod ∧ body = .error f) := by
  by_cases h : a.mod = b.mod <;> simp [sameModulus, h, eq_comm]

theorem fieldBody_eq_noField_iff {body : Except Failure (State × BitVec 64)} (hbody : body ≠ .error .noField) :
    fieldBody s body = .error .noField ↔ s.cfgv = false := by
  cases h : s.cfgv with
  | false => simp [fieldBody_noField h]
  | true => simp [fieldBody_configured h, hbody]

/-- No unit and no check beside the one of R132 fails with `NOFIELD`. -/
theorem commandBody_ne_noField {i : Instr} (hi : needsField i = false) : commandBody s i ≠ .error .noField := by
  intro h
  cases i with
  | ford | fgetm | fgen | fadd | faddv | fmul | fmulv | finv | fdiv | fexp => cases hi
  | nop | ldi | mov | rdp | rdst | clrf | padd | pdeg | pford | eget | egetm | eeq | eisz | eis1 => cases h
  | ldc | fcfg =>
    simp only [commandBody] at h
    split at h <;> cases h
  | pdiv =>
    simp only [commandBody] at h
    split at h
    · cases h
    · split at h
      · next f hdiv => cases h; exact absurd (polyDiv_error hdiv) (by decide)
      · cases h
  | pmul => exact absurd (polyMul_error (resultP_eq_error_iff.mp h)) (by decide)
  | pmod => exact absurd (polyMod_error (resultP_eq_error_iff.mp h)) (by decide)
  | pexp => exact absurd (polyExp_error (resultP_eq_error_iff.mp h)) (by decide)
  | emk => exact absurd (polyMod_error (resultE_eq_error_iff.mp h)) (by decide)
  | egen | eexp => exact absurd (reducedPower_error (resultE_eq_error_iff.mp h)) (by decide)
  | einv => exact absurd (inverse_error (resultE_eq_error_iff.mp h)) (by decide)
  | emul =>
    obtain ⟨-, hx⟩ | ⟨-, hr⟩ := sameModulus_eq_error_iff.mp h
    · cases hx
    · exact absurd (mulFold_error (resultE_eq_error_iff.mp hr)) (by decide)
  | ediv =>
    obtain ⟨-, hx⟩ | ⟨-, hr⟩ := sameModulus_eq_error_iff.mp h
    · cases hx
    · exact absurd (divide_error (resultE_eq_error_iff.mp hr)) (by decide)

/-- A Field command fails with `NOFIELD` exactly while no Field is constructed (R132). -/
theorem commandBody_eq_noField_of_needsField {i : Instr} (hi : needsField i = true) :
    commandBody s i = .error .noField ↔ s.cfgv = false := by
  cases i with
  | ford | fgetm | fadd | faddv => exact fieldBody_eq_noField_iff nofun
  | fgen | fexp =>
    exact fieldBody_eq_noField_iff fun h => absurd (reducedPower_error (resultField_eq_error_iff.mp h)) (by decide)
  | fmul | fmulv =>
    exact fieldBody_eq_noField_iff fun h => absurd (mulFold_error (resultField_eq_error_iff.mp h)) (by decide)
  | finv =>
    exact fieldBody_eq_noField_iff fun h => absurd (inverse_error (resultField_eq_error_iff.mp h)) (by decide)
  | fdiv =>
    exact fieldBody_eq_noField_iff fun h => absurd (divide_error (resultField_eq_error_iff.mp h)) (by decide)
  | _ => cases hi

/-- A Field command in a running state without a Field (R132). -/
theorem exec_noField {i : Instr} (hi : needsField i = true) (h : s.halt = false) (hc : s.cfgv = false) :
    exec i s = .next (takeFailure .noField s) :=
  exec_running_of_error h ((commandBody_eq_noField_of_needsField hi).mpr hc)

end NoField

/-- Settles O40, by `exec_noField`; for the converse, of the three ways a command can end only a failure has the code. -/
theorem noFieldComesBeforeTheOperands : Obligations.NoFieldComesBeforeTheOperands := by
  refine ⟨fun i s hi h hc => exec_noField hi h hc, fun i s t d h hrsp => ?_⟩
  obtain ⟨-, rfl⟩ | ⟨-, s', d', -, rfl⟩ | ⟨-, f, hbody, rfl⟩ := exec_cases h
  · rw [answerHalted_rsp] at hrsp
    cases hrsp
  · cases hrsp
  · rw [takeFailure_rsp] at hrsp
    have hf : f = .noField := Failure.code_injective f .noField (by injection hrsp with hrsp; injection hrsp)
    subst hf
    cases hi : needsField i with
    | true => exact ⟨rfl, (commandBody_eq_noField_of_needsField hi).mp hbody⟩
    | false => exact absurd hbody (commandBody_ne_noField hi)

end Sys2Proof.Machine
end

section
/-! Narrowing (R130) and the operands of the Field commands (R58, R141): `narrow` keeps the low `W` bits, so it is the remainder
modulo `2^W`, goes through the xor, and leaves a narrowed word as it is. -/

namespace Sys2Proof.Machine

section Narrow
variable {W : Nat}

theorem getLsbD_narrow (W : Nat) (v : Poly) (j : Nat) : (narrow W v).getLsbD j = (decide (j < W) && v.getLsbD j) := by
  simp only [narrow, BitVec.getLsbD_setWidth]
  by_cases hj : j < 64
  · simp [hj]
  · simp [BitVec.getLsbD_of_ge v j (by omega)]

/-- Narrowing is the remainder modulo `2^W`. -/
theorem narrow_eq_mod (W : Nat) (v : Poly) : narrow W v = BitVec.ofNat 64 (v.toNat % 2 ^ W) := by
  refine BitVec.eq_of_toNat_eq ?_
  rw [narrow, BitVec.toNat_setWidth, BitVec.toNat_setWidth, BitVec.toNat_ofNat]

@[simp] theorem narrow_zero (W : Nat) : narrow W 0#64 = 0#64 := by
  simp [narrow]

theorem narrow_one (hW : 0 < W) : narrow W 1#64 = 1#64 := by
  refine BitVec.eq_of_getLsbD_eq fun j _ => ?_
  rw [getLsbD_narrow, BitVec.getLsbD_one]
  grind

@[simp] theorem narrow_narrow (W : Nat) (v : Poly) : narrow W (narrow W v) = narrow W v := by
  refine BitVec.eq_of_getLsbD_eq fun j _ => ?_
  simp [getLsbD_narrow]

theorem narrow_xor (W : Nat) (a b : Poly) : narrow W (a ^^^ b) = narrow W a ^^^ narrow W b := by
  refine BitVec.eq_of_getLsbD_eq fun j _ => ?_
  simp [getLsbD_narrow, Bool.and_xor_distrib_left]

/-- A sum of narrowed words is narrow, so writing it narrows nothing away (R130, R141). -/
theorem narrow_foldl_polyAdd {acc : Poly} {vs : List Poly} (hacc : narrow W acc = acc)
    (hvs : ∀ v ∈ vs, narrow W v = v) : narrow W (vs.foldl polyAdd acc) = vs.foldl polyAdd acc := by
  induction vs generalizing acc with
  | nil => exact hacc
  | cons v vs ih =>
    obtain ⟨hv, hvs⟩ := List.forall_mem_cons.mp hvs
    exact ih (by rw [polyAdd, narrow_xor, hacc, hv]) hvs

end Narrow

section Operands
variable (s : State)

/-- `W = 8 << WID` as a product (R25). -/
theorem State.width_eq : s.width = 8 * 2 ^ s.wid.toNat := Nat.shiftLeft_eq 8 _

theorem State.readField_eq (r : PReg) : s.readField r = narrow (8 * 2 ^ s.wid.toNat) (s.readP r) := by
  rw [State.readField, State.width_eq]

@[simp] theorem narrow_readField (r : PReg) : narrow s.width (s.readField r) = s.readField r :=
  narrow_narrow s.width (s.readP r)

/-- The registers of a mask by their numbers (R58). -/
theorem maskedRegisters_eq_range (mask : BitVec 8) :
    maskedRegisters mask = ((List.range 8).filter fun i => mask.getLsbD i).map (BitVec.ofNat 3) := by
  have hregs : [0#3, 1#3, 2#3, 3#3, 4#3, 5#3, 6#3, 7#3] = (List.range 8).map (BitVec.ofNat 3) := by decide
  rw [maskedRegisters, hregs, List.filter_map]
  refine congrArg _ (List.filter_congr fun i hi => ?_)
  rw [Function.comp_apply, BitVec.toNat_ofNat, Nat.mod_eq_of_lt (by simpa using hi)]

theorem State.maskedOperands_eq_range (mask : BitVec 8) :
    s.maskedOperands mask =
      ((List.range 8).filter fun i => mask.getLsbD i).map fun i => s.readField (BitVec.ofNat 3 i) := by
  rw [State.maskedOperands, maskedRegisters_eq_range, List.map_map]
  rfl

/-- Adding up the elements that pass a test is adding 0 for the others. -/
theorem foldl_polyAdd_filter (p : Nat → Bool) (g : Nat → Poly) (l : List Nat) (acc : Poly) :
    ((l.filter p).map g).foldl polyAdd acc = l.foldl (fun x i => x ^^^ if p i then g i else 0#64) acc := by
  induction l generalizing acc with
  | nil => rfl
  | cons i l ih => cases h : p i <;> simp [h, ih, polyAdd]

/-- What `FADDV` writes is the xor of the narrowed registers of its mask (R141). -/
theorem narrow_foldl_maskedOperands (mask : BitVec 8) :
    narrow s.width ((s.maskedOperands mask).foldl polyAdd 0#64) =
      (List.range 8).foldl
        (fun x i => x ^^^ if mask.getLsbD i then s.readField (BitVec.ofNat 3 i) else 0#64) 0#64 := by
  rw [narrow_foldl_polyAdd (narrow_zero _) ?_, State.maskedOperands_eq_range, foldl_polyAdd_filter]
  simp [State.maskedOperands]

end Operands

end Sys2Proof.Machine
end

section
/-! The Field commands in the running state (R133 to R149): each is its unit's answer under the prologue of R201, narrowed when it
is a value (R130). -/

namespace Sys2Proof.Machine

open Sys2Proof.Safety

section Configured
variable {i : Instr} {s : State} {rd : PReg} {r : Except Failure Poly}

/-- A Field command that writes a word as it is, in a configured Field. -/
theorem exec_fieldBody_silent {s' : State} (h : s.halt = false) (hc : s.cfgv = true)
    (hbody : commandBody s i = fieldBody s (silent s')) : exec i s = .next (s'.respond .ok 0#64) :=
  exec_running_of_ok h (by rw [hbody, fieldBody_configured hc, silent])

/-- A Field command whose unit succeeds writes the value narrowed (R130). -/
theorem exec_resultField_ok {v : Poly} (h : s.halt = false) (hc : s.cfgv = true)
    (hbody : commandBody s i = fieldBody s (resultField s rd r)) (hr : r = .ok v) :
    exec i s = .next ((s.writeP rd (narrow (8 * 2 ^ s.wid.toNat) v)).respond .ok 0#64) :=
  exec_running_of_ok h (by rw [hbody, fieldBody_configured hc, hr, resultField_ok, State.width_eq])

/-- A Field command whose unit fails takes the unit's failure (R205, R206). -/
theorem exec_resultField_error {f : Failure} (h : s.halt = false) (hc : s.cfgv = true)
    (hbody : commandBody s i = fieldBody s (resultField s rd r)) (hr : r = .error f) :
    exec i s = .next (takeFailure f s) :=
  exec_running_of_error h (by rw [hbody, fieldBody_configured hc, hr, resultField_error])

/-- The state after a failure of the inverse unit or of the product behind it, from a running state (R205, R206). -/
theorem takeFailure_eq_of_unit {f : Failure} {s : State} (h : s.halt = false)
    (hf : f = .domain ∨ f = .overflow ∨ f = .invariant) :
    takeFailure f s = { s with fd := s.fd || f == .domain, fo := s.fo || f == .overflow, halt := f == .invariant,
                               rsp := some { status := f.code, data := 0#64 } } := by
  obtain rfl | rfl | rfl := hf <;> simp [takeFailure, State.recordFailure, State.respond, h]

/-- A Field command whose unit fails, as the state that the failure leaves. -/
theorem exec_resultField_unit_error {f : Failure} (h : s.halt = false) (hc : s.cfgv = true)
    (hbody : commandBody s i = fieldBody s (resultField s rd r)) (hr : r = .error f)
    (hf : f = .domain ∨ f = .overflow ∨ f = .invariant) :
    exec i s = .next { s with fd := s.fd || f == .domain, fo := s.fo || f == .overflow, halt := f == .invariant,
                              rsp := some { status := f.code, data := 0#64 } } := by
  rw [exec_resultField_error h hc hbody hr, takeFailure_eq_of_unit h hf]

end Configured

section Answers
variable {a b i m : Poly} {f : Failure}

theorem mulFold_pair_nonzero (ha : a ≠ 0#64) (hb : b ≠ 0#64) :
    mulFold [a, b] m = (polyMul a b).bind fun c => polyMod c m := by
  rw [mulFold_pair, if_neg (not_or.mpr ⟨ha, hb⟩), mulMod_eq_bind]

theorem reducedPower_domain (base : Poly) (e : BitVec 64) (h : fieldOrder m = 0) :
    reducedPower base e m = .error .domain := by
  obtain ⟨-, hpow⟩ | ⟨hne, -⟩ := reducedPower_cases base e m
  · exact hpow
  · exact absurd h hne

theorem reducedPower_eq_polyExp (base : Poly) (e : BitVec 64) (h : fieldOrder m ≠ 0) :
    reducedPower base e m = polyExp base (BitVec.ofNat 64 (e.toNat % fieldOrder m)) m := by
  obtain ⟨h0, -⟩ | ⟨-, hpow⟩ := reducedPower_cases base e m
  · exact absurd h0 h
  · exact hpow

/-- The inverse comes first, whatever the numerator (R147). -/
theorem divide_of_inverse_error (h : inverse b m = .error f) : divide a b m = .error f := by
  rw [divide, h]

theorem divide_of_inverse_ok (h : inverse b m = .ok i) : divide a b m = mulFold [a, i] m := by
  rw [divide, h]

end Answers

/-- Settles O42: both write a sum of narrowed words, which `narrow` leaves as it is. -/
theorem faddFaddvXorNarrowedOperands : Obligations.FaddFaddvXorNarrowedOperands := by
  intro rd ra rb mask s h n pick
  have hn : ∀ r, s.readField r = n r := fun r => by rw [State.readField_eq, narrow_eq_mod]
  refine ⟨?_, ?_, fun hc => ⟨?_, ?_⟩, fun hc => ⟨exec_noField rfl h hc, exec_noField rfl h hc⟩⟩
  · simpa [Instr.opcode] using encode_eq_or (i := .fadd rd ra rb) rfl
  · simpa [Instr.opcode] using encode_eq_or (i := .faddv rd mask) rfl
  · rw [exec_resultField_ok h hc rfl rfl, ← State.width_eq, polyAdd, narrow_xor, narrow_readField, narrow_readField, hn, hn]
  · rw [exec_resultField_ok h hc rfl rfl, ← State.width_eq, narrow_foldl_maskedOperands]
    simp only [hn, List.range, List.range.loop, List.foldl, BitVec.zero_xor]
    rfl

/-- Settles O39, by the test of the body; no word has a degree above 63. -/
theorem fcfgConstructsOrFails : Obligations.FcfgConstructsOrFails := by
  intro ra wc s h
  rw [← Nat.shiftLeft_eq 8]
  refine ⟨?_, fun hle => ?_, fun hlt => ?_, fun hwc => ?_⟩
  · simpa [Instr.opcode] using encode_eq_or (i := .fcfg ra wc) rfl
  · exact exec_running_of_ok (s' := { s with mod := s.readP ra, wid := wc, cfgv := true }) h
      (if_neg (Nat.not_lt.mpr hle))
  · exact exec_running_of_error (i := .fcfg ra wc) h (if_pos hlt)
  · rw [hwc]
    exact (degree_le_63 (s.readP ra)).trans (by decide)

/-- Settles O41: each body writes one word, and the order fits in 64 bits. -/
theorem fordFgetmReadTheField : Obligations.FordFgetmReadTheField := by
  refine fun rd s h => ⟨?_, ?_, fun hc => ⟨⟨_, ?_, exec_fieldBody_silent h hc rfl⟩, exec_fieldBody_silent h hc rfl⟩,
    fun hc => ⟨exec_noField rfl h hc, exec_noField rfl h hc⟩⟩
  · simpa [Instr.opcode] using encode_eq_or (i := .ford rd) rfl
  · simpa [Instr.opcode] using encode_eq_or (i := .fgetm rd) rfl
  · exact (BitVec.toNat_ofNat _ _).trans (Nat.mod_eq_of_lt (order_lt s.mod))

/-- Settles O44: both bodies write the fold's answer; the cases of `FMUL` are those of one multiply-then-reduce. -/
theorem fmulFmulvMultiplyOrFail : Obligations.FmulFmulvMultiplyOrFail := by
  intro rd ra rb mask s h n ops
  have hn : s.readField = n := funext s.readField_eq
  have hops : s.maskedOperands mask = ops := by rw [State.maskedOperands_eq_range, hn]
  have hfmul : commandBody s (.fmul rd ra rb) = fieldBody s (resultField s rd (mulFold [n ra, n rb] s.mod)) := by
    rw [← hn]; rfl
  have hfmulv : commandBody s (.fmulv rd mask) = fieldBody s (resultField s rd (mulFold ops s.mod)) := by
    rw [← hops]; rfl
  refine ⟨?_, ?_, fun x hx hc => ?_, fun hc => ⟨fun hz => ?_, fun ha hb hdeg => ?_, fun ha hb hdeg hm => ?_,
    fun ha hb hdeg hm => ?_, fun hmask => ?_⟩, fun hc => ⟨exec_noField rfl h hc, exec_noField rfl h hc⟩⟩
  · simpa [Instr.opcode] using encode_eq_or (i := .fmul rd ra rb) rfl
  · simpa [Instr.opcode] using encode_eq_or (i := .fmulv rd mask) rfl
  · have hbody : commandBody s x.1 = fieldBody s (resultField s rd (mulFold x.2 s.mod)) := by
      obtain rfl | rfl := hx
      · exact hfmul
      · exact hfmulv
    exact ⟨mulFold_cases _ _, fun v hv => exec_resultField_ok h hc hbody hv,
      fun hover => exec_resultField_error h hc hbody hover, fun hdom => exec_resultField_error h hc hbody hdom⟩
  · rw [exec_resultField_ok h hc hfmul (mulFold_zero s.mod (by simpa [eq_comm] using hz)), narrow_zero]
  · have hover : mulFold [n ra, n rb] s.mod = .error .overflow := by
      rw [mulFold_pair_nonzero ha hb, polyMul_overflow hdeg, Except.bind]
    exact exec_resultField_error h hc hfmul hover
  · obtain ⟨c, hmul⟩ := exists_polyMul_eq_ok hdeg
    have hdom : mulFold [n ra, n rb] s.mod = .error .domain := by
      rw [mulFold_pair_nonzero ha hb, hmul, Except.bind, polyMod_domain hm]
    exact exec_resultField_error h hc hfmul hdom
  · obtain ⟨c, hmul⟩ := exists_polyMul_eq_ok hdeg
    obtain ⟨q, r, hdiv⟩ := exists_polyDiv_eq_ok c hm
    refine ⟨c, r, hmul, polyMod_of_polyDiv hdiv, exec_resultField_ok h hc hfmul ?_⟩
    rw [mulFold_pair_nonzero ha hb, hmul, Except.bind, polyMod_of_polyDiv hdiv]
  · have hnone : mulFold ops s.mod = .ok 0#64 := by simp [ops, hmask]
    rw [exec_resultField_ok h hc hfmulv hnone, narrow_zero]

/-- Settles O45: both bodies write the power with the reduced exponent, `FGEN` with base 2. -/
theorem fgenFexpRaiseToTheReducedExponent : Obligations.FgenFexpRaiseToTheReducedExponent := by
  intro rd ra rb s h N W
  refine ⟨?_, ?_, fun i base x hi => ?_⟩
  · simpa [Instr.opcode] using encode_eq_or (i := .fgen rd ra) rfl
  · simpa [Instr.opcode] using encode_eq_or (i := .fexp rd ra rb) rfl
  · have hfield : needsField i = true := by obtain ⟨rfl, -, -⟩ | ⟨rfl, -, -⟩ := hi <;> rfl
    have hbody : commandBody s i = fieldBody s (resultField s rd (reducedPower base x s.mod)) := by
      obtain ⟨rfl, rfl, rfl⟩ | ⟨rfl, rfl, rfl⟩ := hi
      · rfl
      · rw [← State.readField_eq]
        rfl
    refine ⟨fun hc => exec_noField hfield h hc, fun hc hN => ?_, fun hc hN => ?_⟩
    · exact exec_resultField_error h hc hbody (reducedPower_domain base x hN)
    · have hpow : reducedPower base x s.mod = polyExp base (BitVec.ofNat 64 (x.toNat % N)) s.mod :=
        reducedPower_eq_polyExp base x hN
      rw [hpow] at hbody
      refine ⟨polyExp_cases _ _ _, fun v hv => exec_resultField_ok h hc hbody hv,
        fun hover => exec_resultField_error h hc hbody hover, fun hx => ?_⟩
      rw [hx] at hbody
      rw [exec_resultField_ok h hc hbody (polyExp_zero base s.mod), narrow_one (by positivity)]

/-- Settles O46, by the answers of the inverse unit, and of the fold after it. -/
theorem finvFdivInvertOrFail : Obligations.FinvFdivInvertOrFail := by
  intro rd ra rb s h W a b failWith
  have ha : s.readField ra = a := s.readField_eq ra
  have hb : s.readField rb = b := s.readField_eq rb
  have hfinv : commandBody s (.finv rd ra) = fieldBody s (resultField s rd (inverse a s.mod)) := by
    rw [← ha]
    rfl
  have hfdiv : commandBody s (.fdiv rd ra rb) = fieldBody s (resultField s rd (divide a b s.mod)) := by
    rw [← ha, ← hb]
    rfl
  refine ⟨?_, ?_, fun hc => ⟨exec_noField rfl h hc, exec_noField rfl h hc⟩, fun hc => ?_⟩
  · simpa [Instr.opcode] using encode_eq_or (i := .finv rd ra) rfl
  · simpa [Instr.opcode] using encode_eq_or (i := .fdiv rd ra rb) rfl
  have finv_error : ∀ f, inverse a s.mod = .error f → exec (.finv rd ra) s = .next (failWith f) :=
    fun f hf => exec_resultField_unit_error h hc hfinv hf (inverse_error hf)
  have fdiv_error : ∀ f, divide a b s.mod = .error f → exec (.fdiv rd ra rb) s = .next (failWith f) :=
    fun f hf => exec_resultField_unit_error h hc hfdiv hf (divide_error hf)
  refine ⟨fun hz => finv_error _ (by rw [hz, inverse_zero]), fun v hv => exec_resultField_ok h hc hfinv hv,
    fun f hf => ⟨inverse_error hf, finv_error f hf⟩,
    fun hz => fdiv_error _ (divide_of_inverse_error (by rw [hz, inverse_zero])),
    fun f hf => ⟨inverse_error hf, fdiv_error f (divide_of_inverse_error hf)⟩, fun i hi => ?_⟩
  have hdiv : divide a b s.mod = mulFold [a, i] s.mod := divide_of_inverse_ok hi
  refine ⟨fun v hv => exec_resultField_ok h hc hfdiv (hdiv.trans hv),
    fun f hf => ⟨(mulFold_error hf).symm, fdiv_error f (hdiv.trans hf)⟩, fun hz => ?_⟩
  have hzero : mulFold [a, i] s.mod = .ok 0#64 := mulFold_zero s.mod (by simp [hz])
  rw [exec_resultField_ok h hc hfdiv (hdiv.trans hzero), narrow_zero]

end Sys2Proof.Machine
end

section
/-! The FieldElement commands in the running state (R171 to R186): a result is stored with the operand's modulus, different moduli
fail first (R175), a predicate writes `T` and answers it. -/

namespace Sys2Proof.Machine

open Sys2Proof.Safety

section Predicates
variable {i : Instr} {s : State}

theorem Element.eq_iff {a b : Element} : a = b ↔ a.val = b.val ∧ a.mod = b.mod := by
  cases a
  cases b
  simp

/-- A predicate command in a running state answers the bit it writes to `T` (R29, R184). -/
theorem exec_predicate {b : Bool} (h : s.halt = false) (hbody : commandBody s i = predicate s b) :
    exec i s = .next { s with t := b, rsp := some { status := .ok, data := if b then 1#64 else 0#64 } } := by
  rw [exec_running_of_ok h hbody]
  cases b <;> rfl

theorem exec_predicate_true {p : Prop} [Decidable p] (h : s.halt = false) (hbody : commandBody s i = predicate s (decide p))
    (hp : p) : exec i s = .next { s with t := true, rsp := some { status := .ok, data := 1#64 } } :=
  exec_predicate h (hbody.trans (congrArg _ (decide_eq_true hp)))

theorem exec_predicate_false {p : Prop} [Decidable p] (h : s.halt = false)
    (hbody : commandBody s i = predicate s (decide p)) (hp : ¬ p) :
    exec i s = .next { s with t := false, rsp := some { status := .ok, data := 0#64 } } :=
  exec_predicate h (hbody.trans (congrArg _ (decide_eq_false hp)))

end Predicates

/-- Settles O59: each body is a `predicate`, and elements are equal when both halves are. -/
theorem predicatesWriteT : Obligations.PredicatesWriteT := by
  intro ra rb s h answered
  refine ⟨?_, ?_, ?_, fun hval hmod => exec_predicate_true h rfl (Element.eq_iff.mpr ⟨hval, hmod⟩),
    fun hne => exec_predicate_false h rfl fun heq => ?_,
    exec_predicate_true h rfl, exec_predicate_false h rfl, exec_predicate_true h rfl, exec_predicate_false h rfl⟩
  · simpa [Instr.opcode] using encode_eq_or (i := .eeq ra rb) rfl
  · simpa [Instr.opcode] using encode_eq_or (i := .eisz ra) rfl
  · simpa [Instr.opcode] using encode_eq_or (i := .eis1 ra) rfl
  · obtain ⟨hval, hmod⟩ := Element.eq_iff.mp heq
    exact hne.elim (absurd hval) (absurd hmod)

/-- Settles O55: each body writes one half of the element. -/
theorem egetEgetmReadElements : Obligations.EgetEgetmReadElements := by
  refine fun rd ra s h => ⟨?_, ?_, exec_running_of_ok h rfl, exec_running_of_ok h rfl⟩
  · simpa [Instr.opcode] using encode_eq_or (i := .eget rd ra) rfl
  · simpa [Instr.opcode] using encode_eq_or (i := .egetm rd ra) rfl

section Stored
variable {i : Instr} {s : State} {rd : EReg} {m : Poly} {r : Except Failure Poly}

/-- A command that stores a unit's result with its modulus, in a running state where the unit succeeds (R22). -/
theorem exec_resultE_ok {v : Poly} (h : s.halt = false) (hbody : commandBody s i = resultE s rd m r) (hr : r = .ok v) :
    exec i s = .next ((s.writeE rd { val := v, mod := m }).respond .ok 0#64) :=
  exec_running_of_ok h (by rw [hbody, hr, resultE_ok])

/-- A command that stores a unit's result, in a running state where the unit fails. -/
theorem exec_resultE_error {f : Failure} (h : s.halt = false) (hbody : commandBody s i = resultE s rd m r)
    (hr : r = .error f) : exec i s = .next (takeFailure f s) :=
  exec_running_of_error h (by rw [hbody, hr, resultE_error])

end Stored

/-- Settles O54, by the answers of the remainder unit and of a power with base 2 and the exponent reduced. -/
theorem emkEgenMakeElements : Obligations.EmkEgenMakeElements := by
  intro rd ra rb s h m N
  refine ⟨?_, ?_, fun hm => exec_resultE_error h rfl (polyMod_domain hm), fun hm => ?_,
    fun hN => exec_resultE_error h rfl (reducedPower_domain 2#64 (s.readP ra) hN), fun hN => ?_⟩
  · simpa [Instr.opcode] using encode_eq_or (i := .emk rd ra rb) rfl
  · simpa [Instr.opcode] using encode_eq_or (i := .egen rd ra rb) rfl
  · obtain ⟨q, r, hdiv⟩ := exists_polyDiv_eq_ok (s.readP ra) hm
    have hmod : polyMod (s.readP ra) m = .ok r := polyMod_of_polyDiv hdiv
    exact ⟨r, hmod, exec_resultE_ok h rfl hmod⟩
  · have hpower : commandBody s (.egen rd ra rb) =
        resultE s rd m (polyExp 2#64 (BitVec.ofNat 64 ((s.readP ra).toNat % N)) m) :=
      congrArg (resultE s rd m) (reducedPower_eq_polyExp 2#64 (s.readP ra) hN)
    refine ⟨fun v hv => exec_resultE_ok h hpower hv, fun f hf => ?_, fun he => exec_resultE_ok h hpower ?_⟩
    · obtain rfl := polyExp_error hf
      exact ⟨rfl, exec_resultE_error h hpower hf⟩
    · rw [he, polyExp_zero]

end Sys2Proof.Machine
end

section
/-! The causes of R202: a body fails with a code of its command's row, or with `ILLEGAL` on a term no word stands for. So only
`EMUL` and `EDIV` fail with `XDOMAIN`, and they do exactly on different moduli (R175). -/

namespace Sys2Proof.Machine

open Sys2Proof.Safety

section Causes
variable {s : State} {i : Instr} {f : Failure}

theorem fieldBody_error {body : Except Failure (State × BitVec 64)} (h : fieldBody s body = .error f) :
    f = .noField ∨ body = .error f := by
  cases hc : s.cfgv with
  | false =>
    rw [fieldBody_noField hc] at h
    cases h
    exact .inl rfl
  | true =>
    rw [fieldBody_configured hc] at h
    exact .inr h

/-- Everything a Field command with a unit's value can fail with. -/
theorem fieldBody_resultField_error {rd : PReg} {r : Except Failure Poly}
    (h : fieldBody s (resultField s rd r) = .error f) : f = .noField ∨ r = .error f :=
  (fieldBody_error h).imp_right resultField_eq_error_iff.mp

/-- Everything a binary element operation can fail with. -/
theorem sameModulus_resultE_error {a b : Element} {rd : EReg} {m : Poly} {r : Except Failure Poly}
    (h : sameModulus a b (resultE s rd m r) = .error f) : f = .xdomain ∨ r = .error f :=
  (sameModulus_eq_error_iff.mp h).imp And.right fun ⟨_, hr⟩ => resultE_eq_error_iff.mp hr

/-- The failure of a body is in the command's row of R202; `ILLEGAL`, of ill-formed `LDC` and `PDIV` terms, is in none. -/
theorem commandBody_error_mem_causes (h : commandBody s i = .error f) : f = .illegal ∨ f.code ∈ causes i := by
  cases i with
  | nop | ldi | mov | rdp | rdst | clrf | padd | pdeg | pford | eget | egetm | eeq | eisz | eis1 => cases h
  | ldc | fcfg =>
    simp only [commandBody] at h
    split at h <;> cases h
    simp [causes, Failure.code]
  | pdiv =>
    simp only [commandBody] at h
    split at h
    · cases h
      exact .inl rfl
    · split at h
      · next g hdiv =>
        cases h
        simp [causes, polyDiv_error hdiv, Failure.code]
      · cases h
  | pmul => simp [causes, polyMul_error (resultP_eq_error_iff.mp h), Failure.code]
  | pmod => simp [causes, polyMod_error (resultP_eq_error_iff.mp h), Failure.code]
  | pexp => simp [causes, polyExp_error (resultP_eq_error_iff.mp h), Failure.code]
  | emk => simp [causes, polyMod_error (resultE_eq_error_iff.mp h), Failure.code]
  | egen | eexp => obtain rfl | rfl := reducedPower_error (resultE_eq_error_iff.mp h) <;> simp [causes, Failure.code]
  | einv => obtain rfl | rfl | rfl := inverse_error (resultE_eq_error_iff.mp h) <;> simp [causes, Failure.code]
  | emul =>
    obtain rfl | rfl | rfl := (sameModulus_resultE_error h).imp_right mulFold_error <;> simp [causes, Failure.code]
  | ediv =>
    obtain rfl | rfl | rfl | rfl := (sameModulus_resultE_error h).imp_right divide_error <;> simp [causes, Failure.code]
  | ford | fgetm => simp [causes, (fieldBody_error h).resolve_right nofun, Failure.code]
  | fadd | faddv => simp [causes, (fieldBody_resultField_error h).resolve_right nofun, Failure.code]
  | fgen | fexp =>
    obtain rfl | rfl | rfl := (fieldBody_resultField_error h).imp_right reducedPower_error <;> simp [causes, Failure.code]
  | fmul | fmulv =>
    obtain rfl | rfl | rfl := (fieldBody_resultField_error h).imp_right mulFold_error <;> simp [causes, Failure.code]
  | finv =>
    obtain rfl | rfl | rfl | rfl := (fieldBody_resultField_error h).imp_right inverse_error <;> simp [causes, Failure.code]
  | fdiv =>
    obtain rfl | rfl | rfl | rfl := (fieldBody_resultField_error h).imp_right divide_error <;> simp [causes, Failure.code]

/-- Only `EMUL` and `EDIV` have `XDOMAIN` in their row of R202. -/
theorem eq_emul_or_ediv_of_xdomain_mem_causes (h : ResultCode.xdomain ∈ causes i) :
    ∃ rd ra rb, i = .emul rd ra rb ∨ i = .ediv rd ra rb := by
  cases i with
  | emul rd ra rb => exact ⟨rd, ra, rb, .inl rfl⟩
  | ediv rd ra rb => exact ⟨rd, ra, rb, .inr rfl⟩
  | _ => simp [causes] at h

end Causes

section Moduli
variable {s : State} {rd ra rb : EReg}

theorem sameModulus_eq_xdomain_iff {a b : Element} {body : Except Failure (State × BitVec 64)}
    (hbody : body ≠ .error .xdomain) : sameModulus a b body = .error .xdomain ↔ a.mod ≠ b.mod := by
  simp [sameModulus_eq_error_iff, hbody]

theorem commandBody_emul_eq_xdomain_iff :
    commandBody s (.emul rd ra rb) = .error .xdomain ↔ (s.readE ra).mod ≠ (s.readE rb).mod :=
  sameModulus_eq_xdomain_iff fun h => absurd (mulFold_error (resultE_eq_error_iff.mp h)) (by decide)

theorem commandBody_ediv_eq_xdomain_iff :
    commandBody s (.ediv rd ra rb) = .error .xdomain ↔ (s.readE ra).mod ≠ (s.readE rb).mod :=
  sameModulus_eq_xdomain_iff fun h => absurd (divide_error (resultE_eq_error_iff.mp h)) (by decide)

/-- In a running state different moduli fail, whatever the values (R175). -/
theorem exec_emul_ediv_of_ne (h : s.halt = false) (hne : (s.readE ra).mod ≠ (s.readE rb).mod) :
    exec (.emul rd ra rb) s = .next (takeFailure .xdomain s) ∧ exec (.ediv rd ra rb) s = .next (takeFailure .xdomain s) :=
  ⟨exec_running_of_error h (commandBody_emul_eq_xdomain_iff.mpr hne),
    exec_running_of_error h (commandBody_ediv_eq_xdomain_iff.mpr hne)⟩

/-- A body that fails with `XDOMAIN` is that of `EMUL` or `EDIV` on different moduli. -/
theorem different_moduli_of_commandBody_xdomain {i : Instr} (h : commandBody s i = .error .xdomain) :
    ∃ rd ra rb, (i = .emul rd ra rb ∨ i = .ediv rd ra rb) ∧ (s.readE ra).mod ≠ (s.readE rb).mod := by
  have hmem : ResultCode.xdomain ∈ causes i := (commandBody_error_mem_causes h).resolve_left (by decide)
  obtain ⟨rd, ra, rb, rfl | rfl⟩ := eq_emul_or_ediv_of_xdomain_mem_causes hmem
  · exact ⟨rd, ra, rb, .inl rfl, commandBody_emul_eq_xdomain_iff.mp h⟩
  · exact ⟨rd, ra, rb, .inr rfl, commandBody_ediv_eq_xdomain_iff.mp h⟩

/-- A failing answer comes from the body's failure with that code. -/
theorem commandBody_error_of_rsp {i : Instr} {t : State} {f : Failure} {d : BitVec 64} (h : exec i s = .next t)
    (hrsp : t.rsp = some { status := f.code, data := d }) : commandBody s i = .error f := by
  obtain ⟨-, rfl⟩ | ⟨-, s', d', -, rfl⟩ | ⟨-, g, hbody, rfl⟩ := exec_cases h
  · rw [answerHalted_rsp, Option.some.injEq, Response.mk.injEq] at hrsp
    exact absurd hrsp.1.symm f.code_ne_halted
  · rw [State.respond_rsp, Option.some.injEq, Response.mk.injEq] at hrsp
    exact absurd hrsp.1.symm f.code_ne_ok
  · rw [takeFailure_rsp, Option.some.injEq, Response.mk.injEq] at hrsp
    rw [hbody, Failure.code_injective g f hrsp.1]

end Moduli

/-- Settles O56: the modulus check is the outermost test of both bodies, and no other body fails with its code. -/
theorem differentModuliFailFirst : Obligations.DifferentModuliFailFirst :=
  ⟨fun _ _ _ _ h hne => exec_emul_ediv_of_ne h hne,
    fun _ _ _ _ h hrsp => different_moduli_of_commandBody_xdomain (commandBody_error_of_rsp (f := .xdomain) h hrsp)⟩

end Sys2Proof.Machine
end

section
/-! The arithmetic of elements (R176 to R182): each command stores its unit's answer with the operand's modulus, or leaves the state
of the unit's failure. -/

namespace Sys2Proof.Machine

section Arithmetic
variable {s : State} {rd ra rb : EReg}

/-- The state after a failure an element command can have, from a running state: those of its unit, or `XDOMAIN` (R205, R206). -/
theorem takeFailure_eq_of_element {f : Failure} (h : s.halt = false)
    (hf : f = .xdomain ∨ f = .domain ∨ f = .overflow ∨ f = .invariant) :
    takeFailure f s = { s with fd := s.fd || f == .domain, fx := s.fx || f == .xdomain, fo := s.fo || f == .overflow,
                               halt := f == .invariant, rsp := some { status := f.code, data := 0#64 } } := by
  obtain rfl | rfl | rfl | rfl := hf <;> simp [takeFailure, State.recordFailure, State.respond, h]

/-- `EMUL` on equal moduli (R176). -/
theorem commandBody_emul_of_eq (hm : (s.readE ra).mod = (s.readE rb).mod) :
    commandBody s (.emul rd ra rb) =
      resultE s rd (s.readE ra).mod (mulFold [(s.readE ra).val, (s.readE rb).val] (s.readE ra).mod) :=
  sameModulus_eq hm

/-- `EDIV` on equal moduli (R180). -/
theorem commandBody_ediv_of_eq (hm : (s.readE ra).mod = (s.readE rb).mod) :
    commandBody s (.ediv rd ra rb) =
      resultE s rd (s.readE ra).mod (divide (s.readE ra).val (s.readE rb).val (s.readE ra).mod) :=
  sameModulus_eq hm

end Arithmetic

/-- Settles O57, by the answers of the fold, the inverse unit, the division made of the two, and the power. -/
theorem elementArithmeticResults : Obligations.ElementArithmeticResults := by
  intro rd ra rb rp s h a b N stored failWith
  have hfail : ∀ f, f = .xdomain ∨ f = .domain ∨ f = .overflow ∨ f = .invariant → takeFailure f s = failWith f :=
    fun f hf => takeFailure_eq_of_element h hf
  refine ⟨?_, ?_, ?_, ?_, fun hne => ?_, fun hm => ?_, fun v hv => exec_resultE_ok h rfl hv, fun f hf => ?_,
    fun hN => ?_, fun hN => ?_⟩
  · simpa [Instr.opcode] using encode_eq_or (i := .emul rd ra rb) rfl
  · simpa [Instr.opcode] using encode_eq_or (i := .ediv rd ra rb) rfl
  · simpa [Instr.opcode] using encode_eq_or (i := .einv rd ra) rfl
  · simpa [Instr.opcode] using encode_eq_or (i := .eexp rd ra rp) rfl
  · rw [← hfail .xdomain (.inl rfl)]
    exact exec_emul_ediv_of_ne h hne
  · have hemul := commandBody_emul_of_eq (rd := rd) hm
    have hediv := commandBody_ediv_of_eq (rd := rd) hm
    refine ⟨fun v hv => exec_resultE_ok h hemul hv, fun f hf => ⟨mulFold_error hf, ?_⟩,
      fun f hf => ⟨inverse_error hf, ?_⟩,
      fun i v hi hv => exec_resultE_ok h hediv ((divide_of_inverse_ok hi).trans hv),
      fun i f hi hf => ⟨mulFold_error hf, ?_⟩⟩
    · rw [exec_resultE_error h hemul hf, hfail f (.inr ((mulFold_error hf).symm.imp_right .inl))]
    · rw [exec_resultE_error h hediv (divide_of_inverse_error hf), hfail f (.inr (inverse_error hf))]
    · have hdiv : divide a.val b.val a.mod = .error f := (divide_of_inverse_ok hi).trans hf
      rw [exec_resultE_error h hediv hdiv, hfail f (.inr (divide_error hdiv))]
  · exact ⟨inverse_error hf, by rw [exec_resultE_error h rfl hf, hfail f (.inr (inverse_error hf))]⟩
  · rw [exec_resultE_error h rfl (reducedPower_domain a.val (s.readP rp) hN), hfail .domain (by simp)]
  · have hpower : commandBody s (.eexp rd ra rp) =
        resultE s rd a.mod (polyExp a.val (BitVec.ofNat 64 ((s.readP rp).toNat % N)) a.mod) :=
      congrArg (resultE s rd a.mod) (reducedPower_eq_polyExp a.val (s.readP rp) hN)
    refine ⟨fun v hv => exec_resultE_ok h hpower hv, fun f hf => ?_, fun he => exec_resultE_ok h hpower ?_⟩
    · obtain rfl := polyExp_error hf
      exact ⟨rfl, by rw [exec_resultE_error h hpower hf, hfail .overflow (by simp)]⟩
    · rw [he, polyExp_zero]

end Sys2Proof.Machine
end

section
/-! The halt state and the failures: every way a command is accepted ends in `answerHalted` while `HALT` is 1 (R207), and in a
running state a failure is one bit and its code (R205, R206). -/

namespace Sys2Proof.Machine

open Sys2Proof.Safety

section Halted
variable {s : State}

/-- In the halt state every word presented, legal or illegal, is answered `HALTED` (R207). -/
theorem step_command_halted (hr : s.inputs.rst = false) (hv : s.inputs.cmdValid = true) (h : s.halt = true) :
    step s = .next (answerHalted s).nextInputs := by
  have haccept : acceptCommand s = .next (answerHalted s) := by
    cases hd : decode s.inputs.cmdWord with
    | ok i => rw [acceptCommand_legal hd, exec_halted h]
    | error x => rw [acceptCommand_illegal hd, illegalCommand_halted h]
  rw [step_command hr hv, haccept, advance_next]

end Halted

/-- Settles O7: a command is answered by `answerHalted`, an idle step drops the response; what is left of a step is the input
side. -/
theorem haltStateAnswersHaltedToEverything : Obligations.HaltStateAnswersHaltedToEverything := by
  intro s h
  refine ⟨fun i => exec_halted h, fun hr hv => ⟨_, step_command_halted hr hv h, ?_⟩, fun t hr hstep => ?_⟩
  · rw [State.nextInputs_eq]
    rfl
  · cases hv : s.inputs.cmdValid with
    | true =>
      rw [step_command_halted hr hv h, State.nextInputs_eq] at hstep
      cases hstep
      rfl
    | false =>
      rw [step_idle hr hv, State.nextInputs_eq] at hstep
      cases hstep
      rfl

/-- The state after any failure, from a running state: the flag of the code, or `HALT` for `INVARIANT` (R205, R206). -/
theorem takeFailure_eq_of_running {s : State} (f : Failure) (h : s.halt = false) :
    takeFailure f s =
      { s with
        fc := s.fc || f.code == .construction, fd := s.fd || f.code == .domain, fx := s.fx || f.code == .xdomain,
        fo := s.fo || f.code == .overflow, fl := s.fl || f.code == .illegal, fn := s.fn || f.code == .noField,
        halt := f.code == .invariant, rsp := some { status := f.code, data := 0#64 } } := by
  cases f <;> simp [takeFailure, State.recordFailure, State.respond, Failure.code, h]

/-- Only the commands that invert have `INVARIANT` in their row of R202. -/
theorem inverts_of_invariant_mem_causes {i : Instr} (h : ResultCode.invariant ∈ causes i) : inverts i = true := by
  cases i with
  | finv | fdiv | einv | ediv => rfl
  | _ => simp [causes] at h

/-- A body that fails with `INVARIANT` is that of a command that inverts (R206). -/
theorem inverts_of_commandBody_invariant {i : Instr} {s : State} (h : commandBody s i = .error .invariant) :
    inverts i = true :=
  inverts_of_invariant_mem_causes ((commandBody_error_mem_causes h).resolve_left (by decide))

/-- Settles O12: of the three ways a command can end only a failure has such a code, and its state is that of
`takeFailure_eq_of_running`. -/
theorem failuresSetOneBitAndNothingElse : Obligations.FailuresSetOneBitAndNothingElse := by
  intro i s t c d hexec hrsp hok hhalted
  obtain ⟨-, rfl⟩ | ⟨-, s', d', -, rfl⟩ | ⟨hrun, f, hbody, rfl⟩ := exec_cases hexec
  · cases hrsp
    exact absurd rfl hhalted
  · cases hrsp
    exact absurd rfl hok
  · rw [takeFailure_rsp] at hrsp
    cases hrsp
    refine ⟨rfl, fun hcode => ?_, takeFailure_eq_of_running f hrun⟩
    obtain rfl := Failure.code_injective f .invariant hcode
    exact inverts_of_commandBody_invariant hbody

end Sys2Proof.Machine
end

section
/-! Decoding and encoding are inverse (R55, R60, R61). A word is its six packed fields; the must-be-zero bits of its row clear the
fields the row's command does not use, and the other fields are the command's operands. -/

set_option Elab.async false

namespace Sys2Proof

open Safety

section Fields

/-- The immediate, bits 11:0 (R55). -/
def immField (w : CmdWord) : BitVec 12 := w.extractLsb' 0 12

@[simp] theorem immField_packWord (op : BitVec 8) (rd ra rb rc : BitVec 3) (imm : BitVec 12) :
    immField (packWord op rd ra rb rc imm) = imm := by
  ext k hk
  simp only [immField, packWord, BitVec.getElem_extractLsb', BitVec.getLsbD_append]
  rw [if_pos (show 0 + k < 12 by omega), Nat.zero_add, BitVec.getLsbD_eq_getElem hk]

/-- A word is its fields (R55). -/
theorem packWord_fields (w : CmdWord) :
    packWord (opField w) (rdField w) (raField w) (rbField w) (rcField w) (immField w) = w := by
  refine BitVec.eq_of_getLsbD_eq fun j hj => ?_
  simp only [packWord, opField, rdField, raField, rbField, rcField, immField, BitVec.getLsbD_append,
    BitVec.getLsbD_extractLsb']
  grind

theorem packWord_inj {op op' : BitVec 8} {rd ra rb rc rd' ra' rb' rc' : BitVec 3} {imm imm' : BitVec 12} :
    packWord op rd ra rb rc imm = packWord op' rd' ra' rb' rc' imm' ↔
      op = op' ∧ rd = rd' ∧ ra = ra' ∧ rb = rb' ∧ rc = rc' ∧ imm = imm' := by
  refine ⟨fun h => ⟨?_, ?_, ?_, ?_, ?_, ?_⟩, fun ⟨h1, h2, h3, h4, h5, h6⟩ => by rw [h1, h2, h3, h4, h5, h6]⟩
  · simpa using congrArg opField h
  · simpa using congrArg rdField h
  · simpa using congrArg raField h
  · simpa using congrArg rbField h
  · simpa using congrArg rcField h
  · simpa using congrArg immField h

variable (w : CmdWord)

theorem kField_eq_immField : kField w = (immField w).setWidth 6 := by
  rw [← kField_packWord, packWord_fields]

theorem maskField_eq_immField : maskField w = (immField w).setWidth 8 := by
  rw [← maskField_packWord, packWord_fields]

theorem wcField_eq_immField : wcField w = (immField w).setWidth 2 := by
  rw [← wcField_packWord, packWord_fields]

/-- The test of R56 field by field. -/
theorem and_packWord_eq_shiftOpcode_iff {op : BitVec 8} {mop : BitVec 8} {mrd mra mrb mrc : BitVec 3} {mimm : BitVec 12} :
    w &&& packWord mop mrd mra mrb mrc mimm = op.setWidth 32 <<< 24 ↔
      opField w &&& mop = op ∧ rdField w &&& mrd = 0#3 ∧ raField w &&& mra = 0#3 ∧ rbField w &&& mrb = 0#3 ∧
        rcField w &&& mrc = 0#3 ∧ immField w &&& mimm = 0#12 := by
  conv_lhs => rw [← packWord_fields w]
  rw [packWord_and, shiftOpcode_eq_packWord, packWord_inj]

end Fields

section Masks
variable {imm : BitVec 12}

theorem setWidth_of_kImm (h : imm &&& 0xFC0#12 = 0#12) : (imm.setWidth 6).setWidth 12 = imm := by
  revert imm; decide +kernel

theorem setWidth_of_maskImm (h : imm &&& 0xF00#12 = 0#12) : (imm.setWidth 8).setWidth 12 = imm := by
  revert imm; decide +kernel

theorem setWidth_of_wcImm (h : imm &&& 0xFFC#12 = 0#12) : (imm.setWidth 2).setWidth 12 = imm := by
  revert imm; decide +kernel

/-- A must-be-zero field is tested whole. -/
theorem and_allOnes3 (r : BitVec 3) : r &&& 7#3 = r := BitVec.and_allOnes

theorem and_allOnes12 (imm : BitVec 12) : imm &&& 0xFFF#12 = imm := BitVec.and_allOnes

end Masks

section Decode
variable {w : CmdWord} {op : BitVec 8} {fmt : Format} {i : Instr}

/-- Everything a word that decodes has passed (R61). -/
theorem decode_eq_ok_iff :
    decode w = .ok i ↔ ∃ fmt, commandOf (opField w) w = some (fmt, i) ∧
      w &&& fmt.mask = (opField w).setWidth 32 <<< 24 ∧ i.defect = none := by
  cases hrow : commandOf (opField w) w with
  | none => simp [decode, hrow]
  | some row =>
    obtain ⟨fmt, j⟩ := row
    by_cases hmask : w &&& fmt.mask = (opField w).setWidth 32 <<< 24
    · cases hdefect : j.defect with
      | none =>
        simp only [decode, hrow, hmask, hdefect, Option.some.injEq, Prod.mk.injEq, Except.ok.injEq, if_true]
        exact ⟨by rintro rfl; exact ⟨fmt, ⟨rfl, rfl⟩, hmask, hdefect⟩, fun ⟨_, ⟨_, hj⟩, _⟩ => hj⟩
      | some d =>
        simp only [decode, hrow, hmask, hdefect, Option.some.injEq, Prod.mk.injEq, if_true]
        exact ⟨nofun, by rintro ⟨_, ⟨-, rfl⟩, -, hd⟩; rw [hdefect] at hd; cases hd⟩
    · simp only [decode, hrow, hmask, Option.some.injEq, Prod.mk.injEq, if_false]
      exact ⟨nofun, by rintro ⟨_, ⟨rfl, -⟩, hmask', -⟩; exact absurd hmask' hmask⟩

/-- The row of a command's opcode is the command's (R60). -/
theorem commandOf_encode (i : Instr) : commandOf i.opcode (encode i) = some (i.format, i) := by
  rw [encode_eq_packWord]
  cases i <;> simp [commandOf, Instr.opcode, Instr.fields, Instr.format]

/-- The row that answers for an opcode has that opcode and its command's format (R60). -/
theorem opcode_format_of_commandOf (h : commandOf op w = some (fmt, i)) : i.opcode = op ∧ i.format = fmt := by
  simp only [commandOf] at h
  split at h <;> cases h <;> exact ⟨BitVec.eq_of_toNat_eq (by simp only [*]; rfl), rfl⟩

/-- With its must-be-zero bits clear, a word is the word of its row's command (R56, R64). -/
theorem encode_of_commandOf (h : commandOf (opField w) w = some (fmt, i))
    (hmask : w &&& fmt.mask = (opField w).setWidth 32 <<< 24) : encode i = w := by
  obtain ⟨hop, -⟩ := opcode_format_of_commandOf h
  rw [encode_eq_packWord, hop]
  conv_rhs => rw [← packWord_fields w]
  rw [Format.mask_eq_packWord] at hmask
  simp only [commandOf] at h
  split at h <;> cases h
  all_goals
    simp only [and_packWord_eq_shiftOpcode_iff, and_allOnes3, and_allOnes12] at hmask
    simp [hmask, Instr.fields, kField_eq_immField, maskField_eq_immField, wcField_eq_immField, setWidth_of_kImm,
      setWidth_of_maskImm, setWidth_of_wcImm]

/-- Every word of a command has the fixed bits of its row (R56). -/
theorem encode_and_mask (i : Instr) : encode i &&& i.format.mask = i.opcode.setWidth 32 <<< 24 := by
  open Laws.EncodeMatchesRow in
  cases i
  exacts [nop, ldi _, mov _ _, rdp _, ldc _ _, rdst, clrf, padd _ _ _, pmul _ _ _, pdiv _ _ _ _, pmod _ _ _, pexp _ _ _ _,
    pdeg _ _, pford _ _, fcfg _ _, ford _, fgen _ _, fadd _ _ _, fmul _ _ _, finv _ _, fdiv _ _ _, fexp _ _ _, faddv _ _,
    fmulv _ _, fgetm _, emk _ _ _, egen _ _ _, eget _ _, egetm _ _, emul _ _ _, ediv _ _ _, einv _ _, eexp _ _ _,
    eeq _ _, eisz _, eis1 _]

end Decode

theorem Instr.wf_iff (i : Instr) : i.wf = true ↔ i.defect = none := Option.isNone_iff_eq_none

/-- Settles O2: the row of the command's opcode answers it (`commandOf_encode`), its must-be-zero bits are clear
(`encode_and_mask`), and no extra condition fails. -/
theorem decodeOfEncodeIsTheCommand : Obligations.DecodeOfEncodeIsTheCommand := by
  intro i hwf
  rw [decode_eq_ok_iff, opField_encode]
  exact ⟨i.format, commandOf_encode i, encode_and_mask i, i.wf_iff.mp hwf⟩

/-- Settles O3, by `encode_of_commandOf`. -/
theorem encodeOfDecodeIsTheWord : Obligations.EncodeOfDecodeIsTheWord := by
  intro w i h
  obtain ⟨fmt, hrow, hmask, hdefect⟩ := decode_eq_ok_iff.mp h
  exact ⟨i.wf_iff.mpr hdefect, encode_of_commandOf hrow hmask⟩

section OpcodeMap
variable {w : CmdWord} {op : BitVec 8} {fmt : Format}

/-- The row of a command in the table of R60. -/
theorem opcode_mask_mem_opcodeMap (i : Instr) : (i.opcode, i.format.mask) ∈ opcodeMap := by
  cases i <;> simp [opcodeMap, Instr.opcode, Instr.format, Format.mask]

/-- Each row of the table has a command of the decoder's. -/
theorem exists_commandOf_of_mem_opcodeMap {row : BitVec 8 × CmdWord} (h : row ∈ opcodeMap) (w : CmdWord) :
    ∃ fmt i, commandOf row.1 w = some (fmt, i) ∧ fmt.mask = row.2 := by
  fin_cases h <;> exact ⟨_, _, rfl, rfl⟩

theorem opField_of_and_mask (h : w &&& fmt.mask = op.setWidth 32 <<< 24) : opField w = op := by
  have hop : opField w &&& 0xFF#8 = op := by
    rw [Format.mask_eq_packWord] at h
    cases fmt <;> exact ((and_packWord_eq_shiftOpcode_iff w).mp h).1
  rwa [show opField w &&& 0xFF#8 = opField w from BitVec.and_allOnes] at hop

/-- The raw bits 5:0, which the extra condition of `LDC` reads. -/
theorem and_0x3F_toNat (w : CmdWord) : (w &&& 0x3F#32).toNat = (kField w).toNat := by
  simp [kField, Nat.and_two_pow_sub_one_eq_mod _ 6]

theorem shift_and_seven_eq_iff (w : CmdWord) :
    (w >>> 21) &&& 7#32 = (w >>> 12) &&& 7#32 ↔ rdField w = rcField w := by
  simp [← BitVec.toNat_inj, rdField, rcField, Nat.and_two_pow_sub_one_eq_mod _ 3]

/-- The extra conditions of R60, read from the command's own word. -/
theorem defect_eq_none_iff (i : Instr) :
    i.defect = none ↔
      (i.opcode = 0x04#8 → 2 ≤ (encode i &&& 0x3F#32).toNat ∧ (encode i &&& 0x3F#32).toNat ≤ 32) ∧
      (i.opcode = 0x12#8 → (encode i >>> 21) &&& 7#32 ≠ (encode i >>> 12) &&& 7#32) := by
  rw [and_0x3F_toNat, ne_eq, shift_and_seven_eq_iff, encode_eq_packWord]
  cases i with
  | ldc rd k => simp [Instr.defect, Instr.opcode, Instr.fields]
  | pdiv rd rc ra rb => simp [Instr.defect, Instr.opcode, Instr.fields]
  | _ => simp [Instr.defect, Instr.opcode]

end OpcodeMap

/-- Settles O4: a command's row is in the table, and a row of the table is the decoder's row of its opcode; both read the extra
conditions from the word by `defect_eq_none_iff`. -/
theorem legalWordsAreExactlyTheOpcodeMap : Obligations.LegalWordsAreExactlyTheOpcodeMap := by
  refine fun w => ⟨fun ⟨i, h⟩ => ?_, fun ⟨row, hmem, hmask, hk, hdest⟩ => ?_⟩
  · obtain ⟨hwf, rfl⟩ := encodeOfDecodeIsTheWord w i h
    exact ⟨_, opcode_mask_mem_opcodeMap i, encode_and_mask i, (defect_eq_none_iff i).mp (i.wf_iff.mp hwf)⟩
  · obtain ⟨fmt, i, hrow, hfmt⟩ := exists_commandOf_of_mem_opcodeMap hmem w
    rw [← hfmt] at hmask
    have hop : opField w = row.1 := opField_of_and_mask hmask
    rw [← hop] at hrow hmask hk hdest
    obtain rfl := encode_of_commandOf hrow hmask
    rw [opField_encode] at hk hdest
    exact ⟨i, decode_eq_ok_iff.mpr ⟨fmt, hrow, hmask, (defect_eq_none_iff i).mpr ⟨hk, hdest⟩⟩⟩

/-- Settles O1, by running the decoder on the words. -/
theorem decodesTheWordsOfEveryFamily : Obligations.DecodesTheWordsOfEveryFamily := by
  unfold Obligations.DecodesTheWordsOfEveryFamily
  decide

end Sys2Proof
end

section
/-! What a successful command writes, said once (`Writes`), and from it the frame of every command, the ways into and out of
`HALT`, `CFGV` and the sticky flags, and the coherence of the field configuration (R20 to R30, R36). -/

set_option Elab.async false

namespace Sys2Proof.Machine

open Sys2Proof.Safety

/-- Everything a successful command `i` can write to the state `s`; `commandBody_writes` ties it to the commands. -/
inductive Writes (i : Instr) (s : State) : State → Prop where
  | nothing : Writes i s s
  | oneP (rd : PReg) (v : Poly) (hdest : destP i = [rd]) : Writes i s (s.writeP rd v)
  | twoP (rd rc : PReg) (q r : Poly) (hdest : destP i = [rd, rc]) : Writes i s ((s.writeP rd q).writeP rc r)
  | oneE (rd : EReg) (x : Element) (hdest : destE i = [rd]) : Writes i s (s.writeE rd x)
  | truth (b : Bool) (hdest : writesT i = true) : Writes i s { s with t := b }
  | clear (hi : i = .clrf) : Writes i s s.clearSticky
  | configure (ra : PReg) (wc : BitVec 2) (hi : i = .fcfg ra wc) (hdeg : degree (s.readP ra) ≤ 8 <<< wc.toNat) :
      Writes i s { s with mod := s.readP ra, wid := wc, cfgv := true }

section Body
variable {s s' : State} {d : BitVec 64} {i : Instr}

theorem silent_writes {rd : PReg} {v : Poly} (hdest : destP i = [rd]) (h : silent (s.writeP rd v) = .ok (s', d)) :
    Writes i s s' := by
  cases h
  exact .oneP rd v hdest

theorem resultP_writes {rd : PReg} {r : Except Failure Poly} (hdest : destP i = [rd])
    (h : resultP s rd r = .ok (s', d)) : Writes i s s' := by
  cases r with
  | ok v => exact silent_writes hdest h
  | error f => cases h

theorem resultE_writes {rd : EReg} {m : Poly} {r : Except Failure Poly} (hdest : destE i = [rd])
    (h : resultE s rd m r = .ok (s', d)) : Writes i s s' := by
  cases r with
  | ok v =>
    cases h
    exact .oneE rd _ hdest
  | error f => cases h

/-- A body that succeeds writes what its command's row of R60 names. -/
theorem commandBody_writes (h : commandBody s i = .ok (s', d)) : Writes i s s' := by
  cases i with
  | nop | rdp | rdst => cases h; exact .nothing
  | ldi | mov | padd | pdeg | pford | eget | egetm => exact silent_writes rfl h
  | clrf => cases h; exact .clear rfl
  | ldc =>
    simp only [commandBody] at h
    split at h
    · exact silent_writes rfl h
    · cases h
  | pmul | pmod | pexp => exact resultP_writes rfl h
  | pdiv rd rc ra rb =>
    simp only [commandBody] at h
    split at h
    · cases h
    · split at h
      · cases h
      · cases h
        exact .twoP rd rc _ _ rfl
  | fcfg ra wc =>
    simp only [commandBody] at h
    split at h
    · cases h
    · next hle =>
      cases h
      exact .configure ra wc rfl (Nat.le_of_not_lt hle)
  | ford | fgetm => exact silent_writes rfl (fieldBody_eq_ok_iff.mp h).2
  | fgen | fadd | fmul | finv | fdiv | fexp | faddv | fmulv => exact resultP_writes rfl (fieldBody_eq_ok_iff.mp h).2
  | emk | egen | einv | eexp => exact resultE_writes rfl h
  | emul | ediv => exact resultE_writes rfl (sameModulus_eq_ok_iff.mp h).2
  | eeq | eisz | eis1 => cases h; exact .truth _ rfl

end Body

namespace Writes
variable {i : Instr} {s u : State}

theorem readP_eq (h : Writes i s u) {r : PReg} (hr : r ∉ destP i) : u.readP r = s.readP r := by
  cases h with
  | oneP rd v hdest => exact State.readP_writeP_ne s rd r v (by rintro rfl; simp [hdest] at hr)
  | twoP rd rc q v hdest =>
    have hne : r ≠ rd ∧ r ≠ rc := by simpa [hdest] using hr
    rw [State.readP_writeP_ne _ rc r v hne.2.symm, State.readP_writeP_ne _ rd r q hne.1.symm]
  | _ => rfl

theorem readE_eq (h : Writes i s u) {r : EReg} (hr : r ∉ destE i) : u.readE r = s.readE r := by
  cases h with
  | oneE rd x hdest => exact State.readE_writeE_ne s rd r x (by rintro rfl; simp [hdest] at hr)
  | _ => rfl

theorem config_eq (h : Writes i s u) (hi : ∀ ra wc, i ≠ .fcfg ra wc) :
    u.mod = s.mod ∧ u.wid = s.wid ∧ u.cfgv = s.cfgv := by
  cases h with
  | configure ra wc h => exact absurd h (hi ra wc)
  | _ => exact ⟨rfl, rfl, rfl⟩

theorem t_eq (h : Writes i s u) (hi : writesT i = false) : u.t = s.t := by
  cases h with
  | truth b h =>
    rw [hi] at h
    cases h
  | _ => rfl

theorem port_eq (h : Writes i s u) : u.inputs = s.inputs ∧ u.upcoming = s.upcoming := by
  cases h <;> exact ⟨rfl, rfl⟩

theorem halt_eq (h : Writes i s u) : u.halt = s.halt := by
  cases h <;> rfl

theorem sticky_eq (h : Writes i s u) (hi : i ≠ .clrf) :
    u.fc = s.fc ∧ u.fd = s.fd ∧ u.fx = s.fx ∧ u.fo = s.fo ∧ u.fl = s.fl ∧ u.fn = s.fn := by
  cases h with
  | clear h => exact absurd h hi
  | _ => exact ⟨rfl, rfl, rfl, rfl, rfl, rfl⟩

end Writes

/-- Everything a command can answer, with what it writes: `HALTED`, `OK` after its writes, or a failure. -/
theorem exec_writes {i : Instr} {s t : State} (h : exec i s = .next t) :
    (s.halt = true ∧ t = answerHalted s) ∨
    (s.halt = false ∧ ∃ u d, Writes i s u ∧ t = u.respond .ok d) ∨
    (s.halt = false ∧ ∃ f, commandBody s i = .error f ∧ t = takeFailure f s) :=
  (exec_cases h).imp_right (.imp_left fun ⟨hs, u, d, hbody, ht⟩ => ⟨hs, u, d, commandBody_writes hbody, ht⟩)

/-- Settles O13: an answer other than `OK` changes no destination, and for `OK` each clause is one of `Writes`. -/
theorem frameOfEveryCommand : Obligations.FrameOfEveryCommand := by
  intro i s t h
  obtain ⟨-, rfl⟩ | ⟨-, u, d, hw, rfl⟩ | ⟨-, f, -, rfl⟩ := exec_writes h
  · exact ⟨fun _ _ => rfl, fun _ _ => rfl, fun _ => ⟨rfl, rfl, rfl⟩, fun _ => rfl, rfl, rfl, fun d hd => by cases hd⟩
  · exact ⟨fun r hr => hw.readP_eq hr, fun r hr => hw.readE_eq hr, hw.config_eq, hw.t_eq, hw.port_eq.1, hw.port_eq.2,
      fun _ _ => ⟨hw.halt_eq, hw.sticky_eq⟩⟩
  · refine ⟨fun r _ => readP_takeFailure s f r, fun r _ => readE_takeFailure s f r,
      fun _ => ⟨takeFailure_mod s f, takeFailure_wid s f, takeFailure_cfgv s f⟩, fun _ => takeFailure_t s f,
      takeFailure_inputs s f, takeFailure_upcoming s f, fun d hd => ?_⟩
    rw [takeFailure_rsp, Option.some.injEq, Response.mk.injEq] at hd
    exact absurd hd.1 f.code_ne_ok

section Step
variable {i : Instr} {s t u : State}

theorem exec_total (i : Instr) (s : State) : ∃ t, exec i s = .next t := by
  rw [exec_eq_runCommand]
  exact runCommand_total s _

theorem exec_rsp_isSome (h : exec i s = .next t) : t.rsp.isSome = true := by
  obtain ⟨-, rfl⟩ | ⟨-, u, d, -, rfl⟩ | ⟨-, f, -, rfl⟩ := exec_writes h
  · rfl
  · rfl
  · rw [takeFailure_rsp, Option.isSome_some]

/-- Everything an illegal word can be answered (R62, R207). -/
theorem illegalCommand_cases (h : illegalCommand s = .next t) :
    (s.halt = true ∧ t = answerHalted s) ∨ (s.halt = false ∧ t = takeFailure .illegal s) := by
  cases hs : s.halt with
  | true =>
    rw [illegalCommand_halted hs] at h
    cases h
    exact .inl ⟨rfl, rfl⟩
  | false =>
    rw [illegalCommand_running hs] at h
    cases h
    exact .inr ⟨rfl, rfl⟩

/-- What an accepted word leaves, legal or not: the input side as it was, and a response. -/
theorem acceptCommand_port (s : State) :
    ∃ t, acceptCommand s = .next t ∧ t.inputs = s.inputs ∧ t.upcoming = s.upcoming ∧ t.rsp.isSome = true := by
  cases hd : decode s.inputs.cmdWord with
  | ok i =>
    obtain ⟨t, ht⟩ := exec_total i s
    obtain ⟨-, -, -, -, hin, hup, -⟩ := frameOfEveryCommand i s t ht
    exact ⟨t, by rw [acceptCommand_legal hd, ht], hin, hup, exec_rsp_isSome ht⟩
  | error x =>
    rw [acceptCommand_illegal hd]
    cases hs : s.halt with
    | true => exact ⟨_, illegalCommand_halted hs, rfl, rfl, rfl⟩
    | false =>
      exact ⟨_, illegalCommand_running hs, takeFailure_inputs s _, takeFailure_upcoming s _, by rw [takeFailure_rsp]; rfl⟩

theorem nextLevels_congr (hin : t.inputs = s.inputs) (hup : t.upcoming = s.upcoming) : nextLevels t = nextLevels s := by
  rw [nextLevels, nextLevels, hin, hup]

theorem State.nextInputs_of_port (hin : t.inputs = s.inputs) (hup : t.upcoming = s.upcoming) :
    t.nextInputs = { t with inputs := nextLevels s, upcoming := s.upcoming.tail } := by
  rw [State.nextInputs_eq, nextLevels_congr hin hup, hup]

end Step

/-- Settles O5: a command leaves the input side as it was (O13), and then the host drives its next levels. -/
theorem stepRunsTheDecodedCommand : Obligations.StepRunsTheDecodedCommand := by
  intro s i hr hv hd
  obtain ⟨t, ht⟩ := exec_total i s
  obtain ⟨-, -, -, -, hin, hup, -⟩ := frameOfEveryCommand i s t ht
  refine ⟨t, ht, ?_⟩
  rw [step_command hr hv, acceptCommand_legal hd, ht, advance_next, State.nextInputs_of_port hin hup]

/-- Settles O10, by the three kinds of step: reset, idle, and an accepted word (`acceptCommand_port`). -/
theorem responseFollowsAcceptance : Obligations.ResponseFollowsAcceptance := by
  intro s
  cases hr : s.inputs.rst with
  | true =>
    refine ⟨_, step_reset hr, ?_⟩
    rw [State.nextInputs_of_port (s := s) (t := s.applyReset) rfl rfl]
    exact ⟨rfl, rfl, rfl, nofun⟩
  | false =>
    cases hv : s.inputs.cmdValid with
    | false =>
      refine ⟨_, step_idle hr hv, ?_⟩
      rw [State.nextInputs_of_port (s := s) (t := s.idleStep) rfl rfl]
      exact ⟨rfl, rfl, rfl, fun _ _ => rfl⟩
    | true =>
      obtain ⟨t, ht, hin, hup, hrsp⟩ := acceptCommand_port s
      refine ⟨t.nextInputs, by rw [step_command hr hv, ht, advance_next], ?_⟩
      rw [State.nextInputs_of_port hin hup]
      exact ⟨hrsp, rfl, rfl, nofun⟩

section IllFormed
variable {i : Instr} {s : State}

/-- The body of a term no legal word stands for (log 13). -/
theorem commandBody_of_not_wf (h : i.wf = false) : commandBody s i = .error .illegal := by
  have hdefect : i.defect ≠ none := fun hd => by simp [Instr.wf, hd] at h
  cases i with
  | ldc rd k =>
    refine if_neg fun hk => hdefect (if_pos hk)
  | pdiv rd rc ra rb =>
    refine if_pos ?_
    by_contra hne
    exact hdefect (if_neg hne)
  | _ => exact absurd rfl hdefect

/-- No unit, result form or check fails with `ILLEGAL`; only the extra conditions of R60 do. -/
theorem commandBody_ne_illegal (hwf : i.wf = true) : commandBody s i ≠ .error .illegal := by
  intro h
  cases i with
  | nop | ldi | mov | rdp | rdst | clrf | padd | pdeg | pford | eget | egetm | eeq | eisz | eis1 => cases h
  | ldc rd k =>
    by_cases hk : 2 ≤ k.toNat ∧ k.toNat ≤ 32
    · rw [commandBody, if_pos hk] at h
      cases h
    · simp [Instr.wf, Instr.defect, hk] at hwf
  | pdiv rd rc ra rb =>
    by_cases hne : rd = rc
    · simp [Instr.wf, Instr.defect, hne] at hwf
    · rw [commandBody, if_neg hne] at h
      split at h
      · next f hdiv => cases h; exact absurd (polyDiv_error hdiv) (by decide)
      · cases h
  | fcfg =>
    simp only [commandBody] at h
    split at h <;> cases h
  | pmul => exact absurd (polyMul_error (resultP_eq_error_iff.mp h)) (by decide)
  | pmod => exact absurd (polyMod_error (resultP_eq_error_iff.mp h)) (by decide)
  | pexp => exact absurd (polyExp_error (resultP_eq_error_iff.mp h)) (by decide)
  | emk => exact absurd (polyMod_error (resultE_eq_error_iff.mp h)) (by decide)
  | egen | eexp => exact absurd (reducedPower_error (resultE_eq_error_iff.mp h)) (by decide)
  | einv => exact absurd (inverse_error (resultE_eq_error_iff.mp h)) (by decide)
  | emul => exact absurd ((sameModulus_resultE_error h).imp_right mulFold_error) (by decide)
  | ediv => exact absurd ((sameModulus_resultE_error h).imp_right divide_error) (by decide)
  | ford | fgetm => exact absurd ((fieldBody_error h).resolve_right nofun) (by decide)
  | fadd | faddv => exact absurd ((fieldBody_resultField_error h).resolve_right nofun) (by decide)
  | fgen | fexp => exact absurd ((fieldBody_resultField_error h).imp_right reducedPower_error) (by decide)
  | fmul | fmulv => exact absurd ((fieldBody_resultField_error h).imp_right mulFold_error) (by decide)
  | finv => exact absurd ((fieldBody_resultField_error h).imp_right inverse_error) (by decide)
  | fdiv => exact absurd ((fieldBody_resultField_error h).imp_right divide_error) (by decide)

end IllFormed

/-- Settles O6: an illegal word is answered by `illegalCommand`, an ill-formed term by the failure of its body. -/
theorem illegalWordSetsOnlyFL : Obligations.IllegalWordSetsOnlyFL := by
  refine ⟨fun s x hr hv hd => ⟨fun h => ?_, fun h => ?_⟩, fun i s hwf h => ?_⟩
  · rw [step_command hr hv, acceptCommand_illegal hd, illegalCommand_running h, advance_next, State.nextInputs_eq]
    rfl
  · rw [step_command hr hv, acceptCommand_illegal hd, illegalCommand_halted h, advance_next, State.nextInputs_eq]
    rfl
  · exact exec_running_of_error h (commandBody_of_not_wf hwf)

/-- Settles O11: of a well-formed command no failure is `ILLEGAL`, so each is in its row (`commandBody_error_mem_causes`). -/
theorem commandsEndOnlyWithTheirListedCauses : Obligations.CommandsEndOnlyWithTheirListedCauses := by
  intro i s hwf
  obtain ⟨t, ht⟩ := exec_total i s
  obtain ⟨hs, rfl⟩ | ⟨hs, u, d, -, rfl⟩ | ⟨hs, f, hbody, rfl⟩ := exec_writes ht
  · exact ⟨_, .halted, 0#64, ht, rfl, fun _ => rfl, fun h => by rw [hs] at h; cases h⟩
  · exact ⟨_, .ok, d, ht, rfl, fun h => (by rw [hs] at h; cases h), fun _ => .inl rfl⟩
  · refine ⟨_, f.code, 0#64, ht, takeFailure_rsp s f, fun h => (by rw [hs] at h; cases h), fun _ => .inr ?_⟩
    refine (commandBody_error_mem_causes hbody).resolve_left ?_
    rintro rfl
    exact commandBody_ne_illegal hwf hbody

section Kept
variable {i : Instr} {s t u : State}

theorem Writes.cfgv_of_cfgv (h : Writes i s u) (hc : s.cfgv = true) : u.cfgv = true := by
  cases h with
  | configure => rfl
  | _ => exact hc

/-- A command leaves `HALT` and `CFGV` at 1 (R24, R30). -/
theorem exec_keeps_halt_cfgv (h : exec i s = .next t) :
    (s.halt = true → t.halt = true) ∧ (s.cfgv = true → t.cfgv = true) := by
  obtain ⟨-, rfl⟩ | ⟨-, u, d, hw, rfl⟩ | ⟨-, f, -, rfl⟩ := exec_writes h
  · exact ⟨id, id⟩
  · exact ⟨fun hs => hw.halt_eq.trans hs, hw.cfgv_of_cfgv⟩
  · exact ⟨fun hs => by rw [takeFailure_halt, hs, Bool.true_or], fun hc => by rw [takeFailure_cfgv, hc]⟩

theorem illegalCommand_keeps_halt_cfgv (h : illegalCommand s = .next t) :
    (s.halt = true → t.halt = true) ∧ (s.cfgv = true → t.cfgv = true) := by
  obtain ⟨-, rfl⟩ | ⟨-, rfl⟩ := illegalCommand_cases h
  · exact ⟨id, id⟩
  · exact ⟨fun hs => by rw [takeFailure_halt, hs, Bool.true_or], fun hc => by rw [takeFailure_cfgv, hc]⟩

/-- The six sticky flags of `t` are at least those of `s`. -/
def StickyKept (s t : State) : Prop :=
  (s.fc = true → t.fc = true) ∧ (s.fd = true → t.fd = true) ∧ (s.fx = true → t.fx = true) ∧
  (s.fo = true → t.fo = true) ∧ (s.fl = true → t.fl = true) ∧ (s.fn = true → t.fn = true)

theorem stickyKept_refl (s : State) : StickyKept s s := ⟨id, id, id, id, id, id⟩

theorem stickyKept_takeFailure (f : Failure) (s : State) : StickyKept s (takeFailure f s) := by
  simp +contextual [StickyKept]

theorem exec_stickyKept (h : exec i s = .next t) (hi : i ≠ .clrf) : StickyKept s t := by
  obtain ⟨-, rfl⟩ | ⟨-, u, d, hw, rfl⟩ | ⟨-, f, -, rfl⟩ := exec_writes h
  · exact stickyKept_refl s
  · obtain ⟨hfc, hfd, hfx, hfo, hfl, hfn⟩ := hw.sticky_eq hi
    exact ⟨hfc.trans, hfd.trans, hfx.trans, hfo.trans, hfl.trans, hfn.trans⟩
  · exact stickyKept_takeFailure f s

theorem illegalCommand_stickyKept (h : illegalCommand s = .next t) : StickyKept s t := by
  obtain ⟨-, rfl⟩ | ⟨-, rfl⟩ := illegalCommand_cases h
  · exact stickyKept_refl s
  · exact stickyKept_takeFailure .illegal s

theorem stickyKept_nextInputs (h : StickyKept s u) : StickyKept s u.nextInputs := by
  simpa [StickyKept] using h

end Kept

/-- Settles O8: `State.applyReset` is the reset state beside the input side; no command, illegal word or idle step lowers `HALT`
or `CFGV`. -/
theorem resetClearsEveryBit : Obligations.ResetClearsEveryBit := by
  refine ⟨fun s hr => ⟨_, step_reset hr, ?_⟩, fun s t hr h => ?_⟩
  · rw [State.nextInputs_eq]
    exact ⟨State.readP_reset, State.readE_reset, rfl, rfl, rfl, rfl, rfl, rfl, rfl, rfl, rfl, rfl, rfl, rfl⟩
  · obtain ⟨hr', -⟩ | ⟨-, -, rfl⟩ | ⟨-, -, ⟨i, u, -, hu, rfl⟩ | ⟨x, u, -, hu, rfl⟩⟩ := step_cases h
    · rw [hr] at hr'
      cases hr'
    · simp
    · simpa using exec_keeps_halt_cfgv hu
    · simpa using illegalCommand_keeps_halt_cfgv hu

/-- Settles O14: only `CLRF` lowers a flag, and its one word is `0x06000000` (O3). -/
theorem stickyFlagsStayUntilClrfOrReset : Obligations.StickyFlagsStayUntilClrfOrReset := by
  intro s t h hr hword
  obtain ⟨hr', -⟩ | ⟨-, -, rfl⟩ | ⟨-, hv, ⟨i, u, hd, hu, rfl⟩ | ⟨x, u, -, hu, rfl⟩⟩ := step_cases h
  · rw [hr] at hr'
    cases hr'
  · exact stickyKept_nextInputs (stickyKept_refl s)
  · refine stickyKept_nextInputs (exec_stickyKept hu ?_)
    rintro rfl
    have hne : s.inputs.cmdWord ≠ 0x06000000#32 := hword.resolve_left (by simp [hv])
    exact hne (encodeOfDecodeIsTheWord _ _ hd).2.symm
  · exact stickyKept_nextInputs (illegalCommand_stickyKept hu)

/-- Settles O15: `HALT` rises only where a body fails with `INVARIANT`, which only the inverting commands do. -/
theorem haltOnlyAfterInvariant : Obligations.HaltOnlyAfterInvariant := by
  intro s t h hs ht
  have stays {u : State} (ht : u.nextInputs.halt = true) (hu : u.halt = s.halt) : False := by
    rw [State.nextInputs_halt, hu, hs] at ht
    cases ht
  obtain ⟨-, rfl⟩ | ⟨-, -, rfl⟩ | ⟨-, -, ⟨i, u, hd, hu, rfl⟩ | ⟨x, u, -, hu, rfl⟩⟩ := step_cases h
  · exact (stays ht (by rw [hs]; rfl)).elim
  · exact (stays ht rfl).elim
  · obtain ⟨-, rfl⟩ | ⟨-, u, d, hw, rfl⟩ | ⟨-, f, hbody, rfl⟩ := exec_writes hu
    · exact (stays ht rfl).elim
    · exact (stays ht hw.halt_eq).elim
    · obtain rfl : f = .invariant := by simpa [hs] using ht
      exact ⟨by rw [State.nextInputs_rsp, takeFailure_rsp]; rfl, i, hd, inverts_of_commandBody_invariant hbody⟩
  · obtain ⟨-, rfl⟩ | ⟨-, rfl⟩ := illegalCommand_cases hu
    · exact (stays ht rfl).elim
    · exact (stays ht (by simp)).elim

section Coherence
variable {i : Instr} {s t u : State}

/-- Coherence is a fact about `MOD`, `WID` and `CFGV` alone. -/
theorem fieldCoherent_congr (hmod : t.mod = s.mod) (hwid : t.wid = s.wid) (hcfgv : t.cfgv = s.cfgv)
    (h : FieldCoherent s) : FieldCoherent t := by
  rw [FieldCoherent, State.width, hmod, hwid, hcfgv]
  exact h

theorem Writes.fieldCoherent (hw : Writes i s u) (h : FieldCoherent s) : FieldCoherent u := by
  cases hw with
  | configure ra wc hi hdeg => exact ⟨hdeg, nofun⟩
  | _ => exact h

theorem exec_fieldCoherent (hu : exec i s = .next u) (h : FieldCoherent s) : FieldCoherent u := by
  obtain ⟨-, rfl⟩ | ⟨-, u, d, hw, rfl⟩ | ⟨-, f, -, rfl⟩ := exec_writes hu
  · exact h
  · exact hw.fieldCoherent h
  · exact fieldCoherent_congr (takeFailure_mod s f) (takeFailure_wid s f) (takeFailure_cfgv s f) h

theorem illegalCommand_fieldCoherent (hu : illegalCommand s = .next u) (h : FieldCoherent s) : FieldCoherent u := by
  obtain ⟨-, rfl⟩ | ⟨-, rfl⟩ := illegalCommand_cases hu <;> exact h

theorem fieldCoherent_nextInputs (h : FieldCoherent u) : FieldCoherent u.nextInputs :=
  fieldCoherent_congr (State.nextInputs_mod u) (State.nextInputs_wid u) (State.nextInputs_cfgv u) h

theorem fieldCoherent_reset : FieldCoherent State.reset := ⟨by decide, fun _ => ⟨rfl, rfl⟩⟩

end Coherence

/-- Settles O17: every register is 0 at reset. -/
theorem invariantsHoldAtReset : Obligations.InvariantsHoldAtReset :=
  ⟨fun i => .inl (by rw [State.readE_reset]), fieldCoherent_reset⟩

/-- Settles O19: `FCFG` tests the degree against the width it writes, and nothing else writes the configuration. -/
theorem stepKeepsFieldCoherent : Obligations.StepKeepsFieldCoherent := by
  intro s t hs h
  obtain ⟨-, rfl⟩ | ⟨-, -, rfl⟩ | ⟨-, -, ⟨i, u, -, hu, rfl⟩ | ⟨x, u, -, hu, rfl⟩⟩ := step_cases h
  · exact fieldCoherent_nextInputs (fieldCoherent_congr (s := State.reset) rfl rfl rfl fieldCoherent_reset)
  · exact fieldCoherent_nextInputs hs
  · exact fieldCoherent_nextInputs (exec_fieldCoherent hu hs)
  · exact fieldCoherent_nextInputs (illegalCommand_fieldCoherent hu hs)

end Sys2Proof.Machine
end

section
/-! What a command does not read. An update of the state that no register read or write sees goes through every P, E and system
body (`Unseen`): so it is for the field configuration (R132, R170 a), and for the flags once they are forgotten in the result
(R28, R29). -/

set_option Elab.async false

namespace Sys2Proof.Machine

open Sys2Proof.Safety

/-- No register read sees the update, and every write and response commutes with it. -/
structure Unseen (f : State → State) : Prop where
  halt : ∀ s, (f s).halt = s.halt
  readP : ∀ s r, (f s).readP r = s.readP r
  readE : ∀ s r, (f s).readE r = s.readE r
  writeP : ∀ s r v, (f s).writeP r v = f (s.writeP r v)
  writeE : ∀ s r x, (f s).writeE r x = f (s.writeE r x)

section Forms
variable {f : State → State} {s : State}

theorem Unseen.resultP (hf : Unseen f) (rd : PReg) (r : Except Failure Poly) :
    resultP (f s) rd r = mapState f (resultP s rd r) := by
  cases r with
  | ok v => rw [resultP_ok, resultP_ok, mapState_ok, hf.writeP]
  | error x => rfl

theorem Unseen.resultE (hf : Unseen f) (rd : EReg) (m : Poly) (r : Except Failure Poly) :
    resultE (f s) rd m r = mapState f (resultE s rd m r) := by
  cases r with
  | ok v => rw [resultE_ok, resultE_ok, mapState_ok, hf.writeE]
  | error x => rfl

theorem Unseen.silent_writeP (hf : Unseen f) (rd : PReg) (v : Poly) :
    silent ((f s).writeP rd v) = mapState f (silent (s.writeP rd v)) := by
  rw [hf.writeP]
  rfl

theorem mapState_sameModulus (a b : Element) (body : Except Failure (State × BitVec 64)) :
    mapState f (sameModulus a b body) = sameModulus a b (mapState f body) :=
  apply_ite (mapState f) (a.mod = b.mod) body (.error .xdomain)

theorem fieldBody_map {body' body : Except Failure (State × BitVec 64)} (hc : (f s).cfgv = s.cfgv)
    (h : body' = mapState f body) : fieldBody (f s) body' = mapState f (fieldBody s body) := by
  rw [fieldBody, fieldBody, hc, h]
  exact (apply_ite (mapState f) (s.cfgv = true) body (.error .noField)).symm

/-- The commands that read and write P and E registers alone. -/
def registersOnly : Instr → Bool
  | .nop | .mov .. | .rdp .. | .ldc .. | .padd .. | .pmul .. | .pdiv .. | .pmod .. | .pexp .. | .pdeg .. | .pford .. => true
  | .emk .. | .egen .. | .eget .. | .egetm .. | .emul .. | .ediv .. | .einv .. | .eexp .. => true
  | _ => false

/-- An update that no register sees goes through the body of a command on registers. -/
theorem Unseen.commandBody (hf : Unseen f) {i : Instr} (hi : registersOnly i = true) :
    commandBody (f s) i = mapState f (commandBody s i) := by
  cases i with
  | nop => rfl
  | rdp => simp only [Machine.commandBody, hf.readP, mapState_ok]
  | mov | padd | pdeg | pford | eget | egetm =>
    simp only [Machine.commandBody, hf.readP, hf.readE, hf.silent_writeP]
  | ldc =>
    simp only [Machine.commandBody, hf.silent_writeP, apply_ite (mapState f)]
    rfl
  | pdiv rd rc ra rb =>
    by_cases hrd : rd = rc
    · simp [Machine.commandBody, hrd]
    · simp only [Machine.commandBody, if_neg hrd, hf.readP]
      cases polyDiv (s.readP ra) (s.readP rb) with
      | error x => rfl
      | ok qr => simp only [hf.writeP]; rfl
  | pmul | pmod | pexp => simp only [Machine.commandBody, hf.readP, hf.resultP]
  | emk | egen | einv | eexp => simp only [Machine.commandBody, hf.readP, hf.readE, hf.resultE]
  | emul | ediv => simp only [Machine.commandBody, hf.readE, hf.resultE, mapState_sameModulus]
  | _ => cases hi

end Forms

section Configuration

/-- The state with another field configuration. -/
def State.withConfig (m : Poly) (w : BitVec 2) (c : Bool) (s : State) : State := { s with mod := m, wid := w, cfgv := c }

variable (m : Poly) (w : BitVec 2) (c : Bool)

theorem unseen_withConfig : Unseen (State.withConfig m w c) :=
  ⟨fun _ => rfl, fun _ _ => rfl, fun _ _ => rfl, fun _ _ _ => rfl, fun _ _ _ => rfl⟩

/-- The commands beside the Field's and `RDST` do not read the configuration (R132, R170 a). -/
theorem commandBody_withConfig {i : Instr} (s : State) (hop : i.opcode.toNat < 0x20 ∨ 0x30 ≤ i.opcode.toNat)
    (hi : i ≠ .rdst) : commandBody (s.withConfig m w c) i = mapState (.withConfig m w c) (commandBody s i) := by
  cases hreg : registersOnly i with
  | true => exact (unseen_withConfig m w c).commandBody hreg
  | false =>
    cases i with
    | ldi | clrf | eeq | eisz | eis1 => rfl
    | rdst => exact absurd rfl hi
    | fcfg | ford | fgen | fadd | fmul | finv | fdiv | fexp | faddv | fmulv | fgetm => simp [Instr.opcode] at hop
    | _ => cases hreg

end Configuration

/-- Settles O22: the update of the configuration goes through the body, and through the prologue of R201. -/
theorem fieldConfigurationIsReadByFieldCommandsOnly : Obligations.FieldConfigurationIsReadByFieldCommandsOnly := by
  intro i s u m w c hop hi h
  rw [exec_eq_runCommand] at h
  have hrecord : ∀ (t : State) x, (t.withConfig m w c).recordFailure x = (t.recordFailure x).withConfig m w c := by
    intro t x
    cases x <;> rfl
  have hmap := runCommand_mapState (f := .withConfig m w c) rfl (fun _ _ _ => rfl) hrecord h
  rwa [← commandBody_withConfig m w c s hop hi, ← exec_eq_runCommand] at hmap

section Flags

/-- The state with its sticky flags and `T` forgotten. -/
def State.forgetFlags (s : State) : State :=
  { s with fc := false, fd := false, fx := false, fo := false, fl := false, fn := false, t := false }

theorem unseen_forgetFlags : Unseen State.forgetFlags :=
  ⟨fun _ => rfl, fun _ _ => rfl, fun _ _ => rfl, fun _ _ _ => rfl, fun _ _ _ => rfl⟩

theorem mapState_forgetFlags_idem (body : Except Failure (State × BitVec 64)) :
    mapState State.forgetFlags (mapState State.forgetFlags body) = mapState State.forgetFlags body := by
  cases body <;> rfl

/-- But for the flags and `T` it leaves, a body other than `RDST`'s is the same with the flags and `T` forgotten before it. -/
theorem commandBody_forgetFlags {i : Instr} (s : State) (hi : i ≠ .rdst) :
    mapState .forgetFlags (commandBody s.forgetFlags i) = mapState .forgetFlags (commandBody s i) := by
  have goes_through (h : commandBody s.forgetFlags i = mapState .forgetFlags (commandBody s i)) :
      mapState .forgetFlags (commandBody s.forgetFlags i) = mapState .forgetFlags (commandBody s i) := by
    rw [h, mapState_forgetFlags_idem]
  cases hreg : registersOnly i with
  | true => exact goes_through (unseen_forgetFlags.commandBody hreg)
  | false =>
    cases i with
    | ldi | clrf | eeq | eisz | eis1 => rfl
    | rdst => exact absurd rfl hi
    | fcfg =>
      refine goes_through ?_
      simp only [commandBody, apply_ite (mapState State.forgetFlags)]
      rfl
    | ford | fgetm => exact goes_through (fieldBody_map (f := .forgetFlags) rfl rfl)
    | fgen | fadd | fmul | finv | fdiv | fexp | faddv | fmulv =>
      exact goes_through (fieldBody_map (f := .forgetFlags) rfl (unseen_forgetFlags.resultP _ _))
    | _ => cases hreg

theorem forgetFlags_takeFailure (f : Failure) (s : State) :
    (takeFailure f s.forgetFlags).forgetFlags = (takeFailure f s).forgetFlags := by
  cases f <;> rfl

theorem runCommand_forgetFlags {s u v : State} {body body' : Except Failure (State × BitVec 64)}
    (hbody : mapState .forgetFlags body' = mapState .forgetFlags body)
    (hu : runCommand s body = .next u) (hv : runCommand s.forgetFlags body' = .next v) : v.forgetFlags = u.forgetFlags := by
  cases hs : s.halt with
  | true =>
    rw [runCommand_halted hs] at hu
    rw [runCommand_halted (s := s.forgetFlags) hs] at hv
    cases hu
    cases hv
    rfl
  | false =>
    cases body with
    | ok x =>
      cases body' with
      | error f => cases hbody
      | ok y =>
        rw [runCommand_ok hs] at hu
        rw [runCommand_ok (s := s.forgetFlags) hs] at hv
        cases hu
        cases hv
        obtain ⟨hst, hd⟩ : y.1.forgetFlags = x.1.forgetFlags ∧ y.2 = x.2 := by
          simpa [mapState, Except.map, Prod.ext_iff] using hbody
        rw [hd]
        exact congrArg (fun t => t.respond .ok x.2) hst
    | error f =>
      cases body' with
      | ok y => cases hbody
      | error g =>
        cases hbody
        rw [runCommand_error hs] at hu
        rw [runCommand_error (s := s.forgetFlags) hs] at hv
        cases hu
        cases hv
        exact forgetFlags_takeFailure f s

/-- The answer of a command but for the flags and `T` is that of the state with the flags and `T` forgotten. -/
theorem exec_forgetFlags {i : Instr} {s u v : State} (hi : i ≠ .rdst) (hu : exec i s = .next u)
    (hv : exec i s.forgetFlags = .next v) : v.forgetFlags = u.forgetFlags := by
  rw [exec_eq_runCommand] at hu hv
  exact runCommand_forgetFlags (commandBody_forgetFlags s hi) hu hv

end Flags

/-- Settles O20: with the flags and `T` forgotten the two states are one, so both answers are its answer. -/
theorem stickyFlagsInfluenceOnlyRdst : Obligations.StickyFlagsInfluenceOnlyRdst := by
  intro i s u fc fd fx fo fl fn b hi hu
  obtain ⟨v, hv⟩ := exec_total i { s with fc := fc, fd := fd, fx := fx, fo := fo, fl := fl, fn := fn, t := b }
  obtain ⟨x, hx⟩ := exec_total i s.forgetFlags
  have huv : v.forgetFlags = u.forgetFlags :=
    (exec_forgetFlags hi hv (v := x) hx).symm.trans (exec_forgetFlags hi hu hx)
  simp only [State.forgetFlags, State.mk.injEq] at huv
  obtain ⟨hp, he, hmod, hwid, hcfgv, -, -, -, -, -, -, -, hhalt, hrsp, -, -⟩ := huv
  exact ⟨v, hv, hp, he, hmod, hwid, hcfgv, hhalt, hrsp⟩

end Sys2Proof.Machine
end

section
/-! The engine modulo a polynomial: the class of a word in `GF(2)[x] / (m)`. Each unit multiplies classes, and a reduced word is
known by its class, so the laws of the quotient ring are those of the units (R91, R92, R94, R96 to R98). -/

set_option Elab.async false

namespace Sys2Proof.Machine

open Sys2Proof.Safety Polynomial

/-- Settles O35: the ring facts about the words, `Degree`, the sum, the product and the division, read together. -/
theorem engineIsThePolynomialRing : Obligations.EngineIsThePolynomialRing := by
  refine ⟨fun a b h => asPolynomial_injective h, natDegree_asPolynomial, asPolynomial_xor,
    fun a b c h => (polyMul_eq_ok_iff.mp h).2, fun a b => ?_, fun n d q r h => (polyDiv_eq_ok_iff.mp h).2⟩
  rw [natDegree_asPolynomial, natDegree_asPolynomial]
  obtain ⟨hle, e⟩ | ⟨hlt, e⟩ := polyMul_cases a b
  · simp [e, hle]
  · simp [e, hlt]

section Laws
variable {a b c x y z : Poly}

theorem asPolynomial_ne_zero (h : a ≠ 0#64) : asPolynomial a ≠ 0 := mt asPolynomial_eq_zero_iff.mp h

theorem degree_of_polyMul (ha : a ≠ 0#64) (hb : b ≠ 0#64) (h : polyMul a b = .ok c) : degree c = degree a + degree b := by
  rw [← natDegree_asPolynomial, (polyMul_eq_ok_iff.mp h).2,
    natDegree_mul (asPolynomial_ne_zero ha) (asPolynomial_ne_zero hb), natDegree_asPolynomial, natDegree_asPolynomial]

theorem degree_le_of_polyMul (h : polyMul a b = .ok c) : degree c ≤ degree a + degree b := by
  rw [← natDegree_asPolynomial, (polyMul_eq_ok_iff.mp h).2, ← natDegree_asPolynomial a, ← natDegree_asPolynomial b]
  exact natDegree_mul_le

theorem degree_xor_le (a b : Poly) : degree (a ^^^ b) ≤ max (degree a) (degree b) := by
  rw [← natDegree_asPolynomial, asPolynomial_xor, ← natDegree_asPolynomial a, ← natDegree_asPolynomial b]
  exact natDegree_add_le _ _

theorem polyMul_comm (a b : Poly) : polyMul a b = polyMul b a := by
  obtain ⟨hle, -⟩ | ⟨hlt, e⟩ := polyMul_cases a b
  · obtain ⟨c, hc⟩ := exists_polyMul_eq_ok hle
    obtain ⟨-, hprod⟩ := polyMul_eq_ok_iff.mp hc
    rw [hc, polyMul_eq_ok_iff.mpr ⟨by rwa [add_comm], by rw [hprod, mul_comm]⟩]
  · rw [e, polyMul_overflow (by omega)]

/-- Where the left-bracketed product and the right factor's exist, so does the right-bracketed one, and it is the same (R98). -/
theorem polyMul_assoc (hx : polyMul a b = .ok x) (hy : polyMul x c = .ok y) (hz : polyMul b c = .ok z) :
    polyMul a z = .ok y := by
  obtain ⟨hxdeg, hxprod⟩ := polyMul_eq_ok_iff.mp hx
  obtain ⟨hydeg, hyprod⟩ := polyMul_eq_ok_iff.mp hy
  obtain ⟨hzdeg, hzprod⟩ := polyMul_eq_ok_iff.mp hz
  refine polyMul_eq_ok_iff.mpr ⟨?_, by rw [hyprod, hxprod, hzprod, mul_assoc]⟩
  by_cases ha : a = 0#64
  · simpa [ha] using degree_le_63 z
  by_cases hb : b = 0#64
  · rw [polyMul_eq_zero hz (.inl hb)]
    simpa using degree_le_63 a
  · have hdx := degree_of_polyMul ha hb hx
    have hdz := degree_le_of_polyMul hz
    omega

theorem polyMul_polyAdd (hx : polyMul a b = .ok x) (hy : polyMul a c = .ok y) (hz : polyMul a (polyAdd b c) = .ok z) :
    z = polyAdd x y := by
  apply asPolynomial_injective
  rw [(polyMul_eq_ok_iff.mp hz).2, polyAdd, polyAdd, asPolynomial_xor, asPolynomial_xor, (polyMul_eq_ok_iff.mp hx).2,
    (polyMul_eq_ok_iff.mp hy).2, mul_add]

end Laws

/-- Settles O29: the sum is the xor, and the product's laws are those of the polynomials where the degrees fit. -/
theorem engineArithmeticLaws : Obligations.EngineArithmeticLaws :=
  ⟨fun a b => ⟨rfl, BitVec.xor_comm a b, BitVec.xor_zero, BitVec.xor_self⟩, polyMul_comm,
    fun _ _ _ _ _ _ hx hy hz => polyMul_assoc hx hy hz, fun _ _ _ _ _ _ hx hy hz => polyMul_polyAdd hx hy hz⟩

section Residue

/-- The class of a word modulo `m`; for `m = 0` the polynomial itself. -/
noncomputable def residue (m v : Poly) : AdjoinRoot (asPolynomial m) := AdjoinRoot.mk (asPolynomial m) (asPolynomial v)

/-- `v` is reduced modulo `m`: 0 or of degree below the modulus's (R23, R95 b). -/
def Reduced (m v : Poly) : Prop := v = 0#64 ∨ degree v < degree m

variable {a b c m r v : Poly}

@[simp] theorem residue_zero (m : Poly) : residue m 0#64 = 0 := by simp [residue]

@[simp] theorem residue_one (m : Poly) : residue m 1#64 = 1 := by simp [residue]

@[simp] theorem residue_polyAdd (m a b : Poly) : residue m (polyAdd a b) = residue m a + residue m b := by
  simp [residue, polyAdd]

theorem residue_of_polyMul (h : polyMul a b = .ok c) : residue m c = residue m a * residue m b := by
  rw [residue, (polyMul_eq_ok_iff.mp h).2, map_mul, residue, residue]

/-- With modulus 0 a class is a polynomial. -/
theorem residue_zero_modulus_eq_mk (p : (ZMod 2)[X]) :
    residue 0#64 v = AdjoinRoot.mk (asPolynomial 0#64) p ↔ asPolynomial v = p := by
  rw [residue, AdjoinRoot.mk_eq_mk, asPolynomial_zero, zero_dvd_iff, sub_eq_zero]

theorem reduced_iff_degree_lt (hm : m ≠ 0#64) : Reduced m v ↔ (asPolynomial v).degree < (asPolynomial m).degree :=
  (degree_asPolynomial_lt_iff hm).symm

/-- Reduced words are those below `2^Degree(m)`. -/
theorem reduced_iff_toNat_lt : Reduced m v ↔ v.toNat < 2 ^ degree m := by
  by_cases hv : v = 0#64
  · simp [Reduced, hv]
  · rw [Reduced, or_iff_right hv, degree]
    exact Nat.log2_lt (by simpa [← BitVec.toNat_inj] using hv)

theorem reduced_zero (m : Poly) : Reduced m 0#64 := .inl rfl

theorem reduced_one (hm : 1 ≤ degree m) : Reduced m 1#64 := .inr (by rw [degree_one]; omega)

theorem ne_zero_of_one_le_degree (hm : 1 ≤ degree m) : m ≠ 0#64 := by
  rintro rfl
  rw [degree_zero] at hm
  omega

theorem reduced_polyAdd (ha : Reduced m a) (hb : Reduced m b) : Reduced m (polyAdd a b) := by
  rw [reduced_iff_toNat_lt] at *
  rw [polyAdd, BitVec.toNat_xor]
  exact Nat.xor_lt_two_pow ha hb

/-- A reduced word represents its class: the remainder by `m` of any polynomial of the class. -/
theorem asPolynomial_eq_mod_iff (hm : m ≠ 0#64) (p : (ZMod 2)[X]) :
    asPolynomial v = p % asPolynomial m ↔ Reduced m v ∧ residue m v = AdjoinRoot.mk (asPolynomial m) p := by
  have hm0 := asPolynomial_ne_zero hm
  rw [reduced_iff_degree_lt hm, residue, AdjoinRoot.mk_eq_mk]
  constructor
  · intro h
    refine ⟨by rw [h]; exact degree_mod_lt p hm0, ?_⟩
    rw [h, dvd_sub_comm, EuclideanDomain.mod_eq_sub_mul_div, sub_sub_cancel]
    exact dvd_mul_right _ _
  · rintro ⟨hdeg, hdvd⟩
    rw [← mod_eq_of_dvd_sub hdvd, (mod_eq_self_iff hm0).mpr hdeg]

/-- Two reduced words of one class are equal. -/
theorem eq_of_residue_eq (hm : m ≠ 0#64) (ha : Reduced m a) (hb : Reduced m b) (h : residue m a = residue m b) : a = b := by
  apply asPolynomial_injective
  rw [(asPolynomial_eq_mod_iff hm (asPolynomial b)).mpr ⟨ha, h⟩,
    ← (asPolynomial_eq_mod_iff hm (asPolynomial b)).mpr ⟨hb, rfl⟩]

/-- What the remainder unit answers (R94): the reduced word of the class. -/
theorem polyMod_eq_ok_iff (hm : m ≠ 0#64) : polyMod c m = .ok r ↔ Reduced m r ∧ residue m r = residue m c := by
  obtain ⟨q, r', h⟩ := exists_polyDiv_eq_ok c hm
  rw [polyMod_of_polyDiv h, Except.ok.injEq]
  have hr' : Reduced m r' ∧ residue m r' = residue m c :=
    (asPolynomial_eq_mod_iff hm _).mp (polyDiv_eq_ok_iff.mp h).2.2
  constructor
  · rintro rfl
    exact hr'
  · rintro ⟨hr, hres⟩
    exact eq_of_residue_eq hm hr'.1 hr (hr'.2.trans hres.symm)

theorem exists_polyMod_eq_ok (c : Poly) (hm : m ≠ 0#64) : ∃ r, polyMod c m = .ok r := by
  obtain ⟨q, r, h⟩ := exists_polyDiv_eq_ok c hm
  exact ⟨r, polyMod_of_polyDiv h⟩

end Residue

end Sys2Proof.Machine
end

section
/-! The power unit (R96, R97): in the quotient by the modulus, 0 included, each iteration squares the accumulator and multiplies
by the base for a set exponent bit, so the loop computes the power; a product overflows only where its degree does not fit. -/

set_option Elab.async false

namespace Sys2Proof.Machine

open Sys2Proof.Safety Polynomial

section Products
variable {a b c m r : Poly}

/-- What one multiply-then-reduce answers: the reduced word of the product's class, where the product fits. -/
theorem mulMod_eq_ok_iff (hm : m ≠ 0#64) :
    mulMod a b m = .ok r ↔
      degree a + degree b ≤ 63 ∧ Reduced m r ∧ residue m r = residue m a * residue m b := by
  rw [mulMod_eq_bind]
  obtain ⟨hle, -⟩ | ⟨hlt, e⟩ := polyMul_cases a b
  · obtain ⟨c, hc⟩ := exists_polyMul_eq_ok hle
    rw [hc, Except.bind, polyMod_eq_ok_iff hm, residue_of_polyMul hc]
    simp [hle]
  · rw [e, Except.bind]
    simp [Nat.not_le.mpr hlt]

theorem exists_mulMod_eq_ok (hm : m ≠ 0#64) (h : degree a + degree b ≤ 63) : ∃ r, mulMod a b m = .ok r := by
  obtain ⟨c, hc⟩ := exists_polyMul_eq_ok h
  obtain ⟨r, hr⟩ := exists_polyMod_eq_ok c hm
  exact ⟨r, by rw [mulMod_eq_bind, hc, Except.bind, hr]⟩

theorem mulReduce_zero_modulus (a b : Poly) : mulReduce a b 0#64 = polyMul a b := by
  unfold mulReduce
  cases polyMul a b <;> rfl

theorem mulReduce_eq_mulMod (a b : Poly) (hm : m ≠ 0#64) : mulReduce a b m = mulMod a b m := by
  unfold mulReduce mulMod
  cases polyMul a b with
  | error f => rfl
  | ok c => exact if_neg hm

theorem residue_of_mulReduce (h : mulReduce a b m = .ok c) : residue m c = residue m a * residue m b := by
  by_cases hm : m = 0#64
  · subst hm
    rw [mulReduce_zero_modulus] at h
    exact residue_of_polyMul h
  · rw [mulReduce_eq_mulMod a b hm] at h
    exact ((mulMod_eq_ok_iff hm).mp h).2.2

theorem reduced_of_mulReduce (hm : m ≠ 0#64) (h : mulReduce a b m = .ok c) : Reduced m c := by
  rw [mulReduce_eq_mulMod a b hm] at h
  exact ((mulMod_eq_ok_iff hm).mp h).2.1

theorem exists_mulReduce_eq_ok (h : degree a + degree b ≤ 63) : ∃ c, mulReduce a b m = .ok c := by
  by_cases hm : m = 0#64
  · rw [hm, mulReduce_zero_modulus]
    exact exists_polyMul_eq_ok h
  · rw [mulReduce_eq_mulMod a b hm]
    exact exists_mulMod_eq_ok hm h

end Products

section Loop
variable {base m res v sq : Poly} {e : BitVec 64} {bit : Bool} {n : Nat}

/-- Everything an iteration that succeeds has computed: the square, and for a set bit the product with the base (R96). -/
theorem expStep_eq_ok_iff :
    expStep base m bit res = .ok v ↔
      ∃ sq, mulReduce res res m = .ok sq ∧ (if bit then mulReduce sq base m else .ok sq) = .ok v := by
  unfold expStep
  cases mulReduce res res m <;> simp

theorem expLoop_succ_eq_ok_iff :
    expLoop base e m (n + 1) res = .ok v ↔
      ∃ x, expStep base m (e.getLsbD n) res = .ok x ∧ expLoop base e m n x = .ok v := by
  rw [expLoop]
  cases expStep base m (e.getLsbD n) res <;> simp

theorem residue_of_expStep (h : expStep base m bit res = .ok v) :
    residue m v = residue m res ^ 2 * residue m base ^ bit.toNat := by
  obtain ⟨sq, hsq, hv⟩ := expStep_eq_ok_iff.mp h
  have hres : residue m sq = residue m res ^ 2 := by rw [residue_of_mulReduce hsq, ← pow_two]
  cases bit with
  | false =>
    cases hv
    simp [hres]
  | true => rw [residue_of_mulReduce hv, hres, Bool.toNat_true, pow_one]

theorem reduced_of_expStep (hm : m ≠ 0#64) (h : expStep base m bit res = .ok v) : Reduced m v := by
  obtain ⟨sq, hsq, hv⟩ := expStep_eq_ok_iff.mp h
  cases bit with
  | false =>
    cases hv
    exact reduced_of_mulReduce hm hsq
  | true => exact reduced_of_mulReduce hm hv

/-- The exponent's low bits, the highest of them apart. -/
theorem toNat_mod_two_pow_succ (e : BitVec 64) (n : Nat) :
    e.toNat % 2 ^ (n + 1) = e.toNat % 2 ^ n + 2 ^ n * (e.getLsbD n).toNat := by
  rw [BitVec.getLsbD, Nat.toNat_testBit, Nat.mod_pow_succ]

/-- The loop over `n` bits raises the accumulator to `2^n` and multiplies by the base to the exponent those bits are. -/
theorem residue_of_expLoop (h : expLoop base e m n res = .ok v) :
    residue m v = residue m res ^ 2 ^ n * residue m base ^ (e.toNat % 2 ^ n) := by
  induction n generalizing res with
  | zero =>
    cases h
    simp [Nat.mod_one]
  | succ n ih =>
    obtain ⟨x, hx, hv⟩ := expLoop_succ_eq_ok_iff.mp h
    rw [ih hv, residue_of_expStep hx, toNat_mod_two_pow_succ, mul_pow, ← pow_mul, ← pow_mul, pow_add]
    ring

theorem reduced_of_expLoop (hm : m ≠ 0#64) (hres : Reduced m res ∨ n ≠ 0) (h : expLoop base e m n res = .ok v) :
    Reduced m v := by
  induction n generalizing res with
  | zero =>
    cases h
    exact hres.resolve_right (· rfl)
  | succ n ih =>
    obtain ⟨x, hx, hv⟩ := expLoop_succ_eq_ok_iff.mp h
    exact ih (.inl (reduced_of_expStep hm hx)) hv

theorem toNat_lt_two_pow_bitlen (e : BitVec 64) : e.toNat < 2 ^ bitlen e := by
  by_cases h : e = 0#64
  · simp [h]
  · rw [bitlen, if_neg h]
    exact lt_two_pow_degree e

theorem bitlen_ne_zero (h : e ≠ 0#64) : bitlen e ≠ 0 := by
  rw [bitlen, if_neg h]
  exact Nat.succ_ne_zero _

/-- A power that the unit answers is the power in the quotient by the modulus (R97 a). -/
theorem residue_of_polyExp (h : polyExp base e m = .ok v) : residue m v = residue m base ^ e.toNat := by
  rw [residue_of_expLoop h, residue_one, one_pow, one_mul, Nat.mod_eq_of_lt (toNat_lt_two_pow_bitlen e)]

theorem reduced_of_polyExp (hm : m ≠ 0#64) (he : e ≠ 0#64) (h : polyExp base e m = .ok v) : Reduced m v :=
  reduced_of_expLoop hm (.inr (bitlen_ne_zero he)) h

end Loop

/-- Settles O36: the power of classes, for modulus 0 the power itself, else represented by its remainder. -/
theorem expIsThePower : Obligations.ExpIsThePower := by
  refine ⟨polyExp_zero, fun base e v h => ?_, fun base e m v hm he h => ?_⟩
  · rw [← residue_zero_modulus_eq_mk, residue_of_polyExp h, residue, map_pow]
  · rw [asPolynomial_eq_mod_iff hm]
    exact ⟨reduced_of_polyExp hm he h, by rw [residue_of_polyExp h, residue, map_pow]⟩

section Fits
variable {base m res v : Poly} {e : BitVec 64} {bit : Bool}

theorem degree_le_31_of_reduced (hm : degree m ≤ 32) (h : Reduced m v) : degree v ≤ 31 := by
  obtain rfl | hlt := h
  · simp
  · omega

theorem exists_expStep_eq_ok_of_degree_le (hm : m ≠ 0#64) (hdeg : degree m ≤ 32) (hbase : degree base ≤ 31)
    (hres : degree res ≤ 31) : ∃ v, expStep base m bit res = .ok v := by
  obtain ⟨sq, hsq⟩ := exists_mulReduce_eq_ok (m := m) (show degree res + degree res ≤ 63 by omega)
  have hsq31 := degree_le_31_of_reduced hdeg (reduced_of_mulReduce hm hsq)
  obtain ⟨v, hv⟩ := exists_mulReduce_eq_ok (m := m) (show degree sq + degree base ≤ 63 by omega)
  cases bit with
  | false => exact ⟨sq, expStep_eq_ok_iff.mpr ⟨sq, hsq, rfl⟩⟩
  | true => exact ⟨v, expStep_eq_ok_iff.mpr ⟨sq, hsq, hv⟩⟩

theorem exists_expLoop_eq_ok_of_degree_le (hm : m ≠ 0#64) (hdeg : degree m ≤ 32) (hbase : degree base ≤ 31) (n : Nat)
    (hres : degree res ≤ 31) : ∃ v, expLoop base e m n res = .ok v := by
  induction n generalizing res with
  | zero => exact ⟨res, rfl⟩
  | succ n ih =>
    obtain ⟨x, hx⟩ := exists_expStep_eq_ok_of_degree_le hm hdeg hbase hres
    obtain ⟨v, hv⟩ := ih (degree_le_31_of_reduced hdeg (reduced_of_expStep hm hx))
    exact ⟨v, expLoop_succ_eq_ok_iff.mpr ⟨x, hx, hv⟩⟩

/-- Below degree 32 every product of the loop fits (R97 c). -/
theorem exists_polyExp_eq_ok (e : BitVec 64) (hm : m ≠ 0#64) (hdeg : degree m ≤ 32) (hbase : Reduced m base) :
    ∃ v, polyExp base e m = .ok v :=
  exists_expLoop_eq_ok_of_degree_le hm hdeg (degree_le_31_of_reduced hdeg hbase) _ (by simp)

/-- With modulus 0 an iteration whose result's degree fits succeeds. -/
theorem exists_expStep_zero_modulus (h : 2 * degree res + degree base * bit.toNat ≤ 63) :
    ∃ v, expStep base 0#64 bit res = .ok v ∧ degree v ≤ 2 * degree res + degree base * bit.toNat := by
  obtain ⟨sq, hsq⟩ := exists_polyMul_eq_ok (show degree res + degree res ≤ 63 by omega)
  have hsqdeg := degree_le_of_polyMul hsq
  rw [← mulReduce_zero_modulus] at hsq
  cases bit with
  | false => exact ⟨sq, expStep_eq_ok_iff.mpr ⟨sq, hsq, rfl⟩, by simp only [Bool.toNat_false]; omega⟩
  | true =>
    rw [Bool.toNat_true, mul_one] at *
    obtain ⟨v, hv⟩ := exists_polyMul_eq_ok (show degree sq + degree base ≤ 63 by omega)
    have hvdeg := degree_le_of_polyMul hv
    rw [← mulReduce_zero_modulus] at hv
    exact ⟨v, expStep_eq_ok_iff.mpr ⟨sq, hsq, hv⟩, by omega⟩

/-- With modulus 0 the loop succeeds where the degree of its result fits: no product on the way has a higher one. -/
theorem exists_expLoop_zero_modulus (n : Nat) (h : degree res * 2 ^ n + degree base * (e.toNat % 2 ^ n) ≤ 63) :
    ∃ v, expLoop base e 0#64 n res = .ok v := by
  induction n generalizing res with
  | zero => exact ⟨res, rfl⟩
  | succ n ih =>
    have hsplit : (2 * degree res + degree base * (e.getLsbD n).toNat) * 2 ^ n + degree base * (e.toNat % 2 ^ n) ≤ 63 := by
      rw [toNat_mod_two_pow_succ] at h
      convert h using 1
      ring
    obtain ⟨x, hx, hdeg⟩ := exists_expStep_zero_modulus (base := base) (res := res) (bit := e.getLsbD n)
      ((Nat.le_mul_of_pos_right _ (Nat.two_pow_pos n)).trans (le_of_add_le_left hsplit))
    obtain ⟨v, hv⟩ := ih (res := x) ((Nat.add_le_add_right (Nat.mul_le_mul_right _ hdeg) _).trans hsplit)
    exact ⟨v, expLoop_succ_eq_ok_iff.mpr ⟨x, hx, hv⟩⟩

theorem exists_polyExp_zero_modulus (h : degree base * e.toNat ≤ 63) : ∃ v, polyExp base e 0#64 = .ok v := by
  refine exists_expLoop_zero_modulus _ ?_
  rwa [degree_one, zero_mul, zero_add, Nat.mod_eq_of_lt (toNat_lt_two_pow_bitlen e)]

/-- With modulus 0 a power that is answered has its degree, which fits. -/
theorem degree_of_polyExp_zero_modulus (h : polyExp base e 0#64 = .ok v) : degree v = degree base * e.toNat := by
  rw [← natDegree_asPolynomial, expIsThePower.2.1 base e v h, natDegree_pow, natDegree_asPolynomial, mul_comm]

end Fits

/-- Settles O37, by `exists_polyExp_eq_ok`. -/
theorem expOfReducedBaseNeverOverflows : Obligations.ExpOfReducedBaseNeverOverflows := by
  intro base e m hm hdeg hbase
  obtain ⟨v, hv⟩ := exists_polyExp_eq_ok e hm hdeg hbase
  exact ⟨v, hv, fun he => reduced_of_polyExp hm he hv⟩

/-- Settles O38: a power whose degree fits is answered, and one that is answered fits; the bases 0 and 1 have degree 0. -/
theorem unreducedExpOverflowsExactly : Obligations.UnreducedExpOverflowsExactly := by
  intro base e
  constructor
  · intro h
    have hdeg : 63 < degree base * e.toNat := by
      by_contra hle
      obtain ⟨v, hv⟩ := exists_polyExp_zero_modulus (Nat.le_of_not_lt hle)
      rw [h] at hv
      cases hv
    refine ⟨?_, ?_, hdeg⟩ <;>
      · rintro rfl
        simp at hdeg
  · rintro ⟨-, -, hdeg⟩
    obtain ⟨v, hv⟩ | hover := polyExp_cases base e 0#64
    · have := degree_le_63 v
      have := degree_of_polyExp_zero_modulus hv
      omega
    · exact hover

end Sys2Proof.Machine
end

section
/-! The inverse unit (R160 to R165). The extended Euclidean loop keeps three things: each remainder is its cofactor times the
operand modulo `m`; the common divisors of the remainder pair are those of the operand and the modulus; and the degrees of a
cofactor and of the remainder opposite it add up to what fits. The first gives the inverse, the second its failures, the third
that no product overflows; the falling degree of the remainders ends the loop. -/

set_option Elab.async false

namespace Sys2Proof.Machine

open Sys2Proof.Safety Polynomial

section Division
variable {n d q r g a : Poly}

theorem polyDiv_remainder_degree_le (h : polyDiv n d = .ok (q, r)) : degree r ≤ degree n := by
  by_cases hle : degree d ≤ degree n
  · obtain rfl | hlt := polyDiv_remainder_reduced h
    · simp
    · omega
  · have hq : q = 0#64 := polyDiv_quotient_eq_zero h (.inr (Nat.lt_of_not_le hle))
    have hid := polyDiv_identity h
    rw [hq, asPolynomial_zero, zero_mul, zero_add, asPolynomial_injective.eq_iff] at hid
    rw [hid]

/-- The remainder as a sum, there being no signs. -/
theorem polyDiv_remainder_eq (h : polyDiv n d = .ok (q, r)) :
    asPolynomial r = asPolynomial n + asPolynomial q * asPolynomial d := by
  rw [← polyDiv_identity h]
  linear_combination -CharTwo.add_self_eq_zero (asPolynomial q * asPolynomial d)

/-- Dividing leaves remainder 0 exactly for a divisor. -/
theorem polyMod_eq_zero_iff (hg : g ≠ 0#64) : polyMod a g = .ok 0#64 ↔ asPolynomial g ∣ asPolynomial a := by
  rw [polyMod_eq_ok_iff hg, residue_zero, eq_comm, residue, AdjoinRoot.mk_eq_zero]
  simp [reduced_zero]

end Division

section Step
variable {x x' : Euclid} {D : Nat}

/-- What one iteration computes (R160). -/
theorem euclidStep_eq_ok_iff :
    euclidStep x = .ok x' ↔ ∃ q r c, polyDiv x.r x.newr = .ok (q, r) ∧ polyMul q x.newt = .ok c ∧
      x' = { r := x.newr, newr := r, t := x.newt, newt := polyAdd x.t c } := by
  unfold euclidStep
  cases polyDiv x.r x.newr with
  | error f => simp
  | ok qr =>
    obtain ⟨q, r⟩ := qr
    cases hc : polyMul q x.newt with
    | error f => simp [hc]
    | ok c => simp [hc, eq_comm]

/-- Each cofactor's degree fits beside the remainder opposite it. -/
structure EuclidFits (D : Nat) (x : Euclid) : Prop where
  newt_r : degree x.newt + degree x.r ≤ D
  t_newr : degree x.t + degree x.newr ≤ D

/-- No iteration overflows, and the remainder's degree falls (R162, R163). -/
theorem euclidStep_fits (hD : D ≤ 63) (hx : x.newr ≠ 0#64) (h : EuclidFits D x) :
    ∃ x', euclidStep x = .ok x' ∧ EuclidFits D x' ∧ (x'.newr = 0#64 ∨ degree x'.newr < degree x.newr) := by
  obtain ⟨q, r, hdiv⟩ := exists_polyDiv_eq_ok x.r hx
  have hq := polyDiv_quotient_degree hdiv
  have hr := polyDiv_remainder_degree_le hdiv
  obtain ⟨h1, h2⟩ := h
  obtain ⟨c, hc⟩ := exists_polyMul_eq_ok (show degree q + degree x.newt ≤ 63 by omega)
  have hcdeg : degree c + degree x.newr ≤ D := by
    by_cases hle : degree x.newr ≤ degree x.r
    · have := degree_le_of_polyMul hc
      omega
    · have hq0 : q = 0#64 := polyDiv_quotient_eq_zero hdiv (.inr (Nat.lt_of_not_le hle))
      rw [polyMul_eq_zero hc (.inl hq0), degree_zero]
      omega
  have hsum : degree (polyAdd x.t c) ≤ max (degree x.t) (degree c) := degree_xor_le x.t c
  exact ⟨_, euclidStep_eq_ok_iff.mpr ⟨q, r, c, hdiv, hc, rfl⟩, ⟨by dsimp only; omega, by dsimp only; omega⟩,
    polyDiv_remainder_reduced hdiv⟩

end Step

section Loop
variable {x x' : Euclid} {D fuel : Nat}

theorem euclidLoop_of_newr_eq_zero (fuel : Nat) (h : x.newr = 0#64) : euclidLoop fuel x = .ok x := by
  cases fuel with
  | zero => rfl
  | succ fuel => exact if_pos h

theorem euclidLoop_succ (h : x.newr ≠ 0#64) (hstep : euclidStep x = .ok x') :
    euclidLoop (fuel + 1) x = euclidLoop fuel x' := by
  rw [euclidLoop, if_neg h, hstep]

/-- With fuel above the remainder's degree the loop ends, and without an overflow. -/
theorem euclidLoop_ends (hD : D ≤ 63) (h : EuclidFits D x) (hfuel : x.newr = 0#64 ∨ degree x.newr < fuel) :
    ∃ x', euclidLoop fuel x = .ok x' ∧ x'.newr = 0#64 := by
  induction fuel generalizing x with
  | zero => exact ⟨x, rfl, hfuel.resolve_right (Nat.not_lt_zero _)⟩
  | succ fuel ih =>
    by_cases hx : x.newr = 0#64
    · exact ⟨x, euclidLoop_of_newr_eq_zero _ hx, hx⟩
    · obtain ⟨x₁, hstep, hfits, hdecr⟩ := euclidStep_fits hD hx h
      rw [euclidLoop_succ hx hstep]
      exact ih hfits (hdecr.imp_right fun hlt => by have := hfuel.resolve_left hx; omega)

/-- What every successful iteration keeps holds at the end of the loop. -/
theorem euclidLoop_keeps {P : Euclid → Prop}
    (hP : ∀ x x', x.newr ≠ 0#64 → euclidStep x = .ok x' → P x → P x') (hx : P x)
    (h : euclidLoop fuel x = .ok x') : P x' := by
  induction fuel generalizing x with
  | zero =>
    cases h
    exact hx
  | succ fuel ih =>
    by_cases h0 : x.newr = 0#64
    · rw [euclidLoop_of_newr_eq_zero _ h0] at h
      cases h
      exact hx
    · cases hstep : euclidStep x with
      | error f =>
        rw [euclidLoop, if_neg h0, hstep] at h
        cases h
      | ok x₁ =>
        rw [euclidLoop_succ h0 hstep] at h
        exact ih (hP x x₁ h0 hstep hx) h

/-- More fuel than the loop needs changes nothing. -/
theorem euclidLoop_of_le {fuel' : Nat} (hle : fuel ≤ fuel') (h : euclidLoop fuel x = .ok x') (hend : x'.newr = 0#64) :
    euclidLoop fuel' x = .ok x' := by
  induction fuel generalizing x fuel' with
  | zero =>
    cases h
    exact euclidLoop_of_newr_eq_zero _ hend
  | succ fuel ih =>
    by_cases h0 : x.newr = 0#64
    · rw [euclidLoop_of_newr_eq_zero _ h0] at h ⊢
      exact h
    · obtain ⟨fuel', rfl⟩ : ∃ k, fuel' = k + 1 := ⟨fuel' - 1, by omega⟩
      cases hstep : euclidStep x with
      | error f =>
        rw [euclidLoop, if_neg h0, hstep] at h
        cases h
      | ok x₁ =>
        rw [euclidLoop_succ h0 hstep] at h ⊢
        exact ih (Nat.le_of_succ_le_succ hle) h

end Loop

section Invariants
variable {x x' : Euclid} {y m : Poly} {fuel : Nat}

/-- Each remainder is its cofactor times the operand, modulo `m`. -/
structure Bezout (y m : Poly) (x : Euclid) : Prop where
  r : residue m x.r = residue m x.t * residue m y
  newr : residue m x.newr = residue m x.newt * residue m y

/-- The divisors of both remainders are those of the operand and the modulus. -/
def SameDivisors (y m : Poly) (x : Euclid) : Prop :=
  ∀ p, p ∣ asPolynomial x.r ∧ p ∣ asPolynomial x.newr ↔ p ∣ asPolynomial y ∧ p ∣ asPolynomial m

theorem euclidFits_start (y m : Poly) : EuclidFits (max (degree m) (degree y)) (euclidStart y m) where
  newt_r := by simp [euclidStart]
  t_newr := by simp [euclidStart]

theorem bezout_start (y m : Poly) : Bezout y m (euclidStart y m) where
  r := by simp [euclidStart, residue]
  newr := by simp [euclidStart]

theorem sameDivisors_start (y m : Poly) : SameDivisors y m (euclidStart y m) := fun _ => and_comm

theorem euclidStep_keeps_bezout (hstep : euclidStep x = .ok x') (h : Bezout y m x) : Bezout y m x' := by
  obtain ⟨q, r, c, hdiv, hc, rfl⟩ := euclidStep_eq_ok_iff.mp hstep
  have hrem : residue m r = residue m x.r + residue m q * residue m x.newr := by
    rw [residue, polyDiv_remainder_eq hdiv, map_add, map_mul, residue, residue, residue]
  refine ⟨h.newr, ?_⟩
  rw [hrem, h.r, h.newr, residue_polyAdd, residue_of_polyMul hc]
  ring

theorem euclidStep_keeps_sameDivisors (hstep : euclidStep x = .ok x') (h : SameDivisors y m x) : SameDivisors y m x' := by
  obtain ⟨q, r, c, hdiv, -, rfl⟩ := euclidStep_eq_ok_iff.mp hstep
  intro p
  rw [← h p, and_comm]
  refine and_congr_left fun hp => ?_
  rw [← polyDiv_identity hdiv, dvd_add_right (hp.mul_left _)]

/-- The loop's 65 iterations always suffice, and none fails (R162, R163). -/
theorem exists_euclidLoop_eq_ok (y m : Poly) : ∃ x, euclidLoop 65 (euclidStart y m) = .ok x ∧ x.newr = 0#64 := by
  have hm := degree_le_63 m
  have hy := degree_le_63 y
  exact euclidLoop_ends (by omega) (euclidFits_start y m) (.inr (by dsimp only [euclidStart]; omega))

/-- At the end the remainder is a greatest common divisor (R161). -/
theorem dvd_last_remainder_iff (h : euclidLoop fuel (euclidStart y m) = .ok x) (hend : x.newr = 0#64)
    (p : (ZMod 2)[X]) : p ∣ asPolynomial x.r ↔ p ∣ asPolynomial y ∧ p ∣ asPolynomial m := by
  rw [← euclidLoop_keeps (fun _ _ _ => euclidStep_keeps_sameDivisors) (sameDivisors_start y m) h p, hend]
  simp

theorem one_le_degree_of_ne (h0 : y ≠ 0#64) (h1 : y ≠ 1#64) : 1 ≤ degree y := by
  by_contra hlt
  have hdeg : (asPolynomial y).natDegree = 0 := by rw [natDegree_asPolynomial]; omega
  refine h1 (asPolynomial_injective ?_)
  rw [(monic_asPolynomial h0).natDegree_eq_zero.mp hdeg, asPolynomial_one]

/-- The last remainder is not 1 exactly for operands with a common factor. -/
theorem last_remainder_ne_one_iff (hy : y ≠ 0#64) (h : euclidLoop fuel (euclidStart y m) = .ok x)
    (hend : x.newr = 0#64) : x.r ≠ 1#64 ↔ ∃ g, CommonFactor g y m := by
  have hdvd := dvd_last_remainder_iff h hend
  constructor
  · intro hr
    have hr0 : x.r ≠ 0#64 := by
      intro hr0
      have h0 := ((hdvd 0).mp (by rw [hr0, asPolynomial_zero])).1
      exact hy (asPolynomial_eq_zero_iff.mp (zero_dvd_iff.mp h0))
    obtain ⟨hry, hrm⟩ := (hdvd _).mp dvd_rfl
    exact ⟨x.r, one_le_degree_of_ne hr0 hr, (polyMod_eq_zero_iff hr0).mpr hry, (polyMod_eq_zero_iff hr0).mpr hrm⟩
  · rintro ⟨g, hg, hgy, hgm⟩ hr
    have hg0 := ne_zero_of_one_le_degree hg
    have hg1 : asPolynomial g ∣ 1 := by
      rw [← asPolynomial_one, ← hr]
      exact (hdvd _).mpr ⟨(polyMod_eq_zero_iff hg0).mp hgy, (polyMod_eq_zero_iff hg0).mp hgm⟩
    have hdeg := natDegree_eq_zero_of_isUnit (isUnit_of_dvd_one hg1)
    rw [natDegree_asPolynomial] at hdeg
    omega

end Invariants

/-- Settles O49: the fuel lemma `euclidLoop_ends` with the degree of the operand, and `euclidLoop_of_le` for the larger fuel. -/
theorem inverseLoopEndsWithinItsBound : Obligations.InverseLoopEndsWithinItsBound := by
  refine fun y m hy => ⟨exists_euclidLoop_eq_ok y m, fun hlt => ?_⟩
  have hm := degree_le_63 m
  obtain ⟨x, hx, hend⟩ := euclidLoop_ends (by omega) (euclidFits_start y m) (fuel := degree m) (.inr hlt)
  exact ⟨x, hx, hend, euclidLoop_of_le (by omega) hx hend⟩

section Inverse
variable {y m t : Poly}

/-- Everything the inverse unit can answer for a nonzero operand: the last cofactor, or `INVARIANT` for a common factor. -/
theorem inverse_nonzero_cases (m : Poly) (hy : y ≠ 0#64) :
    ∃ x, euclidLoop 65 (euclidStart y m) = .ok x ∧ x.newr = 0#64 ∧
      ((x.r = 1#64 ∧ inverse y m = .ok x.t) ∨ (x.r ≠ 1#64 ∧ inverse y m = .error .invariant)) := by
  obtain ⟨x, hx, hend⟩ := exists_euclidLoop_eq_ok y m
  refine ⟨x, hx, hend, ?_⟩
  by_cases hr : x.r = 1#64
  · exact .inl ⟨hr, by simp [inverse, hy, hx, hr]⟩
  · exact .inr ⟨hr, by simp [inverse, hy, hx, hr]⟩

theorem inverse_eq_domain_iff (y m : Poly) : inverse y m = .error .domain ↔ y = 0#64 := by
  refine ⟨fun h => ?_, fun h => by rw [h, inverse_zero]⟩
  by_contra hy
  obtain ⟨x, -, -, ⟨-, e⟩ | ⟨-, e⟩⟩ := inverse_nonzero_cases m hy <;> rw [e] at h <;> cases h

/-- The inverse fails on a nonzero operand exactly for a common factor (R161). -/
theorem inverse_eq_invariant_iff (m : Poly) (hy : y ≠ 0#64) :
    inverse y m = .error .invariant ↔ ∃ g, CommonFactor g y m := by
  obtain ⟨x, hx, hend, ⟨hr, e⟩ | ⟨hr, e⟩⟩ := inverse_nonzero_cases m hy
  · rw [← last_remainder_ne_one_iff hy hx hend, e]
    simp [hr]
  · rw [← last_remainder_ne_one_iff hy hx hend, e]
    simp [hr]

end Inverse

/-- Settles O48, by the answers for the operand 0 and for a nonzero one. -/
theorem inverseFailsExactlyOnCommonFactors : Obligations.InverseFailsExactlyOnCommonFactors := by
  refine fun y m => ⟨inverse_eq_domain_iff y m, inverse_eq_invariant_iff m, fun f hf => ?_⟩
  by_cases hy : y = 0#64
  · rw [hy, inverse_zero] at hf
    cases hf
    exact .inl rfl
  · obtain ⟨x, -, -, ⟨-, e⟩ | ⟨-, e⟩⟩ := inverse_nonzero_cases m hy <;> rw [e] at hf <;> cases hf
    exact .inr rfl

section ReducedOperand
variable {x x' : Euclid} {y m t : Poly} {D : Nat}

/-- What the loop keeps beside `EuclidFits` when the operand is reduced: the remainders fall, and the cofactor stays below the
modulus. -/
structure EuclidReduced (D : Nat) (x : Euclid) : Prop extends EuclidFits D x where
  falls : x.newr = 0#64 ∨ degree x.newr < degree x.r
  cofactor : x.t = 0#64 ∨ degree x.t + degree x.r < D

theorem euclidReduced_start (h : degree y < degree m) : EuclidReduced (degree m) (euclidStart y m) where
  toEuclidFits := by simpa [Nat.max_eq_left h.le] using euclidFits_start y m
  falls := .inr h
  cofactor := .inl rfl

theorem euclidStep_keeps_reduced (hD : D ≤ 63) (hx : x.newr ≠ 0#64) (hstep : euclidStep x = .ok x')
    (h : EuclidReduced D x) : EuclidReduced D x' := by
  obtain ⟨x₁, hstep₁, hfits, hdecr⟩ := euclidStep_fits hD hx h.toEuclidFits
  obtain rfl : x₁ = x' := by rw [hstep] at hstep₁; exact (Except.ok.inj hstep₁).symm
  obtain ⟨q, r, c, -, -, rfl⟩ := euclidStep_eq_ok_iff.mp hstep
  refine ⟨hfits, hdecr, .inr ?_⟩
  have hlt := h.falls.resolve_left hx
  have hle := h.newt_r
  dsimp only
  omega

/-- The inverse of a reduced operand is reduced, whatever the modulus. -/
theorem reduced_of_inverse (hy : Reduced m y) (h : inverse y m = .ok t) : Reduced m t := by
  have hy0 : y ≠ 0#64 := by
    rintro rfl
    rw [inverse_zero] at h
    cases h
  obtain ⟨x, hx, hend, ⟨hr, e⟩ | ⟨hr, e⟩⟩ := inverse_nonzero_cases m hy0 <;> rw [e] at h <;> cases h
  have hred := euclidLoop_keeps (fun _ _ => euclidStep_keeps_reduced (degree_le_63 m))
    (euclidReduced_start (hy.resolve_left hy0)) hx
  exact hred.cofactor.imp_right fun hlt => by omega

/-- The inverse times its operand is 1 modulo `m` (R164). -/
theorem residue_of_inverse (h : inverse y m = .ok t) : residue m t * residue m y = 1 := by
  have hy0 : y ≠ 0#64 := by
    rintro rfl
    rw [inverse_zero] at h
    cases h
  obtain ⟨x, hx, hend, ⟨hr, e⟩ | ⟨hr, e⟩⟩ := inverse_nonzero_cases m hy0 <;> rw [e] at h <;> cases h
  have hbez := euclidLoop_keeps (fun _ _ _ => euclidStep_keeps_bezout) (bezout_start y m) hx
  rw [← hbez.r, hr, residue_one]

/-- A reduced operand has no factor in common with an irreducible modulus, so it has an inverse. -/
theorem exists_inverse_eq_ok (hm : IrreduciblePoly m) (hy0 : y ≠ 0#64) (hy : Reduced m y) :
    ∃ t, inverse y m = .ok t := by
  obtain ⟨x, -, -, ⟨-, e⟩ | ⟨-, e⟩⟩ := inverse_nonzero_cases m hy0
  · exact ⟨x.t, e⟩
  · obtain ⟨g, hg, hgy, hgm⟩ := (inverse_eq_invariant_iff m hy0).mp e
    have hle : degree g ≤ degree y := by
      rw [← natDegree_asPolynomial, ← natDegree_asPolynomial]
      exact natDegree_le_of_dvd ((polyMod_eq_zero_iff (ne_zero_of_one_le_degree hg)).mp hgy) (asPolynomial_ne_zero hy0)
    exact absurd hgm (hm.2 g hg (hle.trans_lt (hy.resolve_left hy0)))

end ReducedOperand

/-- Settles O47: the inverse exists, is reduced, and its class is the inverse class; below degree 32 the engine can multiply it.
-/
theorem inverseIsTheInverse : Obligations.InverseIsTheInverse := by
  intro y m hm hy0 hlt
  have hm0 := ne_zero_of_one_le_degree hm.1
  obtain ⟨t, ht⟩ := exists_inverse_eq_ok hm hy0 (.inr hlt)
  have hred : Reduced m t := reduced_of_inverse (.inr hlt) ht
  have hone : residue m y * residue m t = residue m 1#64 := by rw [mul_comm, residue_of_inverse ht, residue_one]
  have ht0 : t ≠ 0#64 := by
    rintro rfl
    rw [residue_zero, mul_zero] at hone
    have h01 : (0#64 : Poly) = 1#64 := eq_of_residue_eq hm0 (reduced_zero m) (reduced_one hm.1) (by rw [residue_zero, hone])
    exact absurd h01 (by decide)
  have htdeg := hred.resolve_left ht0
  refine ⟨t, ht, ht0, htdeg, ?_, fun hdeg => ?_⟩
  · apply mod_eq_of_dvd_sub
    rw [← asPolynomial_one]
    exact AdjoinRoot.mk_eq_mk.mp (by rw [map_mul]; exact hone)
  · obtain ⟨c, hc⟩ := exists_polyMul_eq_ok (show degree y + degree t ≤ 63 by omega)
    exact ⟨c, hc, (polyMod_eq_ok_iff hm0).mpr ⟨reduced_one hm.1, by rw [residue_of_polyMul hc, hone]⟩⟩

end Sys2Proof.Machine
end

section
/-! Results are reduced (R23): the remainder ends every product, and an inverse is reduced when its operand is. -/

set_option Elab.async false

namespace Sys2Proof.Machine

open Sys2Proof.Safety

section Results
variable {a b base m v : Poly} {e : BitVec 64}

theorem reduced_of_polyMod (h : polyMod a m = .ok v) : Reduced m v := by
  by_cases hm : m = 0#64
  · rw [polyMod_domain hm] at h
    cases h
  · exact ((polyMod_eq_ok_iff hm).mp h).1

theorem reduced_of_mulMod (h : mulMod a b m = .ok v) : Reduced m v := by
  rw [mulMod_eq_bind] at h
  cases hmul : polyMul a b with
  | error f =>
    rw [hmul] at h
    cases h
  | ok c =>
    rw [hmul] at h
    exact reduced_of_polyMod h

theorem reduced_of_mulFold_pair (h : mulFold [a, b] m = .ok v) : Reduced m v := by
  rw [mulFold_pair] at h
  split at h
  · cases h
    exact reduced_zero m
  · exact reduced_of_mulMod h

theorem reduced_of_divide (h : divide a b m = .ok v) : Reduced m v := by
  obtain ⟨f, -, e⟩ | ⟨i, -, e⟩ := divide_cases a b m <;> rw [e] at h
  · cases h
  · exact reduced_of_mulFold_pair h

theorem fieldOrder_ne_zero_iff : fieldOrder m ≠ 0 ↔ 1 ≤ degree m := by
  rw [fieldOrder, Nat.sub_ne_zero_iff_lt, Nat.one_lt_two_pow_iff]
  omega

/-- With the exponent reduced the modulus has a degree, so the exponent 0 gives a reduced word too. -/
theorem reduced_of_reducedPower (h : reducedPower base e m = .ok v) : Reduced m v := by
  obtain ⟨-, he⟩ | ⟨hN, he⟩ := reducedPower_cases base e m <;> rw [he] at h
  · cases h
  · have hm := fieldOrder_ne_zero_iff.mp hN
    exact reduced_of_expLoop (ne_zero_of_one_le_degree hm) (.inl (reduced_one hm)) h

end Results

section Elements
variable {s s' u t : State} {d : BitVec 64} {i : Instr}

theorem elementsReduced_writeE {rd : EReg} {m v : Poly} (hs : ElementsReduced s) (hv : Reduced m v) :
    ElementsReduced (s.writeE rd { val := v, mod := m }) := by
  intro r
  rw [State.readE_writeE]
  split
  · exact hv
  · exact hs r

theorem resultE_elementsReduced {rd : EReg} {m : Poly} {r : Except Failure Poly} (hs : ElementsReduced s)
    (hr : ∀ v, r = .ok v → Reduced m v) (h : resultE s rd m r = .ok (s', d)) : ElementsReduced s' := by
  cases r with
  | ok v =>
    cases h
    exact elementsReduced_writeE hs (hr v rfl)
  | error f => cases h

/-- A body stores a reduced element, or no element. -/
theorem commandBody_elementsReduced (hs : ElementsReduced s) (h : commandBody s i = .ok (s', d)) :
    ElementsReduced s' := by
  have hother (hdest : destE i = []) : ElementsReduced s' := by
    intro r
    rw [(commandBody_writes h).readE_eq (by simp [hdest])]
    exact hs r
  cases i with
  | emk => exact resultE_elementsReduced hs (fun _ => reduced_of_polyMod) h
  | egen | eexp => exact resultE_elementsReduced hs (fun _ => reduced_of_reducedPower) h
  | emul => exact resultE_elementsReduced hs (fun _ => reduced_of_mulFold_pair) (sameModulus_eq_ok_iff.mp h).2
  | ediv => exact resultE_elementsReduced hs (fun _ => reduced_of_divide) (sameModulus_eq_ok_iff.mp h).2
  | einv rd ra => exact resultE_elementsReduced hs (fun _ => reduced_of_inverse (hs ra)) h
  | _ => exact hother rfl

theorem elementsReduced_congr (h : ∀ r, t.readE r = s.readE r) (hs : ElementsReduced s) : ElementsReduced t := by
  intro r
  rw [h r]
  exact hs r

theorem exec_elementsReduced (hs : ElementsReduced s) (h : exec i s = .next u) : ElementsReduced u := by
  obtain ⟨-, rfl⟩ | ⟨-, s', d, hbody, rfl⟩ | ⟨-, f, -, rfl⟩ := exec_cases h
  · exact hs
  · have hs' : ElementsReduced s' := commandBody_elementsReduced hs hbody
    exact hs'
  · exact elementsReduced_congr (readE_takeFailure s f) hs

theorem illegalCommand_elementsReduced (hs : ElementsReduced s) (h : illegalCommand s = .next u) : ElementsReduced u := by
  obtain ⟨-, rfl⟩ | ⟨-, rfl⟩ := illegalCommand_cases h
  · exact hs
  · exact elementsReduced_congr (readE_takeFailure s .illegal) hs

theorem elementsReduced_nextInputs (hu : ElementsReduced u) : ElementsReduced u.nextInputs :=
  elementsReduced_congr (State.readE_nextInputs u) hu

end Elements

/-- Settles O18: reset clears the elements, and a command that writes one writes a reduced one (`commandBody_elementsReduced`). -/
theorem stepKeepsElementsReduced : Obligations.StepKeepsElementsReduced := by
  intro s t hs h
  obtain ⟨-, rfl⟩ | ⟨-, -, rfl⟩ | ⟨-, -, ⟨i, u, -, hu, rfl⟩ | ⟨x, u, -, hu, rfl⟩⟩ := step_cases h
  · exact elementsReduced_nextInputs invariantsHoldAtReset.1
  · exact elementsReduced_nextInputs hs
  · exact elementsReduced_nextInputs (exec_elementsReduced hs hu)
  · exact elementsReduced_nextInputs (illegalCommand_elementsReduced hs hu)

end Sys2Proof.Machine
end

section
/-! The laws of the Field's units (R150): for a modulus of degree 1 to 32 every product of reduced words exists and is the
reduced word of the product's class, so the laws of the quotient ring hold of the units. -/

namespace Sys2Proof.Machine

open Sys2Proof.Safety

/-- The degrees at which sums, products and powers of reduced words never fail (R97 c, R150). -/
structure FieldModulus (m : Poly) : Prop where
  one_le : 1 ≤ degree m
  le : degree m ≤ 32

section Units
variable {a b base c m v : Poly} {e : BitVec 64}

theorem FieldModulus.ne_zero (hm : FieldModulus m) : m ≠ 0#64 := ne_zero_of_one_le_degree hm.one_le

theorem FieldModulus.reduced_one (hm : FieldModulus m) : Reduced m 1#64 := Machine.reduced_one hm.one_le

theorem FieldModulus.fieldOrder_ne_zero (hm : FieldModulus m) : fieldOrder m ≠ 0 := fieldOrder_ne_zero_iff.mpr hm.one_le

/-- What the pairwise fold answers on reduced words: the reduced word of the product's class. -/
theorem mulFold_pair_eq_ok_iff (hm : FieldModulus m) (ha : Reduced m a) (hb : Reduced m b) :
    mulFold [a, b] m = .ok c ↔ Reduced m c ∧ residue m c = residue m a * residue m b := by
  rw [mulFold_pair]
  split
  · next hz =>
    have hprod : residue m a * residue m b = residue m 0#64 := by obtain rfl | rfl := hz <;> simp
    rw [hprod, Except.ok.injEq]
    refine ⟨?_, fun ⟨hc, hres⟩ => (eq_of_residue_eq hm.ne_zero hc (reduced_zero m) hres).symm⟩
    rintro rfl
    exact ⟨reduced_zero m, rfl⟩
  · have hadeg := degree_le_31_of_reduced hm.le ha
    have hbdeg := degree_le_31_of_reduced hm.le hb
    rw [mulMod_eq_ok_iff hm.ne_zero]
    exact and_iff_right (by omega)

theorem exists_mulFold_pair_eq_ok (hm : FieldModulus m) (ha : Reduced m a) (hb : Reduced m b) :
    ∃ c, mulFold [a, b] m = .ok c := by
  rw [mulFold_pair]
  split
  · exact ⟨_, rfl⟩
  · have hadeg := degree_le_31_of_reduced hm.le ha
    have hbdeg := degree_le_31_of_reduced hm.le hb
    exact exists_mulMod_eq_ok hm.ne_zero (by omega)

/-- What the power unit answers on a reduced base: the reduced word of the power's class. -/
theorem polyExp_eq_ok_iff (hm : FieldModulus m) (hbase : Reduced m base) :
    polyExp base e m = .ok v ↔ Reduced m v ∧ residue m v = residue m base ^ e.toNat := by
  have hreduced {v : Poly} (h : polyExp base e m = .ok v) : Reduced m v :=
    reduced_of_expLoop hm.ne_zero (.inl hm.reduced_one) h
  refine ⟨fun h => ⟨hreduced h, residue_of_polyExp h⟩, fun ⟨hv, hres⟩ => ?_⟩
  obtain ⟨u, hu⟩ := exists_polyExp_eq_ok e hm.ne_zero hm.le hbase
  rw [hu, eq_of_residue_eq hm.ne_zero hv (hreduced hu) (by rw [hres, residue_of_polyExp hu])]

theorem exists_reducedPower_eq_ok (e : BitVec 64) (hm : FieldModulus m) (hbase : Reduced m base) :
    ∃ v, reducedPower base e m = .ok v := by
  rw [reducedPower_eq_polyExp base e hm.fieldOrder_ne_zero]
  exact exists_polyExp_eq_ok _ hm.ne_zero hm.le hbase

/-- An exponent that the group order divides counts as 0, for every base (R135, log 11). -/
theorem reducedPower_eq_one (base : Poly) (hm : FieldModulus m) (he : e.toNat % fieldOrder m = 0) :
    reducedPower base e m = .ok 1#64 := by
  rw [reducedPower_eq_polyExp base e hm.fieldOrder_ne_zero, he, polyExp_zero]

theorem toNat_fieldOrder (m : Poly) : (BitVec.ofNat 64 (fieldOrder m)).toNat = fieldOrder m := by
  rw [BitVec.toNat_ofNat, Nat.mod_eq_of_lt (fieldOrder_lt m)]

theorem reducedPower_fieldOrder (base : Poly) (hm : FieldModulus m) :
    reducedPower base (BitVec.ofNat 64 (fieldOrder m)) m = .ok 1#64 :=
  reducedPower_eq_one base hm (by rw [toNat_fieldOrder, Nat.mod_self])

theorem reducedPower_zero (base : Poly) (hm : FieldModulus m) : reducedPower base 0#64 m = .ok 1#64 :=
  reducedPower_eq_one base hm (Nat.zero_mod _)

/-- 2 is reduced but for degree 1. -/
theorem reduced_two (h : 2 ≤ degree m) : Reduced m 2#64 := .inr (lt_of_lt_of_le (by decide) h)

/-- A generator power exists for every exponent; at degree 1 every exponent counts as 0. -/
theorem exists_generate_eq_ok (e : BitVec 64) (hm : FieldModulus m) : ∃ v, generate e m = .ok v := by
  rw [generate_eq_reducedPower]
  obtain h1 | h2 : degree m = 1 ∨ 2 ≤ degree m := by have := hm.one_le; omega
  · exact ⟨1#64, reducedPower_eq_one 2#64 hm (by rw [fieldOrder, h1]; exact Nat.mod_one _)⟩
  · exact exists_reducedPower_eq_ok e hm (reduced_two h2)

theorem mulFold_one (hm : FieldModulus m) (ha : Reduced m a) : mulFold [a, 1#64] m = .ok a :=
  (mulFold_pair_eq_ok_iff hm ha hm.reduced_one).mpr ⟨ha, by rw [residue_one, mul_one]⟩

theorem mulFold_comm (hm : FieldModulus m) (ha : Reduced m a) (hb : Reduced m b) :
    mulFold [a, b] m = .ok c ↔ mulFold [b, a] m = .ok c := by
  rw [mulFold_pair_eq_ok_iff hm ha hb, mulFold_pair_eq_ok_iff hm hb ha, mul_comm]

theorem mulFold_polyAdd {ab ac : Poly} (hm : FieldModulus m) (ha : Reduced m a) (hb : Reduced m b) (hc : Reduced m c)
    (hab : mulFold [a, b] m = .ok ab) (hac : mulFold [a, c] m = .ok ac) :
    mulFold [a, polyAdd b c] m = .ok (polyAdd ab ac) := by
  obtain ⟨hred, hres⟩ := (mulFold_pair_eq_ok_iff hm ha hb).mp hab
  obtain ⟨hred', hres'⟩ := (mulFold_pair_eq_ok_iff hm ha hc).mp hac
  rw [mulFold_pair_eq_ok_iff hm ha (reduced_polyAdd hb hc)]
  exact ⟨reduced_polyAdd hred hred', by rw [residue_polyAdd, residue_polyAdd, hres, hres', mul_add]⟩

theorem mulFold_assoc {ab bc abc : Poly} (hm : FieldModulus m) (ha : Reduced m a) (hb : Reduced m b) (hc : Reduced m c)
    (hab : mulFold [a, b] m = .ok ab) (hbc : mulFold [b, c] m = .ok bc) (habc : mulFold [ab, c] m = .ok abc) :
    mulFold [a, bc] m = .ok abc := by
  obtain ⟨hred, hres⟩ := (mulFold_pair_eq_ok_iff hm ha hb).mp hab
  obtain ⟨hred', hres'⟩ := (mulFold_pair_eq_ok_iff hm hb hc).mp hbc
  obtain ⟨hred'', hres''⟩ := (mulFold_pair_eq_ok_iff hm hred hc).mp habc
  rw [mulFold_pair_eq_ok_iff hm ha hred']
  exact ⟨hred'', by rw [hres'', hres, hres', mul_assoc]⟩

/-- The product with the inverse is 1. -/
theorem mulFold_inverse (hm : FieldModulus m) (hb : Reduced m b) (h : inverse b m = .ok v) :
    mulFold [b, v] m = .ok 1#64 := by
  rw [mulFold_pair_eq_ok_iff hm hb (reduced_of_inverse hb h), mul_comm, residue_of_inverse h, residue_one]
  exact ⟨hm.reduced_one, rfl⟩

/-- A product divided by its right factor is its left factor. -/
theorem divide_of_mulFold {i x : Poly} (hm : FieldModulus m) (ha : Reduced m a) (hb : Reduced m b)
    (hi : inverse b m = .ok i) (hx : mulFold [a, b] m = .ok x) : divide x b m = .ok a := by
  obtain ⟨hred, hres⟩ := (mulFold_pair_eq_ok_iff hm ha hb).mp hx
  rw [divide_of_inverse_ok hi, mulFold_pair_eq_ok_iff hm hred (reduced_of_inverse hb hi), hres, mul_assoc,
    mul_comm (residue m b), residue_of_inverse hi, mul_one]
  exact ⟨ha, rfl⟩

theorem exists_divide_eq_ok {i : Poly} (hm : FieldModulus m) (ha : Reduced m a) (hb : Reduced m b)
    (hi : inverse b m = .ok i) : ∃ q, divide a b m = .ok q := by
  rw [divide_of_inverse_ok hi]
  exact exists_mulFold_pair_eq_ok hm ha (reduced_of_inverse hb hi)

/-- A quotient multiplied by its divisor is its dividend. -/
theorem mulFold_of_divide {i q : Poly} (hm : FieldModulus m) (ha : Reduced m a) (hb : Reduced m b)
    (hi : inverse b m = .ok i) (hq : divide a b m = .ok q) : mulFold [q, b] m = .ok a := by
  rw [divide_of_inverse_ok hi] at hq
  obtain ⟨hred, hres⟩ := (mulFold_pair_eq_ok_iff hm ha (reduced_of_inverse hb hi)).mp hq
  rw [mulFold_pair_eq_ok_iff hm hred hb, hres, mul_assoc, residue_of_inverse hi, mul_one]
  exact ⟨ha, rfl⟩

end Units

end Sys2Proof.Machine
end

section
/-! R150 on the commands: in a Field `(m, W)` with `Degree(m) <= W` a reduced word is not narrowed, so a Field command answers
what its unit answers. -/

set_option Elab.async false

namespace Sys2Proof.Machine

open Sys2Proof.Safety

section Commands
variable {m a b v : Poly} {wc : BitVec 2} {e : BitVec 64}

theorem narrow_of_lt {W : Nat} (h : v.toNat < 2 ^ W) : narrow W v = v := by
  rw [narrow_eq_mod, Nat.mod_eq_of_lt h, BitVec.ofNat_toNat, BitVec.setWidth_eq]

theorem toNat_lt_of_reduced {W : Nat} (hW : degree m ≤ W) (hv : Reduced m v) : v.toNat < 2 ^ W :=
  (reduced_iff_toNat_lt.mp hv).trans_le (Nat.pow_le_pow_right (by decide) hW)

theorem mod_of_inField {s : State} (hs : InField m wc s) : s.mod = m := by
  obtain ⟨-, -, hmod, -⟩ := hs
  exact hmod

theorem readField_of_reduced {s : State} {r : PReg} (hs : InField m wc s) (hW : degree m ≤ 8 * 2 ^ wc.toNat)
    (hr : s.readP r = v) (hv : Reduced m v) : s.readField r = v := by
  obtain ⟨-, -, -, hwid⟩ := hs
  rw [State.readField_eq, hwid, hr, narrow_of_lt (toNat_lt_of_reduced hW hv)]

/-- A Field command whose unit answers a reduced word writes that word. -/
theorem exec_of_resultField {s : State} {i : Instr} {rd : PReg} {r : Except Failure Poly} (hs : InField m wc s)
    (hW : degree m ≤ 8 * 2 ^ wc.toNat) (hbody : commandBody s i = fieldBody s (resultField s rd r)) (hr : r = .ok v)
    (hv : Reduced m v) : exec i s = .next ((s.writeP rd v).respond .ok 0#64) := by
  obtain ⟨hhalt, hcfgv, -, hwid⟩ := hs
  rw [exec_resultField_ok hhalt hcfgv hbody hr, hwid, narrow_of_lt (toNat_lt_of_reduced hW hv)]

theorem gives2_fadd (hW : degree m ≤ 8 * 2 ^ wc.toNat) (ha : Reduced m a) (hb : Reduced m b) :
    Gives2 m wc .fadd a b (polyAdd a b) := by
  intro s rd ra rb hs hra hrb
  refine exec_of_resultField hs hW rfl ?_ (reduced_polyAdd ha hb)
  rw [readField_of_reduced hs hW hra ha, readField_of_reduced hs hW hrb hb]

theorem gives2_fmul (hW : degree m ≤ 8 * 2 ^ wc.toNat) (ha : Reduced m a) (hb : Reduced m b)
    (h : mulFold [a, b] m = .ok v) : Gives2 m wc .fmul a b v := by
  intro s rd ra rb hs hra hrb
  refine exec_of_resultField hs hW rfl ?_ (reduced_of_mulFold_pair h)
  rw [readField_of_reduced hs hW hra ha, readField_of_reduced hs hW hrb hb, mod_of_inField hs, h]

theorem gives1_finv (hW : degree m ≤ 8 * 2 ^ wc.toNat) (ha : Reduced m a) (h : inverse a m = .ok v) :
    Gives1 m wc .finv a v := by
  intro s rd ra hs hra
  refine exec_of_resultField hs hW rfl ?_ (reduced_of_inverse ha h)
  rw [readField_of_reduced hs hW hra ha, mod_of_inField hs, h]

theorem gives2_fdiv (hW : degree m ≤ 8 * 2 ^ wc.toNat) (ha : Reduced m a) (hb : Reduced m b)
    (h : divide a b m = .ok v) : Gives2 m wc .fdiv a b v := by
  intro s rd ra rb hs hra hrb
  refine exec_of_resultField hs hW rfl ?_ (reduced_of_divide h)
  rw [readField_of_reduced hs hW hra ha, readField_of_reduced hs hW hrb hb, mod_of_inField hs, h]

theorem gives1_fgen (hW : degree m ≤ 8 * 2 ^ wc.toNat) (h : generate e m = .ok v) : Gives1 m wc .fgen e v := by
  intro s rd ra hs hra
  refine exec_of_resultField hs hW rfl ?_ (reduced_of_reducedPower h)
  rw [hra, mod_of_inField hs, h]

theorem gives2_fexp (hW : degree m ≤ 8 * 2 ^ wc.toNat) (ha : Reduced m a) (h : reducedPower a e m = .ok v) :
    Gives2 m wc .fexp a e v := by
  intro s rd ra rb hs hra hrb
  refine exec_of_resultField hs hW rfl ?_ (reduced_of_reducedPower h)
  rw [readField_of_reduced hs hW hra ha, hrb, mod_of_inField hs, h]

/-- With an exponent that counts as 0 `FEXP` answers 1 whatever the base. -/
theorem gives2_fexp_fieldOrder (hW : degree m ≤ 8 * 2 ^ wc.toNat) (hm : FieldModulus m) (a : Poly) :
    Gives2 m wc .fexp a (BitVec.ofNat 64 (fieldOrder m)) 1#64 := by
  intro s rd ra rb hs hra hrb
  refine exec_of_resultField hs hW rfl ?_ hm.reduced_one
  rw [hrb, mod_of_inField hs, reducedPower_fieldOrder _ hm]

end Commands

section RingLaws
variable {m : Poly} {wc : BitVec 2}

/-- R150 (a), (c), (e), (f) on the commands, from the laws of the units. -/
theorem ringProperties (hm : FieldModulus m) (hW : degree m ≤ 8 * 2 ^ wc.toNat) : RingProperties m wc := by
  refine ⟨fun a ha => ?_, fun a b c ha hb hc => ?_, gives2_fexp_fieldOrder hW hm 2#64,
    gives1_fgen hW (reducedPower_zero 2#64 hm), gives1_fgen hW (reducedPower_fieldOrder 2#64 hm), fun e => ?_⟩
  · have ha := reduced_iff_toNat_lt.mpr ha
    refine ⟨?_, ?_, gives2_fmul hW ha hm.reduced_one (mulFold_one hm ha),
      gives2_fmul hW ha (reduced_zero m) (mulFold_zero m (by simp)), gives2_fexp hW ha (reducedPower_zero a hm),
      fun e => ?_⟩
    · simpa [polyAdd] using gives2_fadd hW ha (reduced_zero m)
    · simpa [polyAdd] using gives2_fadd hW ha ha
    · obtain ⟨v, hv⟩ := exists_reducedPower_eq_ok e hm ha
      exact ⟨v, reduced_iff_toNat_lt.mp (reduced_of_reducedPower hv), gives2_fexp hW ha hv⟩
  · rw [← reduced_iff_toNat_lt] at ha hb hc
    obtain ⟨ab, hab⟩ := exists_mulFold_pair_eq_ok hm ha hb
    obtain ⟨ac, hac⟩ := exists_mulFold_pair_eq_ok hm ha hc
    obtain ⟨bc, hbc⟩ := exists_mulFold_pair_eq_ok hm hb hc
    have hab' := reduced_of_mulFold_pair hab
    have hac' := reduced_of_mulFold_pair hac
    have hbc' := reduced_of_mulFold_pair hbc
    obtain ⟨abc, habc⟩ := exists_mulFold_pair_eq_ok hm hab' hc
    have hsum := reduced_polyAdd hb hc
    have hasum := mulFold_polyAdd hm ha hb hc hab hac
    refine ⟨polyAdd b c, ab, ac, bc, polyAdd ab ac, abc, ?_⟩
    simp only [← reduced_iff_toNat_lt]
    exact ⟨hsum, hab', reduced_polyAdd hab' hac', reduced_of_mulFold_pair habc, gives2_fadd hW hb hc,
      gives2_fmul hW ha hb hab, gives2_fmul hW ha hc hac, gives2_fmul hW hb hc hbc, gives2_fmul hW ha hsum hasum,
      gives2_fadd hW hab' hac', gives2_fmul hW hb ha ((mulFold_comm hm ha hb).mp hab), gives2_fmul hW hab' hc habc,
      gives2_fmul hW ha hbc' (mulFold_assoc hm ha hb hc hab hbc habc)⟩
  · obtain ⟨v, hv⟩ := exists_generate_eq_ok e hm
    exact ⟨v, reduced_iff_toNat_lt.mp (reduced_of_reducedPower hv), gives1_fgen hW hv⟩

/-- Settles O50, by the laws of the units and `ringProperties`. -/
theorem fieldLaws : Obligations.FieldLaws := by
  intro m h1 h32
  have hm : FieldModulus m := ⟨h1, h32⟩
  refine ⟨fun a b c ha hb hc => ?_, fun wc hW => ringProperties hm hW⟩
  simp only [← reduced_iff_toNat_lt] at ha hb hc ⊢
  obtain ⟨ab, hab⟩ := exists_mulFold_pair_eq_ok hm ha hb
  obtain ⟨ac, hac⟩ := exists_mulFold_pair_eq_ok hm ha hc
  obtain ⟨bc, hbc⟩ := exists_mulFold_pair_eq_ok hm hb hc
  have hab' := reduced_of_mulFold_pair hab
  obtain ⟨abc, habc⟩ := exists_mulFold_pair_eq_ok hm hab' hc
  exact ⟨⟨ab, ac, polyAdd ab ac, bc, abc, hab, hac, mulFold_polyAdd hm ha hb hc hab hac, hab', rfl,
      (mulFold_comm hm ha hb).mp hab, hbc, habc, mulFold_assoc hm ha hb hc hab hbc habc⟩,
    mulFold_one hm ha, mulFold_zero m (by simp), reduced_polyAdd hb hc, reducedPower_zero a hm,
    reducedPower_fieldOrder a hm⟩

/-- Modulo an irreducible modulus nothing in a division by a nonzero word fails. -/
theorem exists_inverse_mulFold_divide (hirr : IrreduciblePoly m) (h32 : degree m ≤ 32) {a b : Poly} (ha : Reduced m a)
    (hb : Reduced m b) (hb0 : b ≠ 0#64) :
    ∃ i x q, inverse b m = .ok i ∧ mulFold [a, b] m = .ok x ∧ divide a b m = .ok q := by
  have hm : FieldModulus m := ⟨hirr.1, h32⟩
  obtain ⟨i, hi⟩ := exists_inverse_eq_ok hirr hb0 hb
  obtain ⟨x, hx⟩ := exists_mulFold_pair_eq_ok hm ha hb
  obtain ⟨q, hq⟩ := exists_divide_eq_ok hm ha hb hi
  exact ⟨i, x, q, hi, hx, hq⟩

/-- Settles O51: the inverse exists modulo an irreducible modulus, and undoes the product. -/
theorem divisionRoundTripInAField : Obligations.DivisionRoundTripInAField := by
  intro m hirr h32
  have hm : FieldModulus m := ⟨hirr.1, h32⟩
  refine ⟨fun a b ha hb hb0 => ?_, fun wc hW a b ha hb hb0 => ?_⟩
  · rw [← reduced_iff_toNat_lt] at ha hb
    obtain ⟨i, x, q, hi, hx, hq⟩ := exists_inverse_mulFold_divide hirr h32 ha hb hb0
    exact ⟨⟨i, hi, mulFold_inverse hm hb hi⟩, ⟨x, hx, divide_of_mulFold hm ha hb hi hx⟩,
      q, hq, mulFold_of_divide hm ha hb hi hq⟩
  · simp only [← reduced_iff_toNat_lt] at ha hb ⊢
    obtain ⟨i, x, q, hi, hx, hq⟩ := exists_inverse_mulFold_divide hirr h32 ha hb hb0
    have hi' := reduced_of_inverse hb hi
    have hx' := reduced_of_mulFold_pair hx
    have hq' := reduced_of_divide hq
    exact ⟨⟨i, hi', gives1_finv hW hb hi, gives2_fmul hW hb hi' (mulFold_inverse hm hb hi)⟩,
      ⟨x, hx', gives2_fmul hW ha hb hx, gives2_fdiv hW hx' hb (divide_of_mulFold hm ha hb hi hx)⟩,
      q, hq', gives2_fdiv hW ha hb hq, gives2_fmul hW hq' hb (mulFold_of_divide hm ha hb hi hq)⟩

end RingLaws

end Sys2Proof.Machine
end

section
/-! Completion under the document's contract (R150, R165, R233): modulo an irreducible modulus of degree 2 to 32, commands on
reduced operands answer `OK` with a reduced result. -/

set_option Elab.async false

namespace Sys2Proof.Machine

open Sys2Proof.Safety

section Folds
variable {m acc : Poly} {vs ops : List Poly}

theorem reduced_foldl_polyAdd (hacc : Reduced m acc) (hvs : ∀ v ∈ vs, Reduced m v) :
    Reduced m (vs.foldl polyAdd acc) := by
  induction vs generalizing acc with
  | nil => exact hacc
  | cons v vs ih =>
    obtain ⟨hv, hvs⟩ := List.forall_mem_cons.mp hvs
    exact ih (reduced_polyAdd hacc hv) hvs

theorem exists_foldFrom_eq_ok (hm : FieldModulus m) (hacc : Reduced m acc) (hvs : ∀ v ∈ vs, Reduced m v) :
    ∃ v, foldFrom m acc vs = .ok v ∧ Reduced m v := by
  induction vs generalizing acc with
  | nil => exact ⟨acc, rfl, hacc⟩
  | cons v vs ih =>
    obtain ⟨hv, hvs⟩ := List.forall_mem_cons.mp hvs
    have haccdeg := degree_le_31_of_reduced hm.le hacc
    have hvdeg := degree_le_31_of_reduced hm.le hv
    obtain ⟨r, hr⟩ := exists_mulMod_eq_ok hm.ne_zero (show degree acc + degree v ≤ 63 by omega)
    rw [foldFrom_cons, hr, Except.bind]
    exact ih (reduced_of_mulMod hr) hvs

/-- The fold of reduced words never fails and is reduced. -/
theorem exists_mulFold_eq_ok (hm : FieldModulus m) (hops : ∀ v ∈ ops, Reduced m v) :
    ∃ v, mulFold ops m = .ok v ∧ Reduced m v := by
  by_cases hzero : 0#64 ∈ ops
  · exact ⟨0#64, mulFold_zero m hzero, reduced_zero m⟩
  · cases ops with
    | nil => exact ⟨0#64, rfl, reduced_zero m⟩
    | cons v vs =>
      obtain ⟨hv, hvs⟩ := List.forall_mem_cons.mp hops
      rw [mulFold_nonzero m v hzero]
      exact exists_foldFrom_eq_ok hm hv hvs

theorem forall_mem_maskedOperands {p : Poly → Prop} {s : State} {mask : BitVec 8}
    (h : ∀ i < 8, mask.getLsbD i = true → p (s.readField (BitVec.ofNat 3 i))) : ∀ v ∈ s.maskedOperands mask, p v := by
  rw [State.maskedOperands_eq_range]
  intro v hv
  obtain ⟨i, hi, rfl⟩ := List.mem_map.mp hv
  obtain ⟨hi, hbit⟩ := List.mem_filter.mp hi
  exact h i (List.mem_range.mp hi) hbit

end Folds

section Field
variable {s : State} {i : Instr} {rd : PReg} {r : Except Failure Poly}

/-- A Field command whose unit answers a reduced word completes with that word. -/
theorem field_command_completes (h : s.halt = false) (hc : s.cfgv = true) (hW : degree s.mod ≤ s.width)
    (hbody : commandBody s i = fieldBody s (resultField s rd r)) (hr : ∃ v, r = .ok v ∧ Reduced s.mod v) :
    ∃ v : Poly, exec i s = .next ((s.writeP rd v).respond .ok 0#64) ∧ Reduced s.mod v := by
  obtain ⟨v, hr, hv⟩ := hr
  rw [State.width_eq] at hW
  exact ⟨v, exec_of_resultField (wc := s.wid) ⟨h, hc, rfl, rfl⟩ hW hbody hr hv, hv⟩

end Field

/-- Settles O53: each Field command is `field_command_completes` with the reduced answer of its unit. -/
theorem fieldCommandsCompleteUnderTheContract : Obligations.FieldCommandsCompleteUnderTheContract := by
  intro s h hc hirr h2 h32 hW rd ra rb mask reduced completes
  have hm : FieldModulus s.mod := ⟨hirr.1, h32⟩
  simp only [completes, reduced, ← reduced_iff_toNat_lt]
  obtain ⟨-, -, hread, -⟩ := fordFgetmReadTheField rd s h
  obtain ⟨hford, hfgetm⟩ := hread hc
  refine ⟨hford, hfgetm, ?_, fun ha hb => ⟨?_, ?_⟩, fun hmask => ⟨?_, ?_⟩, fun ha => ?_, fun ha ha0 => ?_,
    fun ha hb hb0 => ?_⟩
  · obtain ⟨v, hv⟩ := exists_generate_eq_ok (s.readP ra) hm
    exact field_command_completes h hc hW rfl ⟨v, hv, reduced_of_reducedPower hv⟩
  · exact field_command_completes h hc hW rfl ⟨_, rfl, reduced_polyAdd ha hb⟩
  · obtain ⟨v, hv⟩ := exists_mulFold_pair_eq_ok hm ha hb
    exact field_command_completes h hc hW rfl ⟨v, hv, reduced_of_mulFold_pair hv⟩
  · exact field_command_completes h hc hW rfl
      ⟨_, rfl, reduced_foldl_polyAdd (reduced_zero _) (forall_mem_maskedOperands hmask)⟩
  · exact field_command_completes h hc hW rfl (exists_mulFold_eq_ok hm (forall_mem_maskedOperands hmask))
  · obtain ⟨v, hv⟩ := exists_reducedPower_eq_ok (s.readP rb) hm ha
    exact field_command_completes h hc hW rfl ⟨v, hv, reduced_of_reducedPower hv⟩
  · obtain ⟨v, hv⟩ := exists_inverse_eq_ok hirr ha0 ha
    exact field_command_completes h hc hW rfl ⟨v, hv, reduced_of_inverse ha hv⟩
  · obtain ⟨i, x, q, hi, hx, hq⟩ := exists_inverse_mulFold_divide hirr h32 ha hb hb0
    exact field_command_completes h hc hW rfl ⟨q, hq, reduced_of_divide hq⟩

section Element
variable {s : State} {i : Instr} {rd : EReg} {m : Poly} {r : Except Failure Poly}

/-- A command that stores a unit's answer completes with a reduced element. -/
theorem element_command_completes (h : s.halt = false) (hbody : commandBody s i = resultE s rd m r)
    (hr : ∃ v, r = .ok v ∧ Reduced m v) :
    ∃ v : Poly, exec i s = .next ((s.writeE rd { val := v, mod := m }).respond .ok 0#64) ∧ Reduced m v := by
  obtain ⟨v, hr, hv⟩ := hr
  exact ⟨v, exec_resultE_ok h hbody hr, hv⟩

/-- Elements of one modulus are equal when their values are. -/
theorem decide_element_eq {a b : Element} (h : a.mod = b.mod) : decide (a = b) = decide (a.val = b.val) := by
  simp [Element.eq_iff, h]

end Element

/-- Settles O58: each constructor and operation is `element_command_completes` with the reduced answer of its unit; the readers
and predicates never fail. -/
theorem elementCommandsCompleteUnderTheContract : Obligations.ElementCommandsCompleteUnderTheContract := by
  intro s m h hirr h2 h32 rd ra rb pa pb element answered completes
  have hm : FieldModulus m := ⟨hirr.1, h32⟩
  simp only [completes, element, answered, ← reduced_iff_toNat_lt]
  refine ⟨fun hpb => ⟨?_, ?_⟩, fun ⟨ham, ha⟩ ⟨hbm, hb⟩ => ?_, fun ⟨ham, ha⟩ => ?_, fun ⟨ham, ha⟩ ha0 => ?_,
    fun ⟨ham, ha⟩ ⟨hbm, hb⟩ hb0 => ?_, fun ⟨ham, ha⟩ => ⟨⟨_, ha, exec_running_of_ok h rfl⟩, ?_, ?_, ?_⟩,
    fun ⟨ham, ha⟩ ⟨hbm, hb⟩ => ?_⟩
  · obtain ⟨v, hv⟩ := exists_polyMod_eq_ok (s.readP pa) hm.ne_zero
    subst hpb
    exact element_command_completes h rfl ⟨v, hv, reduced_of_polyMod hv⟩
  · obtain ⟨v, hv⟩ := exists_generate_eq_ok (s.readP pa) hm
    subst hpb
    exact element_command_completes h rfl ⟨v, hv, reduced_of_reducedPower hv⟩
  · obtain ⟨v, hv⟩ := exists_mulFold_pair_eq_ok hm ha hb
    subst ham
    exact element_command_completes h (commandBody_emul_of_eq hbm.symm) ⟨v, hv, reduced_of_mulFold_pair hv⟩
  · obtain ⟨v, hv⟩ := exists_reducedPower_eq_ok (s.readP pa) hm ha
    subst ham
    exact element_command_completes h rfl ⟨v, hv, reduced_of_reducedPower hv⟩
  · obtain ⟨v, hv⟩ := exists_inverse_eq_ok hirr ha0 ha
    subst ham
    exact element_command_completes h rfl ⟨v, hv, reduced_of_inverse ha hv⟩
  · obtain ⟨i, x, q, hi, hx, hq⟩ := exists_inverse_mulFold_divide hirr h32 ha hb hb0
    subst ham
    exact element_command_completes h (commandBody_ediv_of_eq hbm.symm) ⟨q, hq, reduced_of_divide hq⟩
  · rw [← ham]
    exact exec_running_of_ok h rfl
  · exact exec_predicate h rfl
  · exact exec_predicate h rfl
  · rw [← decide_element_eq (ham.trans hbm.symm)]
    exact exec_predicate h rfl

end Sys2Proof.Machine
end

section
/-! Primitivity of 2 (R123 c, R139). The powers of 2 are the powers of the class of 2, whose order is `2^d - 1` when 2 is
primitive; so they are distinct, and as many as there are nonzero reduced words, hence all of them. All nonzero classes are then
units, which leaves the modulus no factor. -/

set_option Elab.async false

namespace Sys2Proof.Machine

open Sys2Proof.Safety Polynomial

section Order
variable {m v : Poly}

/-- A power of 2 with an exponent that is a number of 64 bits. -/
theorem polyExp_two_eq_ok_iff (hm : FieldModulus m) (h2 : 2 ≤ degree m) {e : Nat} (he : e < 2 ^ 64) :
    polyExp 2#64 (BitVec.ofNat 64 e) m = .ok v ↔ Reduced m v ∧ residue m v = residue m 2#64 ^ e := by
  rw [polyExp_eq_ok_iff hm (reduced_two h2), BitVec.toNat_ofNat, Nat.mod_eq_of_lt he]

theorem polyExp_two_eq_one_iff (hm : FieldModulus m) (h2 : 2 ≤ degree m) {e : Nat} (he : e < 2 ^ 64) :
    polyExp 2#64 (BitVec.ofNat 64 e) m = .ok 1#64 ↔ residue m 2#64 ^ e = 1 := by
  rw [polyExp_two_eq_ok_iff hm h2 he, residue_one, and_iff_right hm.reduced_one, eq_comm]

/-- 2 is primitive when its class has the order of the multiplicative group. -/
theorem primitiveTwo_iff_orderOf (hm : FieldModulus m) (h2 : 2 ≤ degree m) :
    PrimitiveTwo m ↔ orderOf (residue m 2#64) = fieldOrder m := by
  have hN := fieldOrder_lt m
  rw [orderOf_eq_iff (Nat.pos_of_ne_zero hm.fieldOrder_ne_zero), PrimitiveTwo, polyExp_two_eq_one_iff hm h2 hN]
  refine and_congr_right fun _ => ⟨fun h j hj h0 => ?_, fun h j h0 hj => ?_⟩
  · rw [ne_eq, ← polyExp_two_eq_one_iff hm h2 (hj.trans hN)]
    exact h j h0 hj
  · rw [ne_eq, polyExp_two_eq_one_iff hm h2 (hj.trans hN)]
    exact h j hj h0

end Order

section Enumeration
variable {m v : Poly}

/-- The word of the power `2^e` modulo `m`; 0 where the power unit fails, which it does not (`generatorPower_spec`). -/
def generatorPower (m : Poly) (e : Nat) : Poly := (polyExp 2#64 (BitVec.ofNat 64 e) m).toOption.getD 0#64

theorem generatorPower_spec (hm : FieldModulus m) (h2 : 2 ≤ degree m) (e : Nat) :
    polyExp 2#64 (BitVec.ofNat 64 e) m = .ok (generatorPower m e) := by
  obtain ⟨v, hv⟩ := exists_polyExp_eq_ok (BitVec.ofNat 64 e) hm.ne_zero hm.le (reduced_two h2)
  rw [generatorPower, hv]
  rfl

variable (hm : FieldModulus m) (h2 : 2 ≤ degree m) (hprim : PrimitiveTwo m)
include hm h2

theorem reduced_generatorPower {e : Nat} (he : e < 2 ^ 64) : Reduced m (generatorPower m e) :=
  ((polyExp_two_eq_ok_iff hm h2 he).mp (generatorPower_spec hm h2 e)).1

theorem residue_generatorPower {e : Nat} (he : e < 2 ^ 64) : residue m (generatorPower m e) = residue m 2#64 ^ e :=
  ((polyExp_two_eq_ok_iff hm h2 he).mp (generatorPower_spec hm h2 e)).2

include hprim

theorem isUnit_residue_two : IsUnit (residue m 2#64) :=
  IsUnit.of_pow_eq_one ((polyExp_two_eq_one_iff hm h2 (fieldOrder_lt m)).mp hprim.1) hm.fieldOrder_ne_zero

theorem generatorPower_ne_zero {e : Nat} (he : e < 2 ^ 64) : generatorPower m e ≠ 0#64 := by
  intro h0
  have hunit := (isUnit_residue_two hm h2 hprim).pow e
  rw [← residue_generatorPower hm h2 he, h0, residue_zero, isUnit_zero_iff] at hunit
  have h01 : (0#64 : Poly) = 1#64 :=
    eq_of_residue_eq hm.ne_zero (reduced_zero m) hm.reduced_one (by rw [residue_zero, residue_one, hunit])
  exact absurd h01 (by decide)

theorem generatorPower_injOn {e e' : Nat} (he : e < fieldOrder m) (he' : e' < fieldOrder m)
    (h : generatorPower m e = generatorPower m e') : e = e' := by
  have hN := fieldOrder_lt m
  have hpow : residue m 2#64 ^ e = residue m 2#64 ^ e' := by
    rw [← residue_generatorPower hm h2 (he.trans hN), ← residue_generatorPower hm h2 (he'.trans hN), h]
  rw [← (primitiveTwo_iff_orderOf hm h2).mp hprim] at he he'
  exact pow_injOn_Iio_orderOf he he' hpow

/-- `2^d - 1` distinct powers among `2^d - 1` nonzero reduced words are all of them (R139). -/
theorem exists_generatorPower_eq (hv : Reduced m v) (hv0 : v ≠ 0#64) : ∃ e < fieldOrder m, generatorPower m e = v := by
  have hN := fieldOrder_lt m
  have hsub : (Finset.range (fieldOrder m)).image (fun e => (generatorPower m e).toNat) ⊆ Finset.Ico 1 (2 ^ degree m) := by
    intro n hn
    obtain ⟨e, he, rfl⟩ := Finset.mem_image.mp hn
    have he : e < 2 ^ 64 := (Finset.mem_range.mp he).trans hN
    have hne : (generatorPower m e).toNat ≠ 0 := by
      simpa [← BitVec.toNat_inj] using generatorPower_ne_zero hm h2 hprim he
    exact Finset.mem_Ico.mpr ⟨Nat.one_le_iff_ne_zero.mpr hne, reduced_iff_toNat_lt.mp (reduced_generatorPower hm h2 he)⟩
  have hcard : ((Finset.range (fieldOrder m)).image fun e => (generatorPower m e).toNat).card = fieldOrder m := by
    rw [Finset.card_image_of_injOn, Finset.card_range]
    intro e he e' he' heq
    exact generatorPower_injOn hm h2 hprim (Finset.mem_range.mp he) (Finset.mem_range.mp he') (BitVec.eq_of_toNat_eq heq)
  have hall := Finset.eq_of_subset_of_card_le hsub (by rw [hcard, Nat.card_Ico, fieldOrder])
  have hmem : v.toNat ∈ Finset.Ico 1 (2 ^ degree m) :=
    Finset.mem_Ico.mpr ⟨Nat.one_le_iff_ne_zero.mpr (by simpa [← BitVec.toNat_inj] using hv0), reduced_iff_toNat_lt.mp hv⟩
  rw [← hall] at hmem
  obtain ⟨e, he, heq⟩ := Finset.mem_image.mp hmem
  exact ⟨e, Finset.mem_range.mp he, BitVec.eq_of_toNat_eq heq⟩

theorem isUnit_residue (hv : Reduced m v) (hv0 : v ≠ 0#64) : IsUnit (residue m v) := by
  obtain ⟨e, he, rfl⟩ := exists_generatorPower_eq hm h2 hprim hv hv0
  rw [residue_generatorPower hm h2 (he.trans (fieldOrder_lt m))]
  exact (isUnit_residue_two hm h2 hprim).pow e

/-- A modulus with 2 primitive has no factor: a factor would be a unit whose product with its cofactor is 0. -/
theorem irreduciblePoly_of_primitiveTwo : IrreduciblePoly m := by
  refine ⟨hm.one_le, fun a h1 hlt hmod => ?_⟩
  have ha0 := ne_zero_of_one_le_degree h1
  obtain ⟨b, hb⟩ := (polyMod_eq_zero_iff ha0).mp hmod
  have hprod : residue m a * AdjoinRoot.mk (asPolynomial m) b = 0 := by
    rw [residue, ← map_mul, ← hb, AdjoinRoot.mk_self]
  have hdvd : asPolynomial m ∣ b :=
    AdjoinRoot.mk_eq_zero.mp (((isUnit_residue hm h2 hprim (.inr hlt) ha0).mul_right_eq_zero).mp hprod)
  have hb0 : b ≠ 0 := by
    rintro rfl
    rw [mul_zero] at hb
    exact asPolynomial_ne_zero hm.ne_zero hb
  have hle := natDegree_le_of_dvd hdvd hb0
  rw [hb, natDegree_mul (asPolynomial_ne_zero ha0) hb0, natDegree_asPolynomial] at hle
  omega

end Enumeration

/-- `FGEN` with an exponent below the group order writes the power itself. -/
theorem gives1_fgen_generatorPower {m : Poly} {wc : BitVec 2} (hm : FieldModulus m) (h2 : 2 ≤ degree m)
    (hW : degree m ≤ 8 * 2 ^ wc.toNat) {e : Nat} (he : e < fieldOrder m) :
    Gives1 m wc .fgen (BitVec.ofNat 64 e) (generatorPower m e) := by
  refine gives1_fgen hW ?_
  rw [generate_eq_reducedPower, reducedPower_eq_polyExp _ _ hm.fieldOrder_ne_zero, BitVec.toNat_ofNat,
    Nat.mod_eq_of_lt (he.trans (fieldOrder_lt m)), Nat.mod_eq_of_lt he, generatorPower_spec hm h2]

/-- Settles O52: the powers below the group order are `generatorPower`, injective and onto the nonzero reduced words. -/
theorem generatorEnumeratesTheField : Obligations.GeneratorEnumeratesTheField := by
  intro m h2 h32 _ hprim
  have hm : FieldModulus m := ⟨by omega, h32⟩
  have h64 {e : Nat} (he : e < 2 ^ degree m - 1) : e < 2 ^ 64 := lt_trans he (fieldOrder_lt m)
  simp only [generatorPower_spec hm h2, Except.ok.injEq, ← reduced_iff_toNat_lt]
  refine ⟨fun e he => ⟨_, rfl, generatorPower_ne_zero hm h2 hprim (h64 he), reduced_generatorPower hm h2 (h64 he)⟩,
    fun e e' he he' => generatorPower_injOn hm h2 hprim he he',
    fun v hv0 hv => exists_generatorPower_eq hm h2 hprim hv hv0,
    (reducedPower_fieldOrder 2#64 hm).trans (reducedPower_zero 2#64 hm).symm, fun wc hW => ⟨generatorPower m, ?_⟩⟩
  simp only [← reduced_iff_toNat_lt]
  exact ⟨fun e he => ⟨gives1_fgen_generatorPower hm h2 hW he, generatorPower_ne_zero hm h2 hprim (h64 he),
      reduced_generatorPower hm h2 (h64 he)⟩,
    fun e e' he he' => generatorPower_injOn hm h2 hprim he he',
    fun v hv0 hv => exists_generatorPower_eq hm h2 hprim hv hv0⟩

end Sys2Proof.Machine
end

section
/-! Powers of 2 on numbers, for the kernel to run. The power unit's loops on 64-bit words are slow to evaluate in a proof; these
compute the same class with one shift and xor for each bit, and `natTwoPow_eq_one_iff` ties them to the class of 2. -/

namespace Sys2Proof.Machine

open Sys2Proof.Safety Polynomial

section FastPower

/-- `f` of a number that is computed first: the kernel evaluates by name, and would carry `n` along as a term. -/
def withValue {α : Type} (n : Nat) (f : Nat → α) : α := n.rec (f 0) (fun k _ => f (k + 1))

@[simp] theorem withValue_eq {α : Type} (n : Nat) (f : Nat → α) : withValue n f = f n := by
  cases n <;> rfl

/-- `x * v` modulo the modulus `m` of degree `d`, for `v < 2^d`, on the numbers of the words. -/
def natTimesX (m d v : Nat) : Nat := 2 * v ^^^ m * (v / 2 ^ (d - 1) % 2)

/-- `a * b` modulo `m` by Horner's rule over the low `n` bits of `b`. -/
def natMul (m d a b : Nat) : Nat → Nat → Nat
  | 0, acc => acc
  | n + 1, acc => withValue (natTimesX m d acc ^^^ a * (b / 2 ^ n % 2)) (natMul m d a b n)

/-- `x^e` modulo `m` by squaring over the low `n` bits of `e`. -/
def natTwoPow (m d e : Nat) : Nat → Nat → Nat
  | 0, acc => acc
  | n + 1, acc =>
    withValue (natMul m d acc acc d 0) fun sq =>
      withValue (if e / 2 ^ n % 2 = 1 then natTimesX m d sq else sq) (natTwoPow m d e n)

theorem div_two_pow_eq (e n : Nat) : e / 2 ^ n = 2 * (e / 2 ^ (n + 1)) + e / 2 ^ n % 2 := by
  rw [pow_succ, ← Nat.div_div_eq_div_mul, Nat.div_add_mod]

/-- Adding a low bit to an even number is adding without carry. -/
theorem two_mul_add_mod_two (q n : Nat) : 2 * q + n % 2 = 2 * q ^^^ n % 2 := by
  obtain h | h := Nat.mod_two_eq_zero_or_one n
  · simp [h]
  · rw [h]
    refine Nat.eq_of_testBit_eq fun i => ?_
    cases i <;> simp [Nat.testBit_succ, Nat.mul_add_div]

/-- Two numbers with the same top bit. -/
theorem xor_lt_two_pow_of_top {a b d : Nat} (ha : 2 ^ d ≤ a) (ha' : a < 2 ^ (d + 1)) (hb : 2 ^ d ≤ b) (hb' : b < 2 ^ (d + 1)) :
    a ^^^ b < 2 ^ d := by
  refine Nat.lt_pow_two_of_testBit _ fun i hi => ?_
  rw [Nat.testBit_xor]
  obtain rfl | hlt := hi.eq_or_lt
  · rw [Nat.testBit_of_two_pow_le_and_two_pow_add_one_gt ha ha', Nat.testBit_of_two_pow_le_and_two_pow_add_one_gt hb hb']
    rfl
  · have hle := Nat.pow_le_pow_right (n := 2) (by decide) hlt
    rw [Nat.testBit_lt_two_pow (ha'.trans_le hle), Nat.testBit_lt_two_pow (hb'.trans_le hle)]
    rfl

/-- The class of the word with a number. -/
noncomputable def natClass (m : Poly) (n : Nat) : AdjoinRoot (asPolynomial m) := residue m (BitVec.ofNat 64 n)

variable {m : Poly} {v a b acc e n : Nat}

@[simp] theorem natClass_zero (m : Poly) : natClass m 0 = 0 := residue_zero m

@[simp] theorem natClass_one (m : Poly) : natClass m 1 = 1 := residue_one m

theorem natClass_xor (m : Poly) (a b : Nat) : natClass m (a ^^^ b) = natClass m a + natClass m b := by
  rw [natClass, BitVec.ofNat_xor]
  exact residue_polyAdd m _ _

theorem natClass_self (m : Poly) : natClass m m.toNat = 0 := by
  rw [natClass, BitVec.ofNat_toNat, BitVec.setWidth_eq, residue, AdjoinRoot.mk_self]

theorem natClass_mul_mod_two (m : Poly) (a n : Nat) : natClass m (a * (n % 2)) = natClass m a * natClass m (n % 2) := by
  obtain h | h := Nat.mod_two_eq_zero_or_one n <;> simp [h]

theorem natClass_two_mul (hv : v < 2 ^ 63) : natClass m (2 * v) = residue m 2#64 * natClass m v := by
  have hshift : BitVec.ofNat 64 (2 * v) = BitVec.ofNat 64 v <<< 1 := by
    refine BitVec.eq_of_toNat_eq ?_
    simp [Nat.shiftLeft_eq, mul_comm]
  have hdeg : degree (BitVec.ofNat 64 v) + 1 ≤ 63 := by
    by_cases h0 : BitVec.ofNat 64 v = 0#64
    · simp [h0]
    · have hle := two_pow_degree_le _ h0
      rw [BitVec.toNat_ofNat, Nat.mod_eq_of_lt (hv.trans (by decide))] at hle
      have := (Nat.pow_lt_pow_iff_right (a := 2) (by decide)).mp (hle.trans_lt hv)
      omega
  have htwo : asPolynomial 2#64 = X := by simpa using asPolynomial_one_shiftLeft (n := 1) (by decide)
  rw [natClass, hshift, residue, asPolynomial_shiftLeft hdeg, residue, htwo, natClass, residue, ← map_mul, pow_one, mul_comm]

/-- The class of a number from that of its upper bits. -/
theorem natClass_div_two_pow (m : Poly) (hb : b < 2 ^ 63) (n : Nat) :
    natClass m (b / 2 ^ n) = residue m 2#64 * natClass m (b / 2 ^ (n + 1)) + natClass m (b / 2 ^ n % 2) := by
  conv_lhs => rw [div_two_pow_eq, two_mul_add_mod_two]
  rw [natClass_xor, natClass_two_mul ((Nat.div_le_self _ _).trans_lt hb)]

variable (hm : FieldModulus m)
include hm

theorem FieldModulus.two_pow_le : 2 ^ degree m ≤ 2 ^ 32 := Nat.pow_le_pow_right (by decide) hm.le

theorem natTimesX_spec (hv : v < 2 ^ degree m) :
    natTimesX m.toNat (degree m) v < 2 ^ degree m ∧
      natClass m (natTimesX m.toNat (degree m) v) = residue m 2#64 * natClass m v := by
  have hd := hm.two_pow_le
  have hsucc : 2 ^ degree m = 2 * 2 ^ (degree m - 1) := by
    rw [← pow_succ', Nat.sub_add_cancel hm.one_le]
  refine ⟨?_, ?_⟩
  · have hdiv : v / 2 ^ (degree m - 1) < 2 := by
      rw [Nat.div_lt_iff_lt_mul (Nat.two_pow_pos _)]
      omega
    obtain h | h : v / 2 ^ (degree m - 1) = 0 ∨ v / 2 ^ (degree m - 1) = 1 :=
      Nat.le_one_iff_eq_zero_or_eq_one.mp (Nat.le_of_lt_succ hdiv)
    · have hlt : v < 2 ^ (degree m - 1) := by
        simpa using (Nat.div_eq_zero_iff.mp h)
      rw [natTimesX, h, Nat.zero_mod, mul_zero, Nat.xor_zero]
      omega
    · have hle : 2 ^ (degree m - 1) ≤ v := by
        by_contra hlt
        rw [Nat.div_eq_of_lt (Nat.lt_of_not_le hlt)] at h
        cases h
      rw [natTimesX, h, Nat.one_mod, mul_one]
      exact xor_lt_two_pow_of_top (by omega) (by rw [pow_succ]; omega) (two_pow_degree_le m hm.ne_zero) (lt_two_pow_degree m)
  · rw [natTimesX, natClass_xor, natClass_two_mul (by omega), natClass_mul_mod_two, natClass_self, zero_mul, add_zero]

theorem natMul_spec (hb : b < 2 ^ degree m) (ha : a < 2 ^ degree m) (hacc : acc < 2 ^ degree m)
    (h : natClass m acc = natClass m a * natClass m (b / 2 ^ n)) :
    natMul m.toNat (degree m) a b n acc < 2 ^ degree m ∧
      natClass m (natMul m.toNat (degree m) a b n acc) = natClass m a * natClass m b := by
  have hd := hm.two_pow_le
  induction n generalizing acc with
  | zero => exact ⟨hacc, by simpa [natMul] using h⟩
  | succ n ih =>
    obtain ⟨hlt, hclass⟩ := natTimesX_spec hm hacc
    have hbit : a * (b / 2 ^ n % 2) < 2 ^ degree m :=
      (Nat.mul_le_mul_left a (Nat.le_of_lt_succ (Nat.mod_lt _ (by decide)))).trans_lt (by rwa [mul_one])
    rw [natMul, withValue_eq]
    refine ih (Nat.xor_lt_two_pow hlt hbit) ?_
    rw [natClass_xor, hclass, h, natClass_mul_mod_two, natClass_div_two_pow m (by omega) n]
    ring

theorem natTwoPow_spec (hacc : acc < 2 ^ degree m) (h : natClass m acc = residue m 2#64 ^ (e / 2 ^ n)) :
    natTwoPow m.toNat (degree m) e n acc < 2 ^ degree m ∧
      natClass m (natTwoPow m.toNat (degree m) e n acc) = residue m 2#64 ^ e := by
  induction n generalizing acc with
  | zero => exact ⟨hacc, by simpa [natTwoPow] using h⟩
  | succ n ih =>
    have hpos : 0 < 2 ^ degree m := Nat.two_pow_pos _
    obtain ⟨hsq, hsqclass⟩ := natMul_spec hm (n := degree m) hacc hacc hpos (by simp [Nat.div_eq_of_lt hacc])
    obtain ⟨hx, hxclass⟩ := natTimesX_spec hm hsq
    rw [natTwoPow, withValue_eq, withValue_eq]
    split
    · next hbit =>
      refine ih hx ?_
      rw [hxclass, hsqclass, h, div_two_pow_eq e n, hbit]
      ring
    · next hbit =>
      refine ih hsq ?_
      rw [hsqclass, h, div_two_pow_eq e n, Nat.mod_two_ne_one.mp hbit]
      ring

/-- The fast power is 1 exactly when the power's class is. -/
theorem natTwoPow_eq_one_iff (he : e < 2 ^ degree m) :
    natTwoPow m.toNat (degree m) e (degree m) 1 = 1 ↔ residue m 2#64 ^ e = 1 := by
  have h1 : 1 < 2 ^ degree m := Nat.one_lt_two_pow (by have := hm.one_le; omega)
  obtain ⟨hlt, hclass⟩ := natTwoPow_spec hm (e := e) (n := degree m) h1 (by simp [Nat.div_eq_of_lt he])
  rw [← hclass]
  refine ⟨fun h => by rw [h, natClass_one], fun h => ?_⟩
  have hd := hm.two_pow_le
  generalize natTwoPow m.toNat (degree m) e (degree m) 1 = w at *
  have hw : (BitVec.ofNat 64 w).toNat = w := by rw [BitVec.toNat_ofNat, Nat.mod_eq_of_lt (by omega)]
  have hone : BitVec.ofNat 64 w = 1#64 :=
    eq_of_residue_eq hm.ne_zero (reduced_iff_toNat_lt.mpr (by rwa [hw])) hm.reduced_one (by rw [residue_one]; exact h)
  rw [← hw, hone]
  rfl

end FastPower

end Sys2Proof.Machine
end

section
/-! The catalogue (R122 to R124): each entry of the default table is primitive. By the primes of `2^k - 1` the least exponent
with power 1 is `2^k - 1` once no quotient of `2^k - 1` by one of them has power 1; the kernel runs those few powers. -/

namespace Sys2Proof.Machine

open Sys2Proof.Safety

/-- The prime factors of `2^k - 1` for `k` = 2 .. 32, in order and with their multiplicities. -/
def groupOrderFactors : List (List Nat) :=
  [[3], [7], [3, 5], [31], [3, 3, 7], [127], [3, 5, 17], [7, 73]] ++
  [[3, 11, 31], [23, 89], [3, 3, 5, 7, 13], [8191], [3, 43, 127], [7, 31, 151], [3, 5, 17, 257], [131071]] ++
  [[3, 3, 3, 7, 19, 73], [524287], [3, 5, 5, 11, 31, 41], [7, 7, 127, 337], [3, 23, 89, 683], [47, 178481],
    [3, 3, 5, 7, 13, 17, 241], [31, 601, 1801]] ++
  [[3, 2731, 8191], [7, 73, 262657], [3, 5, 29, 43, 113, 127], [233, 1103, 2089], [3, 3, 7, 11, 31, 151, 331],
    [2147483647], [3, 5, 17, 257, 65537]]

/-- The factors of `2^k - 1`. -/
def factorsOf (k : Nat) : List Nat := groupOrderFactors.getD (k - 2) []

/-- The powers of 2 that decide whether 2 is primitive modulo `m` of degree `d`, given the prime factors `ps` of `2^d - 1`. -/
def primitiveTest (m d : Nat) (ps : List Nat) : Bool :=
  ps.prod == 2 ^ d - 1 && natTwoPow m d (2 ^ d - 1) d 1 == 1 && ps.all fun p => natTwoPow m d ((2 ^ d - 1) / p) d 1 != 1

/-- The primes among those factors, the one too large for trial division first. -/
def groupOrderPrimes : List Nat :=
  2147483647 ::
    [3, 5, 7, 11, 13, 17, 19, 23, 29, 31, 41, 43, 47, 73, 89, 113, 127, 151, 233, 241, 257, 331, 337, 601, 683, 1103,
    1801, 2089, 2731, 8191, 65537, 131071, 178481, 262657, 524287]

theorem prime_two_pow_31_sub_one : Nat.Prime 2147483647 :=
  lucas_lehmer_sufficiency 31 (by norm_num) (by norm_num)

theorem prime_of_mem_groupOrderPrimes {p : Nat} (hp : p ∈ groupOrderPrimes) : p.Prime := by
  obtain rfl | hp := List.mem_cons.mp hp
  · exact prime_two_pow_31_sub_one
  · fin_cases hp <;> norm_num

theorem prime_of_mem_factorsOf {k p : Nat} (h2 : 2 ≤ k) (h32 : k ≤ 32) (hp : p ∈ factorsOf k) : p.Prime := by
  have hall : ∀ j < 33, 2 ≤ j → ∀ q ∈ factorsOf j, q ∈ groupOrderPrimes := by decide +kernel
  exact prime_of_mem_groupOrderPrimes (hall k (Nat.lt_succ_of_le h32) h2 p hp)

/-- The test decides primitivity: the order of 2 divides the group order, and none of its quotients by a prime. -/
theorem primitiveTwo_of_primitiveTest {m : Poly} {ps : List Nat} (hm : FieldModulus m) (h2 : 2 ≤ degree m)
    (hps : ∀ p ∈ ps, p.Prime) (htest : primitiveTest m.toNat (degree m) ps = true) : PrimitiveTwo m := by
  simp only [primitiveTest, Bool.and_eq_true, beq_iff_eq, List.all_eq_true, bne_iff_ne] at htest
  obtain ⟨⟨hprod, hone⟩, hne⟩ := htest
  have hN : 2 ^ degree m - 1 < 2 ^ degree m := Nat.sub_lt (Nat.two_pow_pos _) Nat.one_pos
  rw [primitiveTwo_iff_orderOf hm h2]
  refine orderOf_eq_of_pow_and_pow_div_prime (Nat.pos_of_ne_zero hm.fieldOrder_ne_zero)
    ((natTwoPow_eq_one_iff hm hN).mp hone) fun p hp hdvd => ?_
  rw [fieldOrder, ← hprod] at hdvd
  obtain ⟨q, hq, hpq⟩ := (Prime.dvd_prod_iff hp.prime).mp hdvd
  obtain rfl : p = q := (Nat.prime_dvd_prime_iff_eq hp (hps q hq)).mp hpq
  rw [ne_eq, fieldOrder, ← natTwoPow_eq_one_iff hm ((Nat.div_le_self _ _).trans_lt hN)]
  exact hne p hq

theorem primitiveTest_defaultEntry {k : Nat} (h2 : 2 ≤ k) (h32 : k ≤ 32) :
    primitiveTest (defaultEntry k).toNat k (factorsOf k) = true := by
  have hall : ∀ j < 33, 2 ≤ j → primitiveTest (defaultEntry j).toNat j (factorsOf j) = true := by decide +kernel
  exact hall k (Nat.lt_succ_of_le h32) h2

theorem primitiveTwo_defaultEntry {k : Nat} (h2 : 2 ≤ k) (h32 : k ≤ 32) : PrimitiveTwo (defaultEntry k) := by
  have hdeg := degree_defaultEntry h2 h32
  exact primitiveTwo_of_primitiveTest ⟨by omega, by omega⟩ (by omega) (fun _ => prime_of_mem_factorsOf h2 h32)
    (by rw [hdeg]; exact primitiveTest_defaultEntry h2 h32)

/-- Whatever the parameter `IRRED` is, 2 is primitive modulo each entry (R123 c): the entry test asks it of the parameter's
value. -/
theorem primitiveTwo_catalogueEntry {k : Nat} (h2 : 2 ≤ k) (h32 : k ≤ 32) : PrimitiveTwo (catalogueEntry k) := by
  obtain ⟨rfl, he⟩ | ⟨-, ha, he⟩ | ⟨-, -, he⟩ := catalogueEntry_cases k <;> rw [he]
  · have h16 : defaultEntry 16 = 0x1100B#64 := by decide
    rw [← h16]
    exact primitiveTwo_defaultEntry h2 h32
  · obtain ⟨-, hprim, -⟩ := (admissibleEntry_iff k _).mp ha
    exact hprim
  · exact primitiveTwo_defaultEntry h2 h32

/-- Settles O60: each entry has its degree and is primitive, and so irreducible. -/
theorem catalogueIsAdmissible : Obligations.CatalogueIsAdmissible := by
  refine ⟨fun k h2 h32 => ?_, if_pos rfl⟩
  have hdeg := degree_catalogueEntry h2 h32
  have hprim := primitiveTwo_catalogueEntry h2 h32
  exact ⟨hdeg, irreduciblePoly_of_primitiveTwo ⟨by omega, by omega⟩ (by omega) hprim, hprim⟩

end Sys2Proof.Machine
end
